-- ==== Sys2Proof/Word.lean ====
section
/-! DEFINITION. The two data widths of the core: the 32-bit word (R8, R10, R74) and the byte (R7). -/

namespace Sys2Proof

/-- A 32-bit unsigned word: the unit of every access and of every stored value (R10, R74). -/
abbrev Word := BitVec 32

/-- A byte: one lane of a word, an AR2 control byte, a table seed or a table entry (R7, R8). -/
abbrev Byte := BitVec 8

end Sys2Proof
end

