-- ==== Sys2Proof/Config.lean ====
section
/-! DEFINITION. What an implementation of the core fixes (the OPEN parameters of R5) and the free values that stand for
what a data fault leaves unspecified (R307, R50). The constants the spec itself fixes (the ARMAX tables, SENTINEL,
VER_WIDTH) are in the Machine files that use them. -/

namespace Sys2Proof

/-- `VERIFIER_ROUNDING` of R257: the literal reading of the line-count sentence, or the count of lines touched. -/
inductive Rounding where
  | floor
  | ceil
  deriving DecidableEq, Repr, Inhabited

/-- The sign a lane has in AR2 mode 6 (R203). -/
inductive Sign where
  | add
  | sub
  deriving DecidableEq, Repr, Inhabited

/-- `AR2_LANEMAP` (R197 to R203). Entry `k` of each vector is for byte lane `k` (R7). Mode 3 has no map of its own:
its map is `t2` read at the mirror lane (R200). -/
structure LaneMap where
  /-- Mode 0: the table of each lane (R197). -/
  t0 : Vector (Fin 4) 4
  /-- Mode 1: the table of each lane (R198). -/
  t1 : Vector (Fin 4) 4
  /-- Mode 2: the table of each lane (R199). -/
  t2 : Vector (Fin 4) 4
  /-- Mode 4: the table of each lane's XOR (R201). -/
  a4 : Vector (Fin 4) 4
  /-- Mode 4: the table of each lane's addition (R201). -/
  b4 : Vector (Fin 4) 4
  /-- Mode 5: the table of each lane's subtraction (R202). -/
  a5 : Vector (Fin 4) 4
  /-- Mode 5: the table of each lane's XOR (R202). -/
  b5 : Vector (Fin 4) 4
  /-- Mode 6: the table of each lane (R203). -/
  t6 : Vector (Fin 4) 4
  /-- Mode 6: the offset each lane adds to the table seed (R203). -/
  d6 : Vector (Fin 4) 4
  /-- Mode 6: the sign of each lane (R203). -/
  sg6 : Vector Sign 4
  deriving DecidableEq, Repr, Inhabited

/-- The OPEN parameters of R5, as plain data. "A model takes the following parameters": the machine's state carries
them (its constant storage, R47), so every statement about a state is a statement about every instance. -/
structure Params where
  /-- `WBUF_DEPTH`: the number of words of WBUF and of OBUF (R5). -/
  wbufDepth : Nat
  /-- `AR2_DEFAULT_KEY` (R192). -/
  ar2DefaultKey : Word
  /-- `AR2_TBL[0..3][0..31]` (R193). -/
  ar2Tbl : Vector (Vector Byte 32) 4
  /-- `AR2_LANEMAP` (R197 to R203). -/
  laneMap : LaneMap
  /-- `VERIFIER_ROUNDING` (R257). -/
  rounding : Rounding
  /-- `CORE_BASE`: the platform base address of the register space (R70). -/
  coreBase : Nat
  deriving DecidableEq, Repr, Inhabited

/-- The parameter instances the spec allows: `1 <= WBUF_DEPTH <= 1024` (R5); four distinct tables (R193, R197 and the
head of 95_test_vectors.md); `t0` a bijection (R197); `t1 != t0` (R198); `d` a bijection onto the offsets 0 to 3 and
the signs mixed (R203). -/
abbrev Params.Legal (p : Params) : Prop :=
  1 ≤ p.wbufDepth ∧ p.wbufDepth ≤ 1024
    ∧ p.ar2Tbl.toList.Nodup
    ∧ p.laneMap.t0.toList.Nodup
    ∧ p.laneMap.t1 ≠ p.laneMap.t0
    ∧ p.laneMap.d6.toList.Nodup
    ∧ Sign.add ∈ p.laneMap.sg6.toList ∧ Sign.sub ∈ p.laneMap.sg6.toList

/-- One legal instance, used only to keep `Config.params` legal; the tables and the key are made up and no theorem can
depend on them through `Config.params`. -/
def Config.someLegalParams : Params where
  wbufDepth := 1024
  ar2DefaultKey := 0
  ar2Tbl := #v[Vector.replicate 32 0, Vector.replicate 32 1, Vector.replicate 32 2, Vector.replicate 32 3]
  laneMap :=
    { t0 := #v[0, 1, 2, 3], t1 := #v[3, 2, 1, 0], t2 := #v[0, 1, 2, 3], a4 := #v[0, 1, 2, 3], b4 := #v[0, 1, 2, 3],
      a5 := #v[0, 1, 2, 3], b5 := #v[0, 1, 2, 3], t6 := #v[0, 1, 2, 3], d6 := #v[0, 1, 2, 3],
      sg6 := #v[.add, .sub, .add, .sub] }
  rounding := .floor
  coreBase := 0

/-- An arbitrary assignment of values to the OPEN parameters, about which nothing can be proved. -/
opaque Config.openParams : Params

/-- The parameters of the machine after reset: an arbitrary LEGAL instance. Whatever legal instance a part has,
`Config.openParams` may be it; only legality is provable (assumption 1). -/
def Config.params : Params :=
  if Config.openParams.Legal then Config.openParams else Config.someLegalParams

/-! ### Free values (R50, R307; assumption 6)

A data fault leaves its destinations unspecified and the core goes on. Each opaque constant below gives one
destination's value after the data fault that finds the counter `State.freeCount` at the given number. -/

/-- `WBUF[i]` after a data fault (R307). -/
opaque Config.freeWbuf : Nat → Nat → Word

/-- `OBUF[i]` after a data fault (R307). -/
opaque Config.freeObuf : Nat → Nat → Word

/-- `OCOUNT` after a data fault (R307). -/
opaque Config.freeOcount : Nat → BitVec 11

/-- `SEED[0..3]`, as the register AR2SEED shows it, after a data fault (R307). -/
opaque Config.freeSeed : Nat → Word

/-- `CUR_IDX` after a data fault (R307). -/
opaque Config.freeCurIdx : Nat → BitVec 11

/-- `CUR_OFF` after a data fault (R307). -/
opaque Config.freeCurOff : Nat → BitVec 5

/-- `CUR_CNT` after a data fault (R307). -/
opaque Config.freeCurCnt : Nat → BitVec 11

/-- `MD_GAME` after a data fault (R307). -/
opaque Config.freeMdGame : Nat → BitVec 13

/-- `MD_CHEAT` after a data fault (R307). -/
opaque Config.freeMdCheat : Nat → BitVec 19

/-- `MD_FLAGS.enable_flag` after a data fault (R307). -/
opaque Config.freeMdEnable : Nat → BitVec 1

/-- `MD_FLAGS.region` after a data fault (R307). -/
opaque Config.freeMdRegion : Nat → BitVec 2

/-- `VER_LINES` after a data fault (R307). -/
opaque Config.freeVerLines : Nat → Word

end Sys2Proof
end

