-- ==== Sys2Proof/Machine/Ar2Seed.lean ====
section
/-! DEFINITION. The AR2 seed state and its schedule `regenerate` (R39, R107, R191). -/

namespace Sys2Proof.Machine

/-- `SEED[0..3]`: control and table seed for the address word, then for the value word (R39, R107). -/
structure Seed where
  /-- `SEED[0]`, the address control byte. -/
  addrControl : Byte
  /-- `SEED[1]`, the address table seed. -/
  addrSeed : Byte
  /-- `SEED[2]`, the value control byte. -/
  valControl : Byte
  /-- `SEED[3]`, the value table seed. -/
  valSeed : Byte
  deriving DecidableEq, Repr

/-- `regenerate(K) = [K[31:24], K[23:16], K[15:8], K[7:0]]` (R191). -/
def regenerate (k : Word) : Seed where
  addrControl := k.extractLsb' 24 8
  addrSeed := k.extractLsb' 16 8
  valControl := k.extractLsb' 8 8
  valSeed := k.extractLsb' 0 8

/-- The register AR2SEED: `SEED[0] ++ SEED[1] ++ SEED[2] ++ SEED[3]` (R39). -/
def seedWord (sd : Seed) : Word := sd.addrControl ++ sd.addrSeed ++ sd.valControl ++ sd.valSeed

end Sys2Proof.Machine
end

