-- ==== Sys2Proof/Syntax.lean ====
section
/-! DEFINITION. The syntax of the machine: the instructions (the 12 commands of R102 and the 8 AR2 control values of
R105, one constructor per row of spec/opcode_table.json), the two forms an encoded instruction has, and the host's bus
accesses, whose list is a host program (R116). -/

namespace Sys2Proof

/-- The closed enumeration of the AR2 transform modes (R105). -/
inductive Ar2Mode where
  /-- Control 0x00: per-byte XOR (R197). -/
  | xor
  /-- Control 0x01: nibble swap, then XOR (R198). -/
  | nibswapXor
  /-- Control 0x02: per-byte add (R199). -/
  | add
  /-- Control 0x03: per-byte subtract, mirrored tables (R200). -/
  | subReversed
  /-- Control 0x04: XOR, then add (R201). -/
  | xorAdd
  /-- Control 0x05: subtract, then XOR (R202). -/
  | subXor
  /-- Control 0x06: mixed add and subtract with offset seeds (R203). -/
  | mixedOffset
  /-- Control 0x07: complement, or mode 1 (R204). -/
  | metaMode
  deriving DecidableEq, Repr

/-- The instructions. A command carries the bits [31:8] of the word written to CMD, which have no effect (R100), so
that no bit of an encoding is lost. An AR2 control value is one whole byte (R105). -/
inductive Instr where
  /-- OP 0x00 (R280). -/
  | nop (ignored : BitVec 24)
  /-- OP 0x01 (R145). -/
  | armaxGen (ignored : BitVec 24)
  /-- OP 0x02 (R146). -/
  | armaxPair (ignored : BitVec 24)
  /-- OP 0x03 (R147). -/
  | armaxBuf (ignored : BitVec 24)
  /-- OP 0x10 (R210). -/
  | ar2SeedDefault (ignored : BitVec 24)
  /-- OP 0x11 (R211). -/
  | ar2SeedKey (ignored : BitVec 24)
  /-- OP 0x12 (R212). -/
  | ar2Code (ignored : BitVec 24)
  /-- OP 0x13 (R213). -/
  | ar2Stream (ignored : BitVec 24)
  /-- OP 0x20 (R237). -/
  | curRead (ignored : BitVec 24)
  /-- OP 0x21 (R253). -/
  | metadata (ignored : BitVec 24)
  /-- OP 0x22 (R259). -/
  | verifyLen (ignored : BitVec 24)
  /-- OP 0x30 (R281). -/
  | decodeCheat (ignored : BitVec 24)
  /-- Control 0x00 (R197). -/
  | ar2Mode0Xor
  /-- Control 0x01 (R198). -/
  | ar2Mode1NibswapXor
  /-- Control 0x02 (R199). -/
  | ar2Mode2Add
  /-- Control 0x03 (R200). -/
  | ar2Mode3SubReversed
  /-- Control 0x04 (R201). -/
  | ar2Mode4XorAdd
  /-- Control 0x05 (R202). -/
  | ar2Mode5SubXor
  /-- Control 0x06 (R203). -/
  | ar2Mode6MixedOffset
  /-- Control 0x07 (R204). -/
  | ar2Mode7Meta
  deriving DecidableEq, Repr

/-- The encoded form of an instruction: a word written to CMD (R100), or an AR2 control byte (R105). -/
inductive Code where
  | cmd (w : Word)
  | control (c : Byte)
  deriving DecidableEq, Repr

/-- One host bus access at a byte offset from `CORE_BASE` (R70, R116), `size` bytes wide. -/
inductive Access where
  | read (offset size : Nat)
  | write (offset size : Nat) (data : Word)
  deriving DecidableEq, Repr

/-- What the outside world does to the core: a bus access (R30), or the platform reset input (R330). -/
inductive HostEvent where
  | access (a : Access)
  | reset
  deriving DecidableEq, Repr

/-- The named registers of the address map (R71). -/
inductive Reg where
  | cmd | status | opa | opb | opc | opd | res0 | res1 | ar2seed | curIdx | curOff | curCnt | wcount | ocount
  | mdGame | mdCheat | mdFlags | verLines
  deriving DecidableEq, Repr

/-- What an aligned offset of the register space names (R71). -/
inductive Target where
  | reg (r : Reg)
  | sched (i : Fin 32)
  | wbuf (i : Nat)
  | obuf (i : Nat)
  | reserved
  deriving DecidableEq, Repr

end Sys2Proof
end

