-- ==== Sys2Proof/Machine/State.lean ====
section
/-! DEFINITION. The machine's state, its reset value (R49, R330), and the reasons a step can stop. -/

namespace Sys2Proof.Machine

/-- The error codes STATUS.ERR can hold (R300); codes 7 to 15 are never written. -/
inductive ErrCode where
  | ok
  | malformedInput
  | unsupportedMode
  | seedRange
  | notReady
  | illegalCommand
  | illegalOperand
  deriving DecidableEq, Repr

/-- The BitCursor's triple `(word_index, bit_offset, word_count)` (R40, R230). -/
structure Cursor where
  /-- CUR_IDX, 11 bits. -/
  idx : BitVec 11
  /-- CUR_OFF, 5 bits. -/
  off : BitVec 5
  /-- CUR_CNT, 11 bits. -/
  cnt : BitVec 11
  deriving DecidableEq, Repr

/-- A word buffer (WBUF, OBUF): the words that hold a value, by index, the indices strictly rising. The unit is the
word, because "The core has no byte-addressed memory" (R74). An index that is not listed holds no value (R43, R44). -/
abbrev Memory := List (Nat × Word)

/-- Everything the spec gives the machine (R49), its OPEN parameters as constant storage (R47), and the model's own
fields for the host's side of the bus and for the free values. -/
@[ext]
structure State where
  /-- OPA: address word, code word or key (R32). -/
  opa : Word
  /-- OPB: value word (R32). -/
  opb : Word
  /-- OPC: AR2 control byte or bit count (R32). -/
  opc : Byte
  /-- OPD: AR2 table seed (R32). -/
  opd : Byte
  /-- RES0 (R33). -/
  res0 : Word
  /-- RES1 (R33). -/
  res1 : Word
  /-- STATUS.ERR (R35). -/
  err : ErrCode
  /-- STATUS.SCHED_VALID (R38). -/
  schedValid : Bool
  /-- STATUS.STICKY (R311). -/
  sticky : Bool
  /-- SCHED[0..31] (R36). -/
  sched : Vector Word 32
  /-- SEED[0..3] (R39). -/
  seed : Seed
  /-- CUR_IDX, CUR_OFF, CUR_CNT (R40). -/
  cur : Cursor
  /-- WCOUNT (R41). -/
  wcount : BitVec 11
  /-- OCOUNT (R42). -/
  ocount : BitVec 11
  /-- WBUF (R43). -/
  wbuf : Memory
  /-- OBUF (R44). -/
  obuf : Memory
  /-- MD_GAME.game_id (R45). -/
  mdGame : BitVec 13
  /-- MD_CHEAT.cheat_id (R45). -/
  mdCheat : BitVec 19
  /-- MD_FLAGS.enable_flag (R45). -/
  mdEnable : BitVec 1
  /-- MD_FLAGS.region (R45). -/
  mdRegion : BitVec 2
  /-- VER_LINES (R46). -/
  verLines : Word
  /-- The OPEN parameters (R5, R47): constants, which no step changes. -/
  params : Params
  /-- The model's own: what the host will do next, in its order (R82, R116). -/
  bus : List HostEvent
  /-- The model's own: the data of the host's reads so far, oldest first; `none` where the spec gives the location no
  value (R43, R77, R78). -/
  readLog : List (Option Word)
  /-- The model's own: how many free values have been taken (assumption 6). -/
  freeCount : Nat
  deriving DecidableEq, Repr

/-- Why the machine has no next state. -/
inductive Fault where
  /-- Raised by `step` on a host access that is not an aligned 32-bit access inside the register space. R70: "A model
  gives an access of any other size, or at any other offset, no step". Safe: nothing is claimed of such a run. -/
  | stuckAccess (offset size : Nat)
  /-- Raised by a command that reads a WBUF word that nothing has written since reset. R43: "a command that reads it
  faults as unmodelled rather than reading an invented value". Safe: nothing is claimed of such a run. -/
  | wbufNoValue (index : Nat)
  deriving DecidableEq, Repr

/-- Why an instruction has no meaning. No meaning of this model refuses. -/
inductive Refusal where
  /-- Raised by an arm of `exec` whose instruction is not modelled; no arm is left. Safe. -/
  | notModelled (mnemonic : String)
  deriving DecidableEq, Repr

/-- The state after reset of a core with the given parameters (R49, R330): the registers zero, STATUS zero, SEED the
default seed state, WBUF and OBUF without values. SCHED is unspecified (R37); the model holds zeros, which nothing can
read while SCHED_VALID is 0 (assumption 5). -/
def State.powerOn (p : Params) : State where
  opa := 0
  opb := 0
  opc := 0
  opd := 0
  res0 := 0
  res1 := 0
  err := .ok
  schedValid := false
  sticky := false
  sched := Vector.replicate 32 0
  seed := regenerate p.ar2DefaultKey
  cur := { idx := 0, off := 0, cnt := 0 }
  wcount := 0
  ocount := 0
  wbuf := []
  obuf := []
  mdGame := 0
  mdCheat := 0
  mdEnable := 0
  mdRegion := 0
  verLines := 0
  params := p
  bus := []
  readLog := []
  freeCount := 0

/-- The machine right after reset (R330), with an arbitrary legal parameter instance and nothing issued by the host. -/
def State.reset : State := State.powerOn Config.params

end Sys2Proof.Machine
end

