-- ==== Sys2Proof/Machine/Flags.lean ====
section
/-! DEFINITION. The flags: STATUS.ERR, STATUS.SCHED_VALID and STATUS.STICKY (R35), and the data flags of MD_FLAGS
(R45). No other flag exists (R51). -/

namespace Sys2Proof.Machine

/-- The numeric error code (R300). -/
def ErrCode.code : ErrCode → BitVec 4
  | .ok => 0
  | .malformedInput => 1
  | .unsupportedMode => 2
  | .seedRange => 3
  | .notReady => 4
  | .illegalCommand => 5
  | .illegalOperand => 6

/-- One flag as a bit. -/
def flagBit (b : Bool) : BitVec 1 := if b then 1 else 0

/-- The register STATUS: ERR in [3:0], SCHED_VALID in [8], STICKY in [16], every other bit 0 (R35). -/
def State.statusWord (s : State) : Word :=
  0#15 ++ flagBit s.sticky ++ 0#7 ++ flagBit s.schedValid ++ 0#4 ++ s.err.code

/-- The register MD_FLAGS: enable_flag in [0], region in [2:1], every other bit 0 (R45, R253). -/
def State.mdFlagsWord (s : State) : Word := 0#29 ++ s.mdRegion ++ s.mdEnable

/-- A command that succeeds writes ERR = 0 and leaves STICKY (R35, R311). -/
def State.succeed (s : State) : State := { s with err := .ok }

end Sys2Proof.Machine
end

