-- ==== Sys2Proof/Machine/Ops.lean ====
section
/-! DEFINITION. The named operations every meaning is made of: reading and writing a word buffer, what stops a command,
and what a command's end does to the state: success, or taking a fault (R307). There is no return from a fault: "A
fault is a result, not a change of control flow. After a fault, the host continues by issuing the next command" (R310),
so the next step simply runs. -/

namespace Sys2Proof.Machine

/-! ### Word buffers (R43, R44, R74) -/

/-- The word at an index, if it holds a value. -/
def Memory.read : Memory → Nat → Option Word
  | [], _ => none
  | (j, v) :: m, i => if i = j then some v else Memory.read m i

/-- Store a word: "A word keeps its value until the host or a command writes it again" (R76). -/
def Memory.write : Memory → Nat → Word → Memory
  | [], i, w => [(i, w)]
  | (j, v) :: m, i, w =>
    if i < j then (i, w) :: (j, v) :: m
    else if i = j then (i, w) :: m
    else (j, v) :: Memory.write m i w

/-- Store consecutive words from an index on. -/
def Memory.writeWords : Memory → Nat → List Word → Memory
  | m, _, [] => m
  | m, i, w :: ws => Memory.writeWords (Memory.write m i w) (i + 1) ws

/-- The canonical form: the indices strictly rise. -/
abbrev Memory.wf (m : Memory) : Prop := m.Pairwise fun a b => a.1 < b.1

/-- Every word lies below an index. -/
abbrev Memory.below (m : Memory) (n : Nat) : Prop := ∀ c ∈ m, c.1 < n

/-! ### How a command can stop -/

/-- What ends a command before its last line: `raise E(info)` (R9), or the read of a WBUF word that holds no value
(R43). -/
inductive Stop where
  | raised (e : ErrCode)
  | noValue (index : Nat)
  deriving DecidableEq, Repr

/-- A command's read of a buffer word (R43). -/
def Memory.fetch (m : Memory) (i : Nat) : Except Stop Word :=
  match m.read i with
  | some w => .ok w
  | none => .error (.noValue i)

/-- An error of a pure function, raised by the command that calls it. -/
def raising {α : Type} : Except ErrCode α → Except Stop α
  | .ok a => .ok a
  | .error e => .error (.raised e)

/-! ### Taking a fault (R307) -/

/-- The destinations a data fault can leave unspecified (R101, R307). -/
inductive Dest where
  | wbuf | obuf | ocount | seed | cursor | md | verLines
  deriving DecidableEq, Repr

/-- One destination becomes unspecified: a free value, taken at the counter `k`. WBUF and OBUF lose the words the
command's row of R101 names: `WBUF[0..WCOUNT-1]`, and all of OBUF (R213). -/
def State.spoil (k : Nat) (s : State) : Dest → State
  | .wbuf => { s with wbuf := s.wbuf.writeWords 0 ((List.range s.wcount.toNat).map (Config.freeWbuf k)) }
  | .obuf => { s with obuf := s.obuf.writeWords 0 ((List.range s.params.wbufDepth).map (Config.freeObuf k)) }
  | .ocount => { s with ocount := Config.freeOcount k }
  | .seed => { s with seed := regenerate (Config.freeSeed k) }
  | .cursor => { s with cur := { idx := Config.freeCurIdx k, off := Config.freeCurOff k, cnt := Config.freeCurCnt k } }
  | .md =>
    { s with
      mdGame := Config.freeMdGame k, mdCheat := Config.freeMdCheat k
      mdEnable := Config.freeMdEnable k, mdRegion := Config.freeMdRegion k }
  | .verLines => { s with verLines := Config.freeVerLines k }

/-- Taking a fault (R307): `STATUS.ERR <- E`, `STATUS.STICKY <- 1`, and every destination of a data fault unspecified.
A check fault has no destinations, and changes nothing else. -/
def State.takeFault (s : State) (e : ErrCode) (dests : List Dest) : State :=
  { dests.foldl (State.spoil s.freeCount) s with
    err := e, sticky := true, freeCount := s.freeCount + dests.length }

/-- The end of a command, or of a part that ends it: the result state with ERR = 0 (R35), the fault taken (R307), or no
step where a word without a value was read (R43). -/
def State.conclude (s : State) (dests : List Dest) (r : Except Stop State) : Host.Outcome State Fault Refusal :=
  match r with
  | .ok t => .next t.succeed
  | .error (.raised e) => .next (s.takeFault e dests)
  | .error (.noValue i) => .fault (.wbufNoValue i)

/-- The first error whose condition holds, in the order of R308. -/
def firstError : List (Bool × ErrCode) → Option ErrCode
  | [] => none
  | (true, e) :: _ => some e
  | (false, _) :: l => firstError l

/-- The checks a command makes before it writes anything: the first that fails is taken as a check fault (R307, R308),
else the command goes on. -/
def State.checked (s : State) (checks : List (Bool × ErrCode)) (k : Host.Outcome State Fault Refusal) :
    Host.Outcome State Fault Refusal :=
  match firstError checks with
  | some e => .next (s.takeFault e [])
  | none => k

end Sys2Proof.Machine
end

