-- ==== Sys2Proof/WellFormed.lean ====
section
/-! DEFINITION. The checks on terms. Every term of `Instr` is well formed: no command has an operand field, the bits
[31:8] may hold any value (R100), and a control value is named by its constructor. What can be ill formed is a host
access (R70) and a parameter instance (`Params.Legal` in Config.lean). -/

namespace Sys2Proof

/-- The byte offset of an access. -/
def Access.offset : Access → Nat
  | .read o _ => o
  | .write o _ _ => o

/-- The width of an access in bytes. -/
def Access.size : Access → Nat
  | .read _ n => n
  | .write _ n _ => n

/-- R70: "Every host access is a 32-bit read or write at an offset that is a multiple of 4", in the 16 KiB register
space. Any other access has no step. -/
def Access.wellFormed (a : Access) : Bool :=
  a.size == 4 && a.offset % 4 == 0 && decide (a.offset < 0x4000)

end Sys2Proof
end

