-- ==== Sys2Proof/Machine/Bus.lean ====
section
/-! DEFINITION. The host bus: the address map (R71), reads (R34, R72, R73, R76 to R79), writes other than to CMD (R72,
R73, R79), the reset input (R330), and the host notation of programs (R114, R115). -/

namespace Sys2Proof.Machine

/-! ### The address map -/

/-- The offset of a named register (R71). -/
def regOffset : Reg → Nat
  | .cmd => 0x000
  | .status => 0x004
  | .opa => 0x008
  | .opb => 0x00C
  | .opc => 0x010
  | .opd => 0x014
  | .res0 => 0x018
  | .res1 => 0x01C
  | .ar2seed => 0x020
  | .curIdx => 0x024
  | .curOff => 0x028
  | .curCnt => 0x02C
  | .wcount => 0x030
  | .ocount => 0x034
  | .mdGame => 0x038
  | .mdCheat => 0x03C
  | .mdFlags => 0x040
  | .verLines => 0x044

/-- The named registers in the order of their offsets (R71). -/
def regList : List Reg :=
  [.cmd, .status, .opa, .opb, .opc, .opd, .res0, .res1, .ar2seed, .curIdx, .curOff, .curCnt, .wcount, .ocount,
    .mdGame, .mdCheat, .mdFlags, .verLines]

/-- What an aligned offset names, for a core with buffers of `depth` words (R71). Buffer slots at or above the depth
are reserved. -/
def decodeOffset (depth offset : Nat) : Target :=
  if offset < 0x048 then
    match regList[offset / 4]? with
    | some r => .reg r
    | none => .reserved
  else if h : 0x100 ≤ offset ∧ offset < 0x180 then .sched ⟨(offset - 0x100) / 4, by omega⟩
  else if 0x1000 ≤ offset ∧ offset < 0x2000 ∧ (offset - 0x1000) / 4 < depth then .wbuf ((offset - 0x1000) / 4)
  else if 0x2000 ≤ offset ∧ offset < 0x3000 ∧ (offset - 0x2000) / 4 < depth then .obuf ((offset - 0x2000) / 4)
  else .reserved

/-- The offset of a target (R71, R114). A reserved target has no one offset; its first is given. -/
def targetOffset : Target → Nat
  | .reg r => regOffset r
  | .sched i => 0x100 + 4 * i.val
  | .wbuf i => 0x1000 + 4 * i
  | .obuf i => 0x2000 + 4 * i
  | .reserved => 0x048

/-- The offset that a platform address stands for: the register space is the 16 KiB from `CORE_BASE` on (R70). -/
def offsetOfAddress (p : Params) (address : Nat) : Option Nat :=
  if p.coreBase ≤ address ∧ address < p.coreBase + 0x4000 then some (address - p.coreBase) else none

/-! ### Reads and writes -/

/-- The word a read of a register returns, its unused bits 0 (R34, R35, R39, R45, R73). -/
def State.readReg (s : State) : Reg → Word
  | .cmd => 0
  | .status => s.statusWord
  | .opa => s.opa
  | .opb => s.opb
  | .opc => s.opc.setWidth 32
  | .opd => s.opd.setWidth 32
  | .res0 => s.res0
  | .res1 => s.res1
  | .ar2seed => seedWord s.seed
  | .curIdx => s.cur.idx.setWidth 32
  | .curOff => s.cur.off.setWidth 32
  | .curCnt => s.cur.cnt.setWidth 32
  | .wcount => s.wcount.setWidth 32
  | .ocount => s.ocount.setWidth 32
  | .mdGame => s.mdGame.setWidth 32
  | .mdCheat => s.mdCheat.setWidth 32
  | .mdFlags => s.mdFlagsWord
  | .verLines => s.verLines

/-- The word a read of a target returns; `none` where the spec gives the location no value: a WBUF word nothing has
written (R43), an OBUF word at or above OCOUNT (R77), SCHED while SCHED_VALID is 0 (R78). -/
def State.readTarget (s : State) : Target → Option Word
  | .reg r => some (s.readReg r)
  | .sched i => if s.schedValid then some (s.sched.get i) else none
  | .wbuf i => s.wbuf.read i
  | .obuf i => if i < s.ocount.toNat then s.obuf.read i else none
  | .reserved => some 0

/-- A write to a named register: the field bits are stored, and a read-only register ignores the write (R73). A write to
CMD stores nothing; its command is `step`'s (R34, R79). -/
def State.writeReg (s : State) (v : Word) : Reg → State
  | .opa => { s with opa := v }
  | .opb => { s with opb := v }
  | .opc => { s with opc := v.extractLsb' 0 8 }
  | .opd => { s with opd := v.extractLsb' 0 8 }
  | .curIdx => { s with cur := { s.cur with idx := v.extractLsb' 0 11 } }
  | .curOff => { s with cur := { s.cur with off := v.extractLsb' 0 5 } }
  | .curCnt => { s with cur := { s.cur with cnt := v.extractLsb' 0 11 } }
  | .wcount => { s with wcount := v.extractLsb' 0 11 }
  | .cmd | .status | .res0 | .res1 | .ar2seed | .ocount | .mdGame | .mdCheat | .mdFlags | .verLines => s

/-- A write to a target (R72, R73, R76). -/
def State.writeTarget (s : State) (v : Word) : Target → State
  | .reg r => s.writeReg v r
  | .wbuf i => { s with wbuf := s.wbuf.write i v }
  | .sched _ | .obuf _ | .reserved => s

/-- What an offset names in this core (R71). -/
def State.target (s : State) (offset : Nat) : Target := decodeOffset s.params.wbufDepth offset

/-- A host read: it changes nothing of the core (R79), and the host has the data. -/
def State.hostRead (s : State) (offset : Nat) : State :=
  { s with readLog := s.readLog ++ [s.readTarget (s.target offset)] }

/-- A host write to an offset other than CMD: it only stores the value (R79). -/
def State.hostWrite (s : State) (offset : Nat) (v : Word) : State := s.writeTarget v (s.target offset)

/-- The platform reset (R330): the state after reset of the same core. What the host has seen and what it will do next
are not the core's and stay, and so does the count of free values taken. -/
def State.platformReset (s : State) : State :=
  { State.powerOn s.params with bus := s.bus, readLog := s.readLog, freeCount := s.freeCount }

/-! ### Host notation (R114, R115) -/

/-- `WR <target>, <value>`. -/
def hostWR (t : Target) (v : Word) : HostEvent := .access (.write (targetOffset t) 4 v)

/-- `RD <target>`. -/
def hostRD (t : Target) : HostEvent := .access (.read (targetOffset t) 4)

/-- `CMD <mnemonic>`, with the word written to CMD. -/
def hostCMD (w : Word) : HostEvent := hostWR (.reg .cmd) w

/-- `PAIR a, v`. -/
def hostPAIR (a v : Word) : List HostEvent := [hostWR (.reg .opa) a, hostWR (.reg .opb) v, hostCMD 0x02]

/-- `CODE w, c, s`. -/
def hostCODE (w c s : Word) : List HostEvent :=
  [hostWR (.reg .opa) w, hostWR (.reg .opc) c, hostWR (.reg .opd) s, hostCMD 0x12]

/-- `SEEDKEY k`. -/
def hostSEEDKEY (k : Word) : List HostEvent := [hostWR (.reg .opa) k, hostCMD 0x11]

/-- `READ n`. -/
def hostREAD (n : Word) : List HostEvent := [hostWR (.reg .opc) n, hostCMD 0x20]

/-- `CURSOR i, o, c`. -/
def hostCURSOR (i o c : Word) : List HostEvent :=
  [hostWR (.reg .curIdx) i, hostWR (.reg .curOff) o, hostWR (.reg .curCnt) c]

/-- `LOAD w0, ..., wn-1`. -/
def hostLOAD (ws : List Word) : List HostEvent :=
  (ws.zipIdx.map fun (w, i) => hostWR (.wbuf i) w) ++ [hostWR (.reg .wcount) (BitVec.ofNat 32 ws.length)]

end Sys2Proof.Machine
end

