-- ==== Sys2Proof/Decode.lean ====
section
/-! DEFINITION. The decoder, total on every word and on every control byte and rejecting by name (R103, R105), and
after it the encoder (R100, R102, R105). -/

namespace Sys2Proof

/-- Why an encoding is no instruction. -/
inductive DecodeError where
  /-- A reserved OP value (R103): the core takes ILLEGAL_COMMAND (R301). -/
  | reservedOpcode (op : Byte)
  /-- A control byte above 7 (R105): `decrypt_code` raises UNSUPPORTED_MODE (R302). -/
  | reservedControl (c : Byte)
  deriving DecidableEq, Repr

/-- The field OP, bits [7:0] of the word written to CMD (R100). -/
def opcodeOf (w : Word) : Byte := w.extractLsb' 0 8

/-- The ignored bits [31:8] of the word written to CMD (R100). -/
def ignoredOf (w : Word) : BitVec 24 := w.extractLsb' 8 24

/-- The opcode map (R102). "Decoding compares all eight bits"; every other value is reserved (R103). -/
def decodeCmd (w : Word) : Except DecodeError Instr :=
  match opcodeOf w with
  | 0x00#8 => .ok (.nop (ignoredOf w))
  | 0x01#8 => .ok (.armaxGen (ignoredOf w))
  | 0x02#8 => .ok (.armaxPair (ignoredOf w))
  | 0x03#8 => .ok (.armaxBuf (ignoredOf w))
  | 0x10#8 => .ok (.ar2SeedDefault (ignoredOf w))
  | 0x11#8 => .ok (.ar2SeedKey (ignoredOf w))
  | 0x12#8 => .ok (.ar2Code (ignoredOf w))
  | 0x13#8 => .ok (.ar2Stream (ignoredOf w))
  | 0x20#8 => .ok (.curRead (ignoredOf w))
  | 0x21#8 => .ok (.metadata (ignoredOf w))
  | 0x22#8 => .ok (.verifyLen (ignoredOf w))
  | 0x30#8 => .ok (.decodeCheat (ignoredOf w))
  | op => .error (.reservedOpcode op)

/-- The AR2 control byte (R105): the modes 0 to 7; "Any control value outside 0-7 is a fatal decode error". -/
def decodeControl (c : Byte) : Except DecodeError Ar2Mode :=
  match c with
  | 0x00#8 => .ok .xor
  | 0x01#8 => .ok .nibswapXor
  | 0x02#8 => .ok .add
  | 0x03#8 => .ok .subReversed
  | 0x04#8 => .ok .xorAdd
  | 0x05#8 => .ok .subXor
  | 0x06#8 => .ok .mixedOffset
  | 0x07#8 => .ok .metaMode
  | c => .error (.reservedControl c)

/-- The row of the opcode table that stands for a mode. -/
def Ar2Mode.toInstr : Ar2Mode → Instr
  | .xor => .ar2Mode0Xor
  | .nibswapXor => .ar2Mode1NibswapXor
  | .add => .ar2Mode2Add
  | .subReversed => .ar2Mode3SubReversed
  | .xorAdd => .ar2Mode4XorAdd
  | .subXor => .ar2Mode5SubXor
  | .mixedOffset => .ar2Mode6MixedOffset
  | .metaMode => .ar2Mode7Meta

/-- The decoder of both encoded forms. -/
def decode : Code → Except DecodeError Instr
  | .cmd w => decodeCmd w
  | .control c => (decodeControl c).map Ar2Mode.toInstr

/-- The word of a command: the ignored bits above its OP value (R100). -/
def cmdWord (ignored : BitVec 24) (op : Byte) : Word := ignored ++ op

/-- The encoder: the OP values of R102 and the control values of R105. -/
def encode : Instr → Code
  | .nop ig => .cmd (cmdWord ig 0x00)
  | .armaxGen ig => .cmd (cmdWord ig 0x01)
  | .armaxPair ig => .cmd (cmdWord ig 0x02)
  | .armaxBuf ig => .cmd (cmdWord ig 0x03)
  | .ar2SeedDefault ig => .cmd (cmdWord ig 0x10)
  | .ar2SeedKey ig => .cmd (cmdWord ig 0x11)
  | .ar2Code ig => .cmd (cmdWord ig 0x12)
  | .ar2Stream ig => .cmd (cmdWord ig 0x13)
  | .curRead ig => .cmd (cmdWord ig 0x20)
  | .metadata ig => .cmd (cmdWord ig 0x21)
  | .verifyLen ig => .cmd (cmdWord ig 0x22)
  | .decodeCheat ig => .cmd (cmdWord ig 0x30)
  | .ar2Mode0Xor => .control 0x00
  | .ar2Mode1NibswapXor => .control 0x01
  | .ar2Mode2Add => .control 0x02
  | .ar2Mode3SubReversed => .control 0x03
  | .ar2Mode4XorAdd => .control 0x04
  | .ar2Mode5SubXor => .control 0x05
  | .ar2Mode6MixedOffset => .control 0x06
  | .ar2Mode7Meta => .control 0x07

/-- The encoded form a row of spec/opcode_table.json has. The table's two formats (CMD and AR2_CONTROL) share the
values 0x00 to 0x03 in the low byte; a row of at most 8 bits is read as a control byte where it is one, and as the low
byte of a CMD word otherwise (assumption 4). -/
def codeOfTableWord (nbits w : Nat) : Code :=
  let v := w % 2 ^ nbits
  if nbits ≤ 8 ∧ v ≤ 7 then .control (BitVec.ofNat 8 v) else .cmd (BitVec.ofNat 32 v)

/-- The instruction the decoder reads from a table row's bits. -/
def decodeTableWord (nbits w : Nat) : Option Instr :=
  match decode (codeOfTableWord nbits w) with
  | .ok i => some i
  | .error _ => none

end Sys2Proof
end

