-- ==== Sys2Proof/Machine/Operands.lean ====
section
/-! DEFINITION. The operand forms. Operands are registers, not fields of the command word (R101): the word counts and
the checks commands make on them, the bytes OPC and OPD, and the byte lanes of a word. -/

namespace Sys2Proof.Machine

/-- `WCOUNT > WBUF_DEPTH` (R306). -/
def State.wcountAboveDepth (s : State) : Bool := decide (s.params.wbufDepth < s.wcount.toNat)

/-- `CUR_CNT > WBUF_DEPTH` (R306). -/
def State.curCntAboveDepth (s : State) : Bool := decide (s.params.wbufDepth < s.cur.cnt.toNat)

/-- `WCOUNT mod 2 == 1` (R305(b)). -/
def State.wcountOdd (s : State) : Bool := decide (s.wcount.toNat % 2 = 1)

/-- The bit count `n` of CUR_READ: OPC (R237). -/
def State.readWidth (s : State) : Nat := s.opc.toNat

/-- `lanes(w) = [w[7:0], w[15:8], w[23:16], w[31:24]]` (R195). -/
def lanes (w : Word) : Vector Byte 4 :=
  #v[w.extractLsb' 0 8, w.extractLsb' 8 8, w.extractLsb' 16 8, w.extractLsb' 24 8]

/-- `unlanes(y) = y[3] ++ y[2] ++ y[1] ++ y[0]` (R195). -/
def unlanes (y : Vector Byte 4) : Word := y[3] ++ y[2] ++ y[1] ++ y[0]

/-- Each lane transformed on its own, back into the lane it came from (R195, R196). -/
def mapLanes (f : Fin 4 → Byte → Byte) (w : Word) : Word :=
  let x := lanes w
  unlanes #v[f 0 x[0], f 1 x[1], f 2 x[2], f 3 x[3]]

/-- `nib(b) = b[3:0] ++ b[7:4]` (R196). -/
def nib (b : Byte) : Byte := b.extractLsb' 0 4 ++ b.extractLsb' 4 4

/-- `BSWAP32(x) = x[7:0] ++ x[15:8] ++ x[23:16] ++ x[31:24]` (R9). -/
def bswap32 (x : Word) : Word :=
  x.extractLsb' 0 8 ++ x.extractLsb' 8 8 ++ x.extractLsb' 16 8 ++ x.extractLsb' 24 8

end Sys2Proof.Machine
end

