-- ==== Sys2Proof/Machine/Ar2.lean ====
section
/-! DEFINITION. The AR2 engine: the octet cipher with its eight modes (R194 to R204), the stream decoder (R205 to
R209), the commands AR2_SEED_DEFAULT, AR2_SEED_KEY, AR2_CODE and AR2_STREAM (R210 to R213), and the eight control values
as instructions (assumption 3). -/

namespace Sys2Proof.Machine

/-! ### The eight modes -/

/-- `T(t, i) = AR2_TBL[t][i]` (R193). -/
def tableEntry (p : Params) (t : Fin 4) (i : Fin 32) : Byte := (p.ar2Tbl.get t).get i

/-- The table index a seed names; `decrypt_code` has checked that it is at most 31 (R194). -/
def seedIndex (s : Byte) : Fin 32 := Fin.ofNat 32 s.toNat

/-- `if s > 31: raise SEED_RANGE(s)` (R194, R303). -/
def seeded (s : Byte) (f : Fin 32 → Word) : Except ErrCode Word :=
  if 31 < s.toNat then .error .seedRange else .ok (f (seedIndex s))

/-- Mode 0 (R197): `x ^ T(t0(k), s)`. -/
def decryptMode0 (p : Params) (w : Word) (s : Byte) : Except ErrCode Word :=
  seeded s fun i => mapLanes (fun k x => x ^^^ tableEntry p (p.laneMap.t0.get k) i) w

/-- Mode 1 (R198): `nib(x) ^ T(t1(k), s)`. -/
def decryptMode1 (p : Params) (w : Word) (s : Byte) : Except ErrCode Word :=
  seeded s fun i => mapLanes (fun k x => nib x ^^^ tableEntry p (p.laneMap.t1.get k) i) w

/-- Mode 2 (R199): `x + T(t2(k), s)`. -/
def decryptMode2 (p : Params) (w : Word) (s : Byte) : Except ErrCode Word :=
  seeded s fun i => mapLanes (fun k x => x + tableEntry p (p.laneMap.t2.get k) i) w

/-- Mode 3 (R200): `x - T(t3(k), s)` with `t3(k) = t2(3 - k)`. -/
def decryptMode3 (p : Params) (w : Word) (s : Byte) : Except ErrCode Word :=
  seeded s fun i => mapLanes (fun k x => x - tableEntry p (p.laneMap.t2.get (3 - k)) i) w

/-- Mode 4 (R201): `(x ^ T(a4(k), s)) + T(b4(k), s)`. -/
def decryptMode4 (p : Params) (w : Word) (s : Byte) : Except ErrCode Word :=
  seeded s fun i =>
    mapLanes (fun k x => (x ^^^ tableEntry p (p.laneMap.a4.get k) i) + tableEntry p (p.laneMap.b4.get k) i) w

/-- Mode 5 (R202): `(x - T(a5(k), s)) ^ T(b5(k), s)`. -/
def decryptMode5 (p : Params) (w : Word) (s : Byte) : Except ErrCode Word :=
  seeded s fun i =>
    mapLanes (fun k x => (x - tableEntry p (p.laneMap.a5.get k) i) ^^^ tableEntry p (p.laneMap.b5.get k) i) w

/-- The table index of a lane in mode 6: `(s + d(k)) mod 32` (R203). -/
def offsetIndex (i : Fin 32) (d : Fin 4) : Fin 32 := Fin.ofNat 32 (i.val + d.val)

/-- Mode 6 (R203): `x + T(t6(k), (s + d(k)) mod 32)` or `x - T(...)`, by the lane's sign. -/
def decryptMode6 (p : Params) (w : Word) (s : Byte) : Except ErrCode Word :=
  seeded s fun i =>
    mapLanes (fun k x =>
      let t := tableEntry p (p.laneMap.t6.get k) (offsetIndex i (p.laneMap.d6.get k))
      match p.laneMap.sg6.get k with
      | .add => x + t
      | .sub => x - t) w

/-- Mode 7 (R204): the complement for an even seed, which reads no table; mode 1 for an odd seed. -/
def decryptMode7 (p : Params) (w : Word) (s : Byte) : Except ErrCode Word :=
  if s.getLsbD 0 then decryptMode1 p w s else .ok (~~~w)

/-- The mode of a control value applied to a word (R197 to R204). -/
def Ar2Mode.decrypt (m : Ar2Mode) (p : Params) (w : Word) (s : Byte) : Except ErrCode Word :=
  match m with
  | .xor => decryptMode0 p w s
  | .nibswapXor => decryptMode1 p w s
  | .add => decryptMode2 p w s
  | .subReversed => decryptMode3 p w s
  | .xorAdd => decryptMode4 p w s
  | .subXor => decryptMode5 p w s
  | .mixedOffset => decryptMode6 p w s
  | .metaMode => decryptMode7 p w s

/-- `decrypt_code(w, c, s)`: the control byte is decoded first, the table seed checked after it (R194). -/
def decryptCode (p : Params) (w : Word) (c s : Byte) : Except ErrCode Word :=
  match decodeControl c with
  | .error _ => .error .unsupportedMode
  | .ok m => Ar2Mode.decrypt m p w s

/-! ### The stream decoder -/

/-- `SENTINEL` (R207). -/
def sentinel : Word := 0xDEADFACE

/-- The loop of `ar2_stream` (R206): `n` pairs of words from index `i` on, under the working seed state `wseed`. It
gives the emitted words and the final working seed state. A pair whose address decrypts to the sentinel re-keys and is
not emitted (R207); its value is decrypted with the same seed state as its address. -/
def ar2Pairs (p : Params) (m : Memory) : (n i : Nat) → (wseed : Seed) → Except Stop (List Word × Seed)
  | 0, _, wseed => .ok ([], wseed)
  | n + 1, i, wseed => do
    let x ← m.fetch i
    let a ← raising (decryptCode p x wseed.addrControl wseed.addrSeed)
    let y ← m.fetch (i + 1)
    let v ← raising (decryptCode p y wseed.valControl wseed.valSeed)
    if a = sentinel then ar2Pairs p m n (i + 2) (regenerate v)
    else do
      let (out, final) ← ar2Pairs p m n (i + 2) wseed
      return (a :: v :: out, final)

/-- `ar2_stream(i0, m, o0)` for an even word count `m` (R206): the output packed from `OBUF[o0]` on, OCOUNT, and the
final working seed state written back (R208, R209). -/
def ar2Stream (s : State) (i0 count o0 : Nat) : Except Stop State :=
  (ar2Pairs s.params s.wbuf (count / 2) i0 s.seed).map fun (out, final) =>
    { s with
      obuf := s.obuf.writeWords o0 out
      ocount := BitVec.ofNat 11 (o0 + out.length)
      seed := final }

/-! ### The commands -/

/-- AR2_SEED_DEFAULT (R210). -/
def execAr2SeedDefault (s : State) : Host.Outcome State Fault Refusal :=
  .next ({ s with seed := regenerate s.params.ar2DefaultKey }).succeed

/-- AR2_SEED_KEY (R211). -/
def execAr2SeedKey (s : State) : Host.Outcome State Fault Refusal :=
  .next ({ s with seed := regenerate s.opa }).succeed

/-- `RES0 <- r; STATUS.ERR <- 0`, every error a check fault (R212, R307). -/
def State.concludeRes0 (s : State) (r : Except ErrCode Word) : Host.Outcome State Fault Refusal :=
  s.conclude [] ((raising r).map fun w => { s with res0 := w })

/-- AR2_CODE (R212): the control byte in OPC selects the mode. -/
def execAr2Code (s : State) : Host.Outcome State Fault Refusal :=
  s.concludeRes0 (decryptCode s.params s.opa s.opc s.opd)

/-- AR2_STREAM (R213). -/
def execAr2Stream (s : State) : Host.Outcome State Fault Refusal :=
  s.checked [(s.wcountAboveDepth, .illegalOperand), (s.wcountOdd, .malformedInput)]
    (s.conclude [.obuf, .ocount, .seed] (ar2Stream s 0 s.wcount.toNat 0))

/-! ### The control values as instructions

What AR2_CODE does when OPC holds the control value (R105, R212): RES0 takes the transform of OPA under the table seed
OPD. -/

/-- AR2_MODE0_XOR (R197). -/
def execAr2Mode0 (s : State) : Host.Outcome State Fault Refusal :=
  s.concludeRes0 (decryptMode0 s.params s.opa s.opd)

/-- AR2_MODE1_NIBSWAP_XOR (R198). -/
def execAr2Mode1 (s : State) : Host.Outcome State Fault Refusal :=
  s.concludeRes0 (decryptMode1 s.params s.opa s.opd)

/-- AR2_MODE2_ADD (R199). -/
def execAr2Mode2 (s : State) : Host.Outcome State Fault Refusal :=
  s.concludeRes0 (decryptMode2 s.params s.opa s.opd)

/-- AR2_MODE3_SUB_REVERSED (R200). -/
def execAr2Mode3 (s : State) : Host.Outcome State Fault Refusal :=
  s.concludeRes0 (decryptMode3 s.params s.opa s.opd)

/-- AR2_MODE4_XOR_ADD (R201). -/
def execAr2Mode4 (s : State) : Host.Outcome State Fault Refusal :=
  s.concludeRes0 (decryptMode4 s.params s.opa s.opd)

/-- AR2_MODE5_SUB_XOR (R202). -/
def execAr2Mode5 (s : State) : Host.Outcome State Fault Refusal :=
  s.concludeRes0 (decryptMode5 s.params s.opa s.opd)

/-- AR2_MODE6_MIXED_OFFSET (R203). -/
def execAr2Mode6 (s : State) : Host.Outcome State Fault Refusal :=
  s.concludeRes0 (decryptMode6 s.params s.opa s.opd)

/-- AR2_MODE7_META (R204). -/
def execAr2Mode7 (s : State) : Host.Outcome State Fault Refusal :=
  s.concludeRes0 (decryptMode7 s.params s.opa s.opd)

end Sys2Proof.Machine
end

