-- ==== Sys2Proof/Machine/Armax.lean ====
section
/-! DEFINITION. The ARMAX engine: the seed schedule generator (R131 to R135), the block cipher (R137 to R142), and the
commands ARMAX_GEN, ARMAX_PAIR and ARMAX_BUF (R145 to R147). -/

namespace Sys2Proof.Machine

/-! ### The seed schedule generator -/

/-- Step 1 (R131): bit `i` of `A0`, the sign bit of `0 - m` in wrapping 32-bit arithmetic. -/
def keySlot (i : Nat) : Bool :=
  let t := armaxPC1.getD i 0
  let m : Word := (armaxKey.getD (t >>> 3) 0 &&& byteBit (t &&& 7)).setWidth 32
  (0#32 - m) >>> 31 = 1#32

/-- `A0[0..55]` (R131). -/
def keySlots : List Bool := (List.range 56).map keySlot

/-- Step 2 (R132): the slot of `A0` that slot `j` of round `r` takes, each 28-slot half wrapping within itself. -/
def rotatedSlot (r j : Nat) : Nat :=
  let t := armaxROT.getD r 0 + j
  if j ≤ 27 then (if 0x1B < t then t - 0x1C else t) else (if 0x37 < t then t - 0x1C else t)

/-- `A1[0..55]` of round `r` (R132). -/
def roundSlots (a0 : List Bool) (r : Nat) : List Bool :=
  (List.range 56).map fun j => a0.getD (rotatedSlot r j) false

/-- The bucket of output bit `j`: `((j * 0x2AAB) >> 16) - (j >> 31)` (R133). -/
def sixBitBucket (j : Nat) : Nat := ((j * 0x2AAB) >>> 16) - (j >>> 31)

/-- Step 3 (R133): byte `b` of `A2`, the OR of the weights of the set slots in its bucket. -/
def compressedByte (a1 : List Bool) (b : Nat) : Byte :=
  (List.range 48).foldl
    (fun acc j =>
      if sixBitBucket j = b ∧ a1.getD (armaxPC2.getD j 0) false = true then acc ||| sixBit (j - 6 * b) else acc) 0

/-- Step 4 (R134): `pre[2r]` for `h = 0`, `pre[2r+1]` for `h = 1`. -/
def packedWord (a1 : List Bool) (h : Nat) : Word :=
  compressedByte a1 h ++ compressedByte a1 (h + 2) ++ compressedByte a1 (h + 4) ++ compressedByte a1 (h + 6)

/-- Steps 1 to 4: the word `pre[i]` (R134). -/
def unreversedWord (i : Nat) : Word := packedWord (roundSlots keySlots (i / 2)) (i % 2)

/-- Step 5 (R135): `SCHED[2q] = pre[30 - 2q]` and `SCHED[2q+1] = pre[31 - 2q]`. -/
def generate : Vector Word 32 :=
  Vector.ofFn fun i => unreversedWord (30 - 2 * (i.val / 2) + i.val % 2)

/-! ### The block cipher -/

/-- Unscramble-1 (R138). -/
def unscramble1 (a v : Word) : Word × Word :=
  let v := v.rotateLeft 4
  let t := (a ^^^ v) &&& 0xF0F0F0F0#32
  let a := a ^^^ t
  let v := (v ^^^ t).rotateRight 20
  let t := (a ^^^ v) &&& 0xFFFF0000#32
  let a := a ^^^ t
  let v := (v ^^^ t).rotateRight 18
  let t := (a ^^^ v) &&& 0x33333333#32
  let a := a ^^^ t
  let v := (v ^^^ t).rotateRight 6
  let t := (a ^^^ v) &&& 0x00FF00FF#32
  let a := a ^^^ t
  let v := (v ^^^ t).rotateLeft 9
  let t := (a ^^^ v) &&& 0xAAAAAAAA#32
  ((a ^^^ t).rotateLeft 1, v ^^^ t)

/-- Unscramble-2 (R141). -/
def unscramble2 (a v : Word) : Word × Word :=
  let v := v.rotateRight 1
  let t := (a ^^^ v) &&& 0xAAAAAAAA#32
  let v := v ^^^ t
  let a := (a ^^^ t).rotateRight 9
  let t := (a ^^^ v) &&& 0x00FF00FF#32
  let v := v ^^^ t
  let a := (a ^^^ t).rotateLeft 6
  let t := (a ^^^ v) &&& 0x33333333#32
  let v := v ^^^ t
  let a := (a ^^^ t).rotateLeft 18
  let t := (a ^^^ v) &&& 0xFFFF0000#32
  let v := v ^^^ t
  let a := (a ^^^ t).rotateLeft 20
  let t := (a ^^^ v) &&& 0xF0F0F0F0#32
  let v := v ^^^ t
  ((a ^^^ t).rotateRight 4, v)

/-- The entry of a mixing table that byte `lane` of a word selects: the index is the byte's low 6 bits (R139). -/
def mixEntry (t : List Word) (w : Word) (lane : Nat) : Word := t.getD (w.extractLsb' (8 * lane) 6).toNat 0

/-- `octet_mask(x, y)` (R139). -/
def octetMask (x y : Word) : Word :=
  mixEntry armaxT0 x 3 ^^^ mixEntry armaxT2 x 2 ^^^ mixEntry armaxT4 x 1 ^^^ mixEntry armaxT6 x 0
    ^^^ mixEntry armaxT1 y 3 ^^^ mixEntry armaxT3 y 2 ^^^ mixEntry armaxT5 y 1 ^^^ mixEntry armaxT7 y 0

/-- One half-round: what the half `w` contributes to the other half under two round-key words (R140). -/
def halfRound (w k0 k1 : Word) : Word := octetMask (w.rotateRight 4 ^^^ k0) (w ^^^ k1)

/-- One double round, with the round-key words `4r` to `4r+3`; the second half-round uses the new `a` (R140). -/
def doubleRound (sched : Vector Word 32) (p : Word × Word) (r : Fin 8) : Word × Word :=
  let a := p.1 ^^^ halfRound p.2 sched[4 * r.val] sched[4 * r.val + 1]
  (a, p.2 ^^^ halfRound a sched[4 * r.val + 2] sched[4 * r.val + 3])

/-- The 8 rounds, in index order (R140). -/
def rounds (sched : Vector Word 32) (a v : Word) : Word × Word :=
  [0, 1, 2, 3, 4, 5, 6, 7].foldl (doubleRound sched) (a, v)

/-- `decrypt_pair(addr, val)` (R137 to R142): the roles of the halves swap at the end. -/
def decryptPair (sched : Vector Word 32) (addr val : Word) : Word × Word :=
  let u := unscramble1 (bswap32 addr) (bswap32 val)
  let r := rounds sched u.1 u.2
  let d := unscramble2 r.1 r.2
  (bswap32 d.2, bswap32 d.1)

/-! ### The commands -/

/-- ARMAX_GEN (R145). -/
def execArmaxGen (s : State) : Host.Outcome State Fault Refusal :=
  .next ({ s with sched := generate, schedValid := true }).succeed

/-- ARMAX_PAIR (R146). -/
def execArmaxPair (s : State) : Host.Outcome State Fault Refusal :=
  s.checked [(!s.schedValid, .notReady)]
    (.next
      ({ s with
          res0 := (decryptPair s.sched s.opa s.opb).1
          res1 := (decryptPair s.sched s.opa s.opb).2 }).succeed)

/-- The loop of `armax_buf()` in place: `n` lines from the word index `i` on (R147). -/
def decryptLines (sched : Vector Word 32) : (n i : Nat) → Memory → Except Stop Memory
  | 0, _, m => .ok m
  | n + 1, i, m => do
    let a ← m.fetch i
    let v ← m.fetch (i + 1)
    let p := decryptPair sched a v
    decryptLines sched n (i + 2) ((m.write i p.1).write (i + 1) p.2)

/-- `armax_buf()` after its checks: `WCOUNT / 2` lines of WBUF (R147). -/
def armaxStage (s : State) : Except Stop State :=
  (decryptLines s.sched (s.wcount.toNat / 2) 0 s.wbuf).map fun m => { s with wbuf := m }

/-- The checks of ARMAX_BUF and of DECODE_CHEAT, in the order of R308 (R147, R281). -/
def State.armaxChecks (s : State) : List (Bool × ErrCode) :=
  [(s.wcountAboveDepth, .illegalOperand), (!s.schedValid, .notReady), (s.wcountOdd, .malformedInput)]

/-- ARMAX_BUF (R147). -/
def execArmaxBuf (s : State) : Host.Outcome State Fault Refusal :=
  s.checked s.armaxChecks (s.conclude [] (armaxStage s))

end Sys2Proof.Machine
end

