-- ==== Sys2Proof/Machine/BitCursor.lean ====
section
/-! DEFINITION. The BitCursor (R230 to R236) and the command CUR_READ (R237). -/

namespace Sys2Proof.Machine

/-- The global bit address `g = 32 * word_index + bit_offset` (R231). -/
def Cursor.position (c : Cursor) : Nat := 32 * c.idx.toNat + c.off.toNat

/-- One bit further: at offset 32 the offset becomes 0 and the word index increases (R234). -/
def Cursor.advance (c : Cursor) : Cursor :=
  if c.off = 31#5 then { c with idx := c.idx + 1#11, off := 0#5 } else { c with off := c.off + 1#5 }

/-- Bit `31 - CUR_OFF` of a word (R231). -/
def Cursor.bitOf (c : Cursor) (w : Word) : Bool := w.getLsbD (31 - c.off.toNat)

/-- `r = (r << 1) | bit` (R232). -/
def shiftIn (r : Word) (b : Bool) : Word := (r <<< 1) ||| (if b then 1#32 else 0#32)

/-- The loop of `read_bits`, once its bound is checked (R232). -/
def readLoop (m : Memory) : Nat → Cursor → Word → Except Stop (Word × Cursor)
  | 0, c, r => .ok (r, c)
  | n + 1, c, r =>
    match m.fetch c.idx.toNat with
    | .error e => .error e
    | .ok w => readLoop m n c.advance (shiftIn r (c.bitOf w))

/-- `read_bits(n)` for `n <= 32` (R232): past the end it raises MALFORMED_INPUT before any bit is consumed (R233). -/
def readBits (m : Memory) (n : Nat) (c : Cursor) : Except Stop (Word × Cursor) :=
  if 0 < n ∧ 32 * c.cnt.toNat < c.position + n then .error (.raised .malformedInput) else readLoop m n c 0

/-- CUR_READ (R237). Every fault of it is a check fault (R307). -/
def execCurRead (s : State) : Host.Outcome State Fault Refusal :=
  s.checked [(s.curCntAboveDepth, .illegalOperand), (decide (32 < s.readWidth), .illegalOperand)]
    (s.conclude [] ((readBits s.wbuf s.readWidth s.cur).map fun (r, c) => { s with res0 := r, cur := c }))

end Sys2Proof.Machine
end

