-- ==== Sys2Proof/Machine/Metadata.lean ====
section
/-! DEFINITION. The metadata decoder (R250 to R253) and the verifier length scanner (R254 to R260): META and
VERIFY_LEN, and their stages as DECODE_CHEAT runs them. -/

namespace Sys2Proof.Machine

/-- The metadata fields that are stored (R251); the `unknown` bit is discarded (R252). -/
structure MetaFields where
  game : BitVec 13
  cheat : BitVec 19
  enable : BitVec 1
  region : BitVec 2
  deriving DecidableEq, Repr

/-- `meta_fields()`: five reads with one cursor, in this order (R251). -/
def metaFields (m : Memory) (c : Cursor) : Except Stop (MetaFields × Cursor) := do
  let (game, c) ← readBits m 13 c
  let (cheat, c) ← readBits m 19 c
  let (enable, c) ← readBits m 1 c
  let (_, c) ← readBits m 1 c
  let (region, c) ← readBits m 2 c
  return ({ game := game.setWidth 13, cheat := cheat.setWidth 19, enable := enable.setWidth 1,
            region := region.setWidth 2 }, c)

/-- The start of the metadata: word 0, bit offset 4, `word_count = WCOUNT` (R250). -/
def State.metaStart (s : State) : Cursor := { idx := 0, off := 4, cnt := s.wcount }

/-- `meta()` after its check (R253). -/
def metaStage (s : State) : Except Stop State :=
  (metaFields s.wbuf s.metaStart).map fun (f, c) =>
    { s with cur := c, mdGame := f.game, mdCheat := f.cheat, mdEnable := f.enable, mdRegion := f.region }

/-- META (R253). -/
def execMetadata (s : State) : Host.Outcome State Fault Refusal :=
  s.checked [(s.wcountAboveDepth, .illegalOperand)] (s.conclude [.md, .cursor] (metaStage s))

/-- `VER_WIDTH[0..7]` (R255). -/
def verWidth (sel : BitVec 3) : Nat := [6, 10, 12, 19, 19, 8, 7, 32].getD sel.toNat 0

/-- The loop of `scan()` (R255), entered with a terminator bit to read and `used` bits read so far. Every turn that
goes on reads at least 10 bits (R260), so the bound `fuel` on the turns is never reached (`scanBound`). -/
def scanLoop (m : Memory) : (fuel : Nat) → (used : Nat) → Cursor → Except Stop (Nat × Cursor)
  | 0, _, _ => .error (.raised .malformedInput)
  | fuel + 1, used, c => do
    let (term, c) ← readBits m 1 c
    if term = 0 then
      let (sel, c) ← readBits m 3 c
      let (_, c) ← readBits m (verWidth (sel.setWidth 3)) c
      scanLoop m fuel (used + 4 + verWidth (sel.setWidth 3)) c
    else return (used + 1, c)

/-- A bound on the turns of the scan: there are no more turns than bits (R260). -/
def scanBound (c : Cursor) : Nat := 32 * c.cnt.toNat + 1

/-- `scan()`: the number of bits consumed, counting every bit read (R255, R256), and the final cursor. -/
def scan (m : Memory) (c : Cursor) : Except Stop (Nat × Cursor) := scanLoop m (scanBound c) 0 c

/-- `lines(used)` (R257). -/
def verifierLines (rounding : Rounding) (used : Nat) : Nat :=
  if used ≤ 24 then 1
  else
    match rounding with
    | .floor => 2 + (used - 24) / 64
    | .ceil => 1 + (used - 24 + 63) / 64

/-- The start of the verifier: word 1, bit offset 8, `word_count = WCOUNT` (R254). -/
def State.verifierStart (s : State) : Cursor := { idx := 1, off := 8, cnt := s.wcount }

/-- `verify_len()` after its check (R259). -/
def verifyStage (s : State) : Except Stop State :=
  (scan s.wbuf s.verifierStart).map fun (used, c) =>
    { s with cur := c, verLines := BitVec.ofNat 32 (verifierLines s.params.rounding used) }

/-- VERIFY_LEN (R259). -/
def execVerifyLen (s : State) : Host.Outcome State Fault Refusal :=
  s.checked [(s.wcountAboveDepth, .illegalOperand)] (s.conclude [.verLines, .cursor] (verifyStage s))

end Sys2Proof.Machine
end

