-- ==== Sys2Proof/Machine/Pipeline.lean ====
section
/-! DEFINITION. NOP (R280) and the composite command DECODE_CHEAT (R281). -/

namespace Sys2Proof.Machine

/-- NOP (R280): `STATUS.ERR <- 0`. -/
def execNop (s : State) : Host.Outcome State Fault Refusal := .next s.succeed

/-- `count` words of a buffer from an index on. -/
def Memory.words (m : Memory) : (count i : Nat) → Except Stop (List Word)
  | 0, _ => .ok []
  | n + 1, i => do
    let w ← m.fetch i
    let ws ← Memory.words m n (i + 1)
    return w :: ws

/-- `p = 2 * VER_LINES`, the word offset of the AR2 region (R258). -/
def State.ar2Start (s : State) : Nat := 2 * s.verLines.toNat

/-- Stage 3 of DECODE_CHEAT (R281): the verifier region copied as it is, then the AR2 stream on the remainder, if one
remains. -/
def outputStage (s : State) : Except Stop State := do
  let ws ← s.wbuf.words (min s.ar2Start s.wcount.toNat) 0
  let t := { s with obuf := s.obuf.writeWords 0 ws }
  if s.ar2Start < s.wcount.toNat then ar2Stream t s.ar2Start (s.wcount.toNat - s.ar2Start) s.ar2Start
  else return { t with ocount := s.wcount }

/-- The three stages of DECODE_CHEAT after its checks (R281). -/
def decodeStages (s : State) : Except Stop State := do
  let t ← armaxStage s
  let t ← metaStage t
  let t ← verifyStage t
  outputStage t

/-- The destinations of DECODE_CHEAT (R101). -/
def decodeDests : List Dest := [.wbuf, .md, .verLines, .cursor, .obuf, .ocount, .seed]

/-- DECODE_CHEAT (R281). -/
def execDecodeCheat (s : State) : Host.Outcome State Fault Refusal :=
  s.checked s.armaxChecks (s.conclude decodeDests (decodeStages s))

end Sys2Proof.Machine
end

