-- ==== Sys2Proof/Machine/Dispatch.lean ====
section
/-! DEFINITION. One arm per instruction. -/

namespace Sys2Proof.Machine

/-- The effect of one instruction: a command (R101, R102), or a control value (R105). -/
def exec (i : Instr) (s : State) : Host.Outcome State Fault Refusal :=
  match i with
  | .nop _ => Sys2Proof.Machine.execNop s
  | .armaxGen _ => Sys2Proof.Machine.execArmaxGen s
  | .armaxPair _ => Sys2Proof.Machine.execArmaxPair s
  | .armaxBuf _ => Sys2Proof.Machine.execArmaxBuf s
  | .ar2SeedDefault _ => Sys2Proof.Machine.execAr2SeedDefault s
  | .ar2SeedKey _ => Sys2Proof.Machine.execAr2SeedKey s
  | .ar2Code _ => Sys2Proof.Machine.execAr2Code s
  | .ar2Stream _ => Sys2Proof.Machine.execAr2Stream s
  | .curRead _ => Sys2Proof.Machine.execCurRead s
  | .metadata _ => Sys2Proof.Machine.execMetadata s
  | .verifyLen _ => Sys2Proof.Machine.execVerifyLen s
  | .decodeCheat _ => Sys2Proof.Machine.execDecodeCheat s
  | .ar2Mode0Xor => Sys2Proof.Machine.execAr2Mode0 s
  | .ar2Mode1NibswapXor => Sys2Proof.Machine.execAr2Mode1 s
  | .ar2Mode2Add => Sys2Proof.Machine.execAr2Mode2 s
  | .ar2Mode3SubReversed => Sys2Proof.Machine.execAr2Mode3 s
  | .ar2Mode4XorAdd => Sys2Proof.Machine.execAr2Mode4 s
  | .ar2Mode5SubXor => Sys2Proof.Machine.execAr2Mode5 s
  | .ar2Mode6MixedOffset => Sys2Proof.Machine.execAr2Mode6 s
  | .ar2Mode7Meta => Sys2Proof.Machine.execAr2Mode7 s

end Sys2Proof.Machine
end

