-- ==== Sys2Proof/Machine/Command.lean ====
section
/-! DEFINITION. What one host event does to the core: the write to CMD that issues a command (R30, R34, R100), the other
accesses, and the reset input. Step.lean only takes the next event. -/

namespace Sys2Proof.Machine

/-- A write to CMD executes the command its OP names exactly once (R31, R100); a reserved OP is ILLEGAL_COMMAND, and
nothing but ERR and STICKY changes (R103, R301). -/
def issue (s : State) (w : Word) : Host.Outcome State Fault Refusal :=
  match decodeCmd w with
  | .ok i => exec i s
  | .error _ => .next (s.takeFault .illegalCommand [])

/-- A well-formed access (R71, R79). -/
def perform (s : State) : Access → Host.Outcome State Fault Refusal
  | .read offset _ => .next (s.hostRead offset)
  | .write offset _ v => if s.target offset = .reg .cmd then issue s v else .next (s.hostWrite offset v)

/-- One host event, already taken from the queue. An access that is not well formed has no step (R70). -/
def handle (s : State) : HostEvent → Host.Outcome State Fault Refusal
  | .reset => .next s.platformReset
  | .access a => if a.wellFormed then perform s a else .fault (.stuckAccess a.offset a.size)

/-- Place an encoded instruction where the next step fetches it: a command word in a write to CMD, a control byte in
OPC under a write of AR2_CODE to CMD (R100, R105). -/
def State.withFetchCode (s : State) : Code → State
  | .cmd w => { s with bus := .access (.write 0 4 w) :: s.bus }
  | .control c => { s with bus := .access (.write 0 4 0x12) :: s.bus, opc := c }

end Sys2Proof.Machine
end

