-- ==== Sys2Proof/Machine/Step.lean ====
section
/-! DEFINITION. One step: the next host event takes effect (R82). -/

namespace Sys2Proof.Machine

/-- One step. "The core has no agent of its own that runs between host accesses" (R30): with nothing issued, nothing
changes. Events take effect one at a time, in the order the host issues them (R82). -/
def step (s : State) : Host.Outcome State Fault Refusal :=
  match s.bus with
  | [] => .next s
  | e :: rest => handle { s with bus := rest } e

/-- The opcode-table bits `w` placed where the next step fetches its instruction (assumption 4). -/
def State.withFetchWord (s : State) (nbits w : Nat) : State := s.withFetchCode (codeOfTableWord nbits w)

end Sys2Proof.Machine
end

