-- ==== Sys2Proof/Safety.lean ====
section
/-! DEFINITION. The terms in which claims about runs are stated: which words hold values, the bits of a word sequence,
a verifier header as a list of selectors, the invariant of the machine, and what a safe run is. -/

namespace Sys2Proof.Machine

/-- The `n` words from index `i` on all hold values (R43). -/
def Memory.Holds (m : Memory) (i n : Nat) : Prop := ∀ k, i ≤ k → k < i + n → (m.read k).isSome = true

/-- Bit `g` of the word sequence: bit `31 - (g mod 32)` of word `g div 32` (R231), if that word holds a value. -/
def Memory.bitAt (m : Memory) (g : Nat) : Option Bool := (m.read (g / 32)).map fun w => w.getLsbD (31 - g % 32)

/-- From the global bit `g` on, the words spell a verifier header with these selectors: for each record a 0, the three
selector bits and `VER_WIDTH[sel]` payload bits of any value, and then the stop bit 1 (R110). -/
def SpellsHeader (m : Memory) : Nat → List (BitVec 3) → Prop
  | g, [] => m.bitAt g = some true
  | g, sel :: rest =>
    m.bitAt g = some false
      ∧ m.bitAt (g + 1) = some (sel.getLsbD 2)
      ∧ m.bitAt (g + 2) = some (sel.getLsbD 1)
      ∧ m.bitAt (g + 3) = some (sel.getLsbD 0)
      ∧ SpellsHeader m (g + 4 + verWidth sel) rest

/-- "The bits a header consumes are `1 + Σ (4 + VER_WIDTH[sel_i])` over its records" (R111). -/
def headerBits (sels : List (BitVec 3)) : Nat := 1 + (sels.map fun sel => 4 + verWidth sel).sum

/-- Byte lane `k` of a word: bits `[8k+7:8k]` (R7). -/
def laneOf (w : Word) (k : Fin 4) : Byte := w.extractLsb' (8 * k.val) 8

/-- The 32-bit window at bit `o` of word `i`: the word itself, or its remaining low bits above the next word's high bits
(R236). -/
def windowOf (w next : Word) (o : Nat) : Word := if o = 0 then w else (w <<< o) ||| (next >>> (32 - o))

/-- The registers the host can write, each with the bits of its field (R32, R40, R41, R71, R73). -/
def writableFields : List (Reg × Word) :=
  [(.opa, 0xFFFFFFFF), (.opb, 0xFFFFFFFF), (.opc, 0xFF), (.opd, 0xFF), (.curIdx, 0x7FF), (.curOff, 0x1F),
    (.curCnt, 0x7FF), (.wcount, 0x7FF)]

/-- The OP values of R102; every other value is reserved (R103). -/
def assignedOpcodes : List Byte :=
  [0x00, 0x01, 0x02, 0x03, 0x10, 0x11, 0x12, 0x13, 0x20, 0x21, 0x22, 0x30]

/-- `decrypt_cheat(words, seeds)` as a function of the word sequence: the pairs in order, each under the current seed
state, a sentinel pair dropped and its value the next key (R206, R207). -/
def decryptCheat (p : Params) : List Word → Seed → Except ErrCode (List Word × Seed)
  | x :: y :: rest, sd => do
    let a ← decryptCode p x sd.addrControl sd.addrSeed
    let v ← decryptCode p y sd.valControl sd.valSeed
    if a = sentinel then decryptCheat p rest (regenerate v)
    else do
      let (out, final) ← decryptCheat p rest sd
      return (a :: v :: out, final)
  | _, sd => .ok ([], sd)

/-! ### The rows of R101

Which commands have a resource among their destinations. A control value stands for AR2_CODE (R105). -/

/-- RES0 (R33). -/
def writesRes0 : Instr → Bool
  | .armaxPair _ | .ar2Code _ | .curRead _ => true
  | .ar2Mode0Xor | .ar2Mode1NibswapXor | .ar2Mode2Add | .ar2Mode3SubReversed => true
  | .ar2Mode4XorAdd | .ar2Mode5SubXor | .ar2Mode6MixedOffset | .ar2Mode7Meta => true
  | .nop _ | .armaxGen _ | .armaxBuf _ | .ar2SeedDefault _ | .ar2SeedKey _ | .ar2Stream _ => false
  | .metadata _ | .verifyLen _ | .decodeCheat _ => false

/-- RES1 (R33). -/
def writesRes1 (i : Instr) : Bool := match i with | .armaxPair _ => true | _ => false

/-- SCHED and SCHED_VALID (R36, R38). -/
def writesSched (i : Instr) : Bool := match i with | .armaxGen _ => true | _ => false

/-- SEED (R39). -/
def writesSeed (i : Instr) : Bool :=
  match i with | .ar2SeedDefault _ | .ar2SeedKey _ | .ar2Stream _ | .decodeCheat _ => true | _ => false

/-- The cursor registers (R40). -/
def writesCursor (i : Instr) : Bool :=
  match i with | .curRead _ | .metadata _ | .verifyLen _ | .decodeCheat _ => true | _ => false

/-- CUR_CNT (R101). -/
def writesCurCnt (i : Instr) : Bool :=
  match i with | .metadata _ | .verifyLen _ | .decodeCheat _ => true | _ => false

/-- WBUF (R43). -/
def writesWbuf (i : Instr) : Bool := match i with | .armaxBuf _ | .decodeCheat _ => true | _ => false

/-- OBUF and OCOUNT (R42, R44). -/
def writesObuf (i : Instr) : Bool := match i with | .ar2Stream _ | .decodeCheat _ => true | _ => false

/-- MD_GAME, MD_CHEAT and MD_FLAGS (R45). -/
def writesMeta (i : Instr) : Bool := match i with | .metadata _ | .decodeCheat _ => true | _ => false

/-- VER_LINES (R46). -/
def writesVerLines (i : Instr) : Bool := match i with | .verifyLen _ | .decodeCheat _ => true | _ => false

/-- What holds of the machine between steps: a legal parameter instance (R5, R193 to R203, assumption 1); both buffers in
canonical form (assumption 2) and inside their depth (R43, R44); SCHED the generated schedule whenever SCHED_VALID is 1
(R36, R38); STICKY set whenever ERR tells of a fault (R311); and every OBUF word below OCOUNT holding a value (R42, R77;
after a data fault a free one, assumption 6). -/
structure State.Inv (s : State) : Prop where
  legal : s.params.Legal
  wbufWf : s.wbuf.wf
  wbufBelow : s.wbuf.below s.params.wbufDepth
  obufWf : s.obuf.wf
  obufBelow : s.obuf.below s.params.wbufDepth
  schedule : s.schedValid = true → s.sched = generate
  stickyOfErr : s.err ≠ .ok → s.sticky = true
  obufHolds : ∀ i, i < s.ocount.toNat → i < s.params.wbufDepth → (s.obuf.read i).isSome = true

/-- Every word of WBUF holds a value: what a host establishes by writing the buffer before it issues commands (R333). -/
def State.BufferLoaded (s : State) : Prop := s.wbuf.Holds 0 s.params.wbufDepth

/-- The host issues only accesses that the bus defines (R70), and no reset. -/
def State.HostObeys (s : State) : Prop := ∀ e ∈ s.bus, ∃ a : Access, e = .access a ∧ a.wellFormed = true

/-- `n` steps without a stop. -/
def State.RunsSafely (s : State) (n : Nat) : Prop := ∃ t, Host.Core.run Sys2Proof.core n s = .next t

end Sys2Proof.Machine
end

