-- ==== Sys2Proof/Certificates/Slice0/Obligations.lean ====
section
/-! DEFINITION. The statements for the provers. Each docstring names the rule of spec/ it formalises; a conclusion
written `exec i s = .next { s with … }` gives the whole next state, so every field it does not name is unchanged. -/

open Sys2Proof Sys2Proof.Machine

/-! ### Encoding -/

/-- R100, R102, R105: no bit of an encoding is dropped, in either direction. -/
def Obligations.DecodeAndEncodeAgree : Prop :=
  (∀ i : Instr, decode (encode i) = .ok i) ∧ ∀ (c : Code) (i : Instr), decode c = .ok i → encode i = c

/-- R102, R105: words written out from the encoding tables, one or more of each family. -/
def Obligations.KnownWordsDecode : Prop :=
  decodeCmd 0x00000000 = .ok (.nop 0)
    ∧ decodeCmd 0x00000001 = .ok (.armaxGen 0)
    ∧ decodeCmd 0xABCDEF03 = .ok (.armaxBuf 0xABCDEF)
    ∧ decodeCmd 0x00000012 = .ok (.ar2Code 0)
    ∧ decodeCmd 0xFFFFFF13 = .ok (.ar2Stream 0xFFFFFF)
    ∧ decodeCmd 0x00000020 = .ok (.curRead 0)
    ∧ decodeCmd 0x00000130 = .ok (.decodeCheat 1)
    ∧ decodeCmd 0x00000123 = .error (.reservedOpcode 0x23)
    ∧ decode (.control 0x06) = .ok .ar2Mode6MixedOffset
    ∧ decode (.control 0x08) = .error (.reservedControl 0x08)

/-- R103, R301: a reserved OP value changes ERR and STICKY and nothing else. -/
def Obligations.ReservedOpcodeTakesIllegalCommand : Prop :=
  (∀ (s : State) (w : Word) (rest : List HostEvent),
      s.bus = .access (.write 0 4 w) :: rest → opcodeOf w ∉ assignedOpcodes →
      step s = .next { s with bus := rest, err := .illegalCommand, sticky := true })
    ∧ ((List.range 256).filter fun n => BitVec.ofNat 8 n ∉ assignedOpcodes).length = 244

/-- R100: the bits [31:8] of the word written to CMD have no effect. -/
def Obligations.CmdHighBitsHaveNoEffect : Prop :=
  ∀ (s : State) (w w' : Word) (rest : List HostEvent), opcodeOf w = opcodeOf w' →
    step { s with bus := .access (.write 0 4 w) :: rest } = step { s with bus := .access (.write 0 4 w') :: rest }

/-! ### The step -/

/-- R31, R100: a write to CMD executes the decoded command, on the state without that access. -/
def Obligations.StepRunsDecodedCommand : Prop :=
  ∀ (s : State) (w : Word) (rest : List HostEvent) (i : Instr),
    s.bus = .access (.write 0 4 w) :: rest → decodeCmd w = .ok i → step s = exec i { s with bus := rest }

/-- R105, R212: a write of AR2_CODE to CMD does what the instruction that OPC encodes as a control byte does, which is how
the model runs a control value (assumption 3). -/
def Obligations.StepRunsDecodedControl : Prop :=
  ∀ (s : State) (w : Word) (rest : List HostEvent) (i : Instr),
    s.bus = .access (.write 0 4 w) :: rest → opcodeOf w = 0x12#8 → decode (.control s.opc) = .ok i →
    step s = exec i { s with bus := rest }

/-- The model's own convention (assumption 4): an encoded instruction placed for the next step is what that step runs. -/
def Obligations.StepRunsPlacedInstruction : Prop :=
  ∀ (s : State) (nbits w : Nat) (i : Instr), decodeTableWord nbits w = some i →
    ∃ b : Byte, step (s.withFetchWord nbits w) = exec i { s with opc := b }
      ∧ ((∃ x, codeOfTableWord nbits w = .cmd x) → b = s.opc)

/-- R30: the core has no agent of its own that runs between host accesses; that a step with nothing issued is the same
state is the model's choice (assumption 12). R330: the reset input puts the same core into its state after reset. The model's
own in it: SCHED, which the spec gives no reset value, holds zeros (assumption 5); the reset input is a host event, and
the host's queue and the log of its reads stay over it (assumptions 4 and 11), as does the free-value counter (assumption
6). -/
def Obligations.IdleAndResetSteps : Prop :=
  (∀ s : State, s.bus = [] → step s = .next s)
    ∧ ∀ (s : State) (rest : List HostEvent), s.bus = .reset :: rest →
      step s = .next
        { State.powerOn s.params with bus := rest, readLog := s.readLog, freeCount := s.freeCount }

/-- R70: an access of any other size, or at any other offset, has no step. -/
def Obligations.UndefinedAccessHasNoStep : Prop :=
  ∀ (s : State) (a : Access) (rest : List HostEvent), s.bus = .access a :: rest →
    (a.size ≠ 4 ∨ a.offset % 4 ≠ 0 ∨ 0x4000 ≤ a.offset) → step s = .fault (.stuckAccess a.offset a.size)

/-- R79: "Reads have no side effects", and reading an offset twice gives the same value twice. -/
def Obligations.ReadsHaveNoSideEffects : Prop :=
  ∀ (s : State) (o : Nat) (rest : List HostEvent), o % 4 = 0 → o < 0x4000 →
    s.bus = .access (.read o 4) :: .access (.read o 4) :: rest →
    ∃ (x : Option Word) (t : State),
      step s = .next t ∧ t = { s with bus := .access (.read o 4) :: rest, readLog := s.readLog ++ [x] }
        ∧ step t = .next { s with bus := rest, readLog := s.readLog ++ [x, x] }

/-! ### The address map -/

/-- R71: the offset of every register, SCHED word and buffer slot below the depth names it, and slots at or above the
depth are reserved. -/
def Obligations.AddressMapNamesEachTarget : Prop :=
  ∀ depth : Nat, depth ≤ 1024 →
    (∀ r : Reg, decodeOffset depth (regOffset r) = .reg r)
      ∧ (∀ i : Fin 32, decodeOffset depth (0x100 + 4 * i.val) = .sched i)
      ∧ (∀ i < depth, decodeOffset depth (0x1000 + 4 * i) = .wbuf i)
      ∧ (∀ i < depth, decodeOffset depth (0x2000 + 4 * i) = .obuf i)
      ∧ (∀ i, depth ≤ i → i < 1024 →
          decodeOffset depth (0x1000 + 4 * i) = .reserved ∧ decodeOffset depth (0x2000 + 4 * i) = .reserved)
      ∧ (∀ o, (0x048 ≤ o ∧ o < 0x100 ∨ 0x180 ≤ o ∧ o < 0x1000 ∨ 0x3000 ≤ o ∧ o < 0x4000) →
          decodeOffset depth o = .reserved)

/-- R72, R73: writes to read-only registers and windows and to reserved offsets change nothing; reserved offsets and CMD
read 0. -/
def Obligations.IgnoredWritesAndZeroReads : Prop :=
  (∀ (s : State) (o : Nat) (v : Word) (rest : List HostEvent), o % 4 = 0 → o < 0x4000 →
      s.bus = .access (.write o 4 v) :: rest →
      (s.target o = .reserved ∨ (∃ i, s.target o = .sched i) ∨ (∃ i, s.target o = .obuf i)
        ∨ ∃ r ∈ [Reg.status, .res0, .res1, .ar2seed, .ocount, .mdGame, .mdCheat, .mdFlags, .verLines],
            s.target o = .reg r) →
      step s = .next { s with bus := rest })
    ∧ ∀ (s : State) (o : Nat) (rest : List HostEvent), o % 4 = 0 → o < 0x4000 → s.bus = .access (.read o 4) :: rest →
      (s.target o = .reserved ∨ s.target o = .reg .cmd) →
      step s = .next { s with bus := rest, readLog := s.readLog ++ [some 0] }

/-- R73, R79: a bus write to a writable register stores its field bits and changes nothing else of the core, and the bus
read of it that follows returns them with zeros above. -/
def Obligations.WritableRegistersReadBack : Prop :=
  (∀ (s : State) (r : Reg) (v : Word) (rest : List HostEvent), s.bus = .access (.write (regOffset r) 4 v) :: rest →
      (r = .opa → step s = .next { s with bus := rest, opa := v })
        ∧ (r = .opb → step s = .next { s with bus := rest, opb := v })
        ∧ (r = .opc → step s = .next { s with bus := rest, opc := v.setWidth 8 })
        ∧ (r = .opd → step s = .next { s with bus := rest, opd := v.setWidth 8 })
        ∧ (r = .curIdx → step s = .next { s with bus := rest, cur := { s.cur with idx := v.setWidth 11 } })
        ∧ (r = .curOff → step s = .next { s with bus := rest, cur := { s.cur with off := v.setWidth 5 } })
        ∧ (r = .curCnt → step s = .next { s with bus := rest, cur := { s.cur with cnt := v.setWidth 11 } })
        ∧ (r = .wcount → step s = .next { s with bus := rest, wcount := v.setWidth 11 }))
    ∧ ∀ (s : State) (r : Reg) (field v : Word) (rest : List HostEvent), (r, field) ∈ writableFields →
      s.bus = .access (.write (regOffset r) 4 v) :: .access (.read (regOffset r) 4) :: rest →
      ∃ t, step s = .next t
        ∧ step t = .next { t with bus := rest, readLog := s.readLog ++ [some (v &&& field)] }

/-- R76: a host write of `WBUF[i]` is what a read of it returns from then on, and no other word of WBUF and nothing else
of the core changes. -/
def Obligations.WbufWriteStoresOneWord : Prop :=
  ∀ (s : State) (i : Nat) (v : Word) (rest : List HostEvent), i < s.params.wbufDepth → i < 1024 →
    s.bus = .access (.write (0x1000 + 4 * i) 4 v) :: rest →
    ∃ m : Memory, step s = .next { s with bus := rest, wbuf := m } ∧ m.read i = some v
      ∧ ∀ k, k ≠ i → m.read k = s.wbuf.read k

/-- R76, R77, R78, R43: the words of the OBUF, SCHED and WBUF windows, and which of them the spec gives no value. That a
host read of such a place completes and logs `none` is the model's reading (assumption 8). -/
def Obligations.WindowReads : Prop :=
  ∀ (s : State) (o : Nat) (rest : List HostEvent), s.bus = .access (.read o 4) :: rest →
    (∀ i, o = 0x2000 + 4 * i → i < s.params.wbufDepth → i < 1024 →
        step s = .next
          { s with bus := rest, readLog := s.readLog ++ [if i < s.ocount.toNat then s.obuf.read i else none] })
      ∧ (∀ i : Fin 32, o = 0x100 + 4 * i.val →
        step s = .next
          { s with bus := rest, readLog := s.readLog ++ [if s.schedValid then some (s.sched.get i) else none] })
      ∧ ∀ i, o = 0x1000 + 4 * i → i < s.params.wbufDepth → i < 1024 →
        step s = .next { s with bus := rest, readLog := s.readLog ++ [s.wbuf.read i] }

/-- R35, R39, R45, R73, R253, R300: a bus read of a register returns its word and changes nothing of the core; the fields
of every word read, zeros above and between them, and the numeric error codes. -/
def Obligations.RegisterReadsShowTheirFields : Prop :=
  (∀ (s : State) (r : Reg) (rest : List HostEvent), s.bus = .access (.read (regOffset r) 4) :: rest →
      step s = .next { s with bus := rest, readLog := s.readLog ++ [some (s.readReg r)] })
    ∧ (∀ s : State,
      (s.readReg .status).extractLsb' 0 4 = s.err.code
        ∧ (s.readReg .status).extractLsb' 4 4 = 0
        ∧ (s.readReg .status).getLsbD 8 = s.schedValid
        ∧ (s.readReg .status).extractLsb' 9 7 = 0
        ∧ (s.readReg .status).getLsbD 16 = s.sticky
        ∧ (s.readReg .status).extractLsb' 17 15 = 0)
    ∧ ([ErrCode.ok, .malformedInput, .unsupportedMode, .seedRange, .notReady, .illegalCommand, .illegalOperand].map
        ErrCode.code = [0, 1, 2, 3, 4, 5, 6] ∧ ∀ e : ErrCode, e.code.toNat ≤ 6)
    ∧ (∀ s : State,
      (s.readReg .mdFlags).extractLsb' 0 1 = s.mdEnable
        ∧ (s.readReg .mdFlags).extractLsb' 1 2 = s.mdRegion
        ∧ (s.readReg .mdFlags).extractLsb' 3 29 = 0
        ∧ (s.readReg .mdGame).extractLsb' 0 13 = s.mdGame ∧ (s.readReg .mdGame).extractLsb' 13 19 = 0
        ∧ (s.readReg .mdCheat).extractLsb' 0 19 = s.mdCheat ∧ (s.readReg .mdCheat).extractLsb' 19 13 = 0
        ∧ (s.readReg .ocount).extractLsb' 0 11 = s.ocount ∧ (s.readReg .ocount).extractLsb' 11 21 = 0)
    ∧ ∀ s : State,
      s.readReg .opa = s.opa ∧ s.readReg .opb = s.opb ∧ s.readReg .res0 = s.res0 ∧ s.readReg .res1 = s.res1
        ∧ s.readReg .verLines = s.verLines
        ∧ s.readReg .ar2seed = s.seed.addrControl ++ s.seed.addrSeed ++ s.seed.valControl ++ s.seed.valSeed
        ∧ (s.readReg .opc).toNat = s.opc.toNat ∧ (s.readReg .opd).toNat = s.opd.toNat
        ∧ (s.readReg .curIdx).toNat = s.cur.idx.toNat ∧ (s.readReg .curOff).toNat = s.cur.off.toNat
        ∧ (s.readReg .curCnt).toNat = s.cur.cnt.toNat ∧ (s.readReg .wcount).toNat = s.wcount.toNat

/-! ### NOP and the ARMAX engine -/

/-- R280. -/
def Obligations.NopOnlyClearsErr : Prop :=
  (∀ w : Word, opcodeOf w = 0x00#8 → decodeCmd w = .ok (.nop (ignoredOf w)))
    ∧ ∀ (ig : BitVec 24) (s : State), exec (.nop ig) s = .next { s with err := .ok }

/-- R183: the schedule that `generate` computes, and which round each pair of words comes from. -/
def Obligations.GeneratedScheduleIsThePrintedTable : Prop :=
  generate =
      #v[0x21323E26, 0x3105192B, 0x0E243331, 0x2F0C2F17, 0x132B0F33, 0x2402182B, 0x25111D1F, 0x39181F36,
        0x130A2B29, 0x03392B1E, 0x2A3C3D35, 0x3010122B, 0x29001D0A, 0x26273F32, 0x09252E2D, 0x083A071F,
        0x35390512, 0x14203F37, 0x28130A2F, 0x03311D1F, 0x002C3F33, 0x132E323C, 0x2A281138, 0x0C051B37,
        0x34052C27, 0x202E1D3A, 0x07121F2D, 0x0D28333C, 0x160B3138, 0x3214273B, 0x02150B1F, 0x020B3E3C]
    ∧ ∀ q : Fin 16, generate[2 * q.val] = packedWord (roundSlots keySlots (15 - q.val)) 0
        ∧ generate[2 * q.val + 1] = packedWord (roundSlots keySlots (15 - q.val)) 1

/-- R145: ARMAX_GEN loads the schedule and sets SCHED_VALID; running it again changes nothing more. -/
def Obligations.ArmaxGenLoadsTheSchedule : Prop :=
  (∀ w : Word, opcodeOf w = 0x01#8 → decodeCmd w = .ok (.armaxGen (ignoredOf w)))
    ∧ ∀ (ig : BitVec 24) (s : State),
      exec (.armaxGen ig) s = .next { s with sched := generate, schedValid := true, err := .ok }
        ∧ exec (.armaxGen ig) { s with sched := generate, schedValid := true, err := .ok } =
          .next { s with sched := generate, schedValid := true, err := .ok }

/-- R139: the upper 2 bits of each byte of both arguments of the mixing function are not read. -/
def Obligations.OctetMaskReadsSixBitsOfEachByte : Prop :=
  ∀ x y : Word, octetMask x y = octetMask (x &&& 0x3F3F3F3F#32) (y &&& 0x3F3F3F3F#32)

/-- R143: un2 inverts un1 up to a swap of the halves. -/
def Obligations.UnscramblesMirrorEachOther : Prop :=
  (∀ a v : Word, unscramble2 (unscramble1 a v).2 (unscramble1 a v).1 = (v, a))
    ∧ (∃ a v : Word, unscramble2 (unscramble1 a v).1 (unscramble1 a v).2 ≠ (a, v))
    ∧ unscramble1 1 0 = (0x00000010, 0)

/-- R137 to R143: under every schedule, `decrypt_pair` loses no information. -/
def Obligations.DecryptPairIsInjective : Prop :=
  ∀ (sched : Vector Word 32) (a v a' v' : Word),
    decryptPair sched a v = decryptPair sched a' v' → a = a' ∧ v = v'

/-- R146: ARMAX_PAIR writes RES0 and RES1, or NOT_READY and nothing else. -/
def Obligations.ArmaxPairDecryptsOperands : Prop :=
  (∀ w : Word, opcodeOf w = 0x02#8 → decodeCmd w = .ok (.armaxPair (ignoredOf w)))
    ∧ ∀ (ig : BitVec 24) (s : State),
      (s.schedValid = true →
          exec (.armaxPair ig) s = .next
            { s with
              res0 := (decryptPair s.sched s.opa s.opb).1
              res1 := (decryptPair s.sched s.opa s.opb).2
              err := .ok })
        ∧ (s.schedValid = false → exec (.armaxPair ig) s = .next { s with err := .notReady, sticky := true })

/-- R147: ARMAX_BUF replaces every line of `WBUF[0..WCOUNT-1]` by its decryption and changes no other word and no other
state, when the schedule is valid, WCOUNT is even and within the depth, and the words hold values. -/
def Obligations.ArmaxBufDecryptsEveryLine : Prop :=
  ∀ (ig : BitVec 24) (s : State),
    s.wcount.toNat ≤ s.params.wbufDepth → s.schedValid = true → s.wcount.toNat % 2 = 0 →
    s.wbuf.Holds 0 s.wcount.toNat →
    ∃ m : Memory, exec (.armaxBuf ig) s = .next { s with wbuf := m, err := .ok }
      ∧ (∀ k a v, 2 * k + 1 < s.wcount.toNat → s.wbuf.read (2 * k) = some a → s.wbuf.read (2 * k + 1) = some v →
          m.read (2 * k) = some (decryptPair s.sched a v).1 ∧ m.read (2 * k + 1) = some (decryptPair s.sched a v).2)
      ∧ ∀ k, s.wcount.toNat ≤ k → m.read k = s.wbuf.read k

/-- R147, R281, R304, R305(b), R306, R308: the check faults of ARMAX_BUF and DECODE_CHEAT, in their order; each changes
ERR and STICKY only. -/
def Obligations.ArmaxChecksInOrder : Prop :=
  ∀ (ig : BitVec 24) (i : Instr) (s : State), i = .armaxBuf ig ∨ i = .decodeCheat ig →
    (s.params.wbufDepth < s.wcount.toNat → exec i s = .next { s with err := .illegalOperand, sticky := true })
      ∧ (s.wcount.toNat ≤ s.params.wbufDepth → s.schedValid = false →
          exec i s = .next { s with err := .notReady, sticky := true })
      ∧ (s.wcount.toNat ≤ s.params.wbufDepth → s.schedValid = true → s.wcount.toNat % 2 = 1 →
          exec i s = .next { s with err := .malformedInput, sticky := true })

/-- R43: a command that reads a WBUF word that holds no value has no modelled result; here ARMAX_BUF, which reads all of
`WBUF[0..WCOUNT-1]`. -/
def Obligations.UnwrittenWordStopsArmaxBuf : Prop :=
  ∀ (ig : BitVec 24) (s : State) (k : Nat),
    s.wcount.toNat ≤ s.params.wbufDepth → s.schedValid = true → s.wcount.toNat % 2 = 0 →
    k < s.wcount.toNat → s.wbuf.read k = none →
    ∃ j, exec (.armaxBuf ig) s = .fault (.wbufNoValue j) ∧ j < s.wcount.toNat ∧ s.wbuf.read j = none

/-! ### The AR2 engine -/

/-- R191, R107, R210, R211: the seed commands load SEED with the four bytes of the key, most significant first, and
AR2SEED reads the key afterwards. -/
def Obligations.SeedCommandsLoadTheKey : Prop :=
  (∀ w : Word, opcodeOf w = 0x10#8 → decodeCmd w = .ok (.ar2SeedDefault (ignoredOf w)))
    ∧ (∀ w : Word, opcodeOf w = 0x11#8 → decodeCmd w = .ok (.ar2SeedKey (ignoredOf w)))
    ∧ ∀ (ig : BitVec 24) (s : State),
      (∃ sd, exec (.ar2SeedDefault ig) s = .next { s with seed := sd, err := .ok }
          ∧ (s.params.ar2DefaultKey.extractLsb' 24 8, s.params.ar2DefaultKey.extractLsb' 16 8,
              s.params.ar2DefaultKey.extractLsb' 8 8, s.params.ar2DefaultKey.extractLsb' 0 8) =
            (sd.addrControl, sd.addrSeed, sd.valControl, sd.valSeed)
          ∧ { s with seed := sd }.readReg .ar2seed = s.params.ar2DefaultKey)
        ∧ ∃ sd, exec (.ar2SeedKey ig) s = .next { s with seed := sd, err := .ok }
          ∧ (s.opa.extractLsb' 24 8, s.opa.extractLsb' 16 8, s.opa.extractLsb' 8 8, s.opa.extractLsb' 0 8) =
            (sd.addrControl, sd.addrSeed, sd.valControl, sd.valSeed)
          ∧ { s with seed := sd }.readReg .ar2seed = s.opa

/-- R194, R204, R302, R303: which control bytes and table seeds `decrypt_code` accepts, in the order of its checks. -/
def Obligations.DecryptCodeAcceptsAndRejects : Prop :=
  ∀ (p : Params) (w : Word) (c s : Byte),
    (7 < c.toNat → decryptCode p w c s = .error .unsupportedMode)
      ∧ (c = 7#8 → s.toNat % 2 = 0 → decryptCode p w c s = .ok (~~~w))
      ∧ (c = 7#8 → s.toNat % 2 = 1 → decryptCode p w c s = decryptCode p w 1#8 s)
      ∧ (c.toNat < 7 → 31 < s.toNat → decryptCode p w c s = .error .seedRange)
      ∧ (c.toNat < 7 → s.toNat ≤ 31 → ∃ x, decryptCode p w c s = .ok x)

/-- R212: AR2_CODE completes when the control byte is a mode and the table seed is in its range, and otherwise changes
ERR and STICKY only. -/
def Obligations.Ar2CodeDecryptsOneWord : Prop :=
  (∀ w : Word, opcodeOf w = 0x12#8 → decodeCmd w = .ok (.ar2Code (ignoredOf w)))
    ∧ ∀ (ig : BitVec 24) (s : State),
      (s.opc.toNat ≤ 7 → (s.opd.toNat ≤ 31 ∨ s.opc = 7#8 ∧ s.opd.toNat % 2 = 0) →
          ∃ w, decryptCode s.params s.opa s.opc s.opd = .ok w
            ∧ exec (.ar2Code ig) s = .next { s with res0 := w, err := .ok })
        ∧ (7 < s.opc.toNat → exec (.ar2Code ig) s = .next { s with err := .unsupportedMode, sticky := true })
        ∧ (s.opc.toNat ≤ 7 → 31 < s.opd.toNat → ¬ (s.opc = 7#8 ∧ s.opd.toNat % 2 = 0) →
          exec (.ar2Code ig) s = .next { s with err := .seedRange, sticky := true })

/-- R197, R198: modes 0 and 1 on every lane, with the table the lane map gives the lane, at the table seed. That a control
value is run as an instruction of its own is the model's choice (assumption 3), here and in the next four statements. -/
def Obligations.XorModesActOnEachLane : Prop :=
  decode (.control 0x00) = .ok .ar2Mode0Xor ∧ decode (.control 0x01) = .ok .ar2Mode1NibswapXor
    ∧ ∀ (s : State) (h : s.opd.toNat < 32),
      (∃ w, exec .ar2Mode0Xor s = .next { s with res0 := w, err := .ok }
          ∧ decryptCode s.params s.opa 0#8 s.opd = .ok w
          ∧ ∀ k, laneOf w k =
            laneOf s.opa k ^^^ (s.params.ar2Tbl.get (s.params.laneMap.t0.get k)).get ⟨s.opd.toNat, h⟩)
        ∧ ∃ w, exec .ar2Mode1NibswapXor s = .next { s with res0 := w, err := .ok }
          ∧ decryptCode s.params s.opa 1#8 s.opd = .ok w
          ∧ ∀ k, laneOf w k =
            (laneOf s.opa k).rotateLeft 4 ^^^ (s.params.ar2Tbl.get (s.params.laneMap.t1.get k)).get ⟨s.opd.toNat, h⟩

/-- R199, R200: modes 2 and 3 on every lane; mode 3 takes the table that mode 2 gives the mirror lane. -/
def Obligations.AddAndSubModesActOnEachLane : Prop :=
  decode (.control 0x02) = .ok .ar2Mode2Add ∧ decode (.control 0x03) = .ok .ar2Mode3SubReversed
    ∧ ∀ (s : State) (h : s.opd.toNat < 32),
      (∃ w, exec .ar2Mode2Add s = .next { s with res0 := w, err := .ok }
          ∧ decryptCode s.params s.opa 2#8 s.opd = .ok w
          ∧ ∀ k, laneOf w k =
            laneOf s.opa k + (s.params.ar2Tbl.get (s.params.laneMap.t2.get k)).get ⟨s.opd.toNat, h⟩)
        ∧ ∃ w, exec .ar2Mode3SubReversed s = .next { s with res0 := w, err := .ok }
          ∧ decryptCode s.params s.opa 3#8 s.opd = .ok w
          ∧ ∀ k j : Fin 4, k.val + j.val = 3 → laneOf w k =
            laneOf s.opa k - (s.params.ar2Tbl.get (s.params.laneMap.t2.get j)).get ⟨s.opd.toNat, h⟩

/-- R201, R202: modes 4 and 5 on every lane, with their two tables. -/
def Obligations.CombinedModesActOnEachLane : Prop :=
  decode (.control 0x04) = .ok .ar2Mode4XorAdd ∧ decode (.control 0x05) = .ok .ar2Mode5SubXor
    ∧ ∀ (s : State) (h : s.opd.toNat < 32),
      (∃ w, exec .ar2Mode4XorAdd s = .next { s with res0 := w, err := .ok }
          ∧ decryptCode s.params s.opa 4#8 s.opd = .ok w
          ∧ ∀ k, laneOf w k =
            (laneOf s.opa k ^^^ (s.params.ar2Tbl.get (s.params.laneMap.a4.get k)).get ⟨s.opd.toNat, h⟩)
              + (s.params.ar2Tbl.get (s.params.laneMap.b4.get k)).get ⟨s.opd.toNat, h⟩)
        ∧ ∃ w, exec .ar2Mode5SubXor s = .next { s with res0 := w, err := .ok }
          ∧ decryptCode s.params s.opa 5#8 s.opd = .ok w
          ∧ ∀ k, laneOf w k =
            (laneOf s.opa k - (s.params.ar2Tbl.get (s.params.laneMap.a5.get k)).get ⟨s.opd.toNat, h⟩)
              ^^^ (s.params.ar2Tbl.get (s.params.laneMap.b5.get k)).get ⟨s.opd.toNat, h⟩

/-- R203: mode 6 on every lane, the table seed offset by the lane's `d` modulo 32. -/
def Obligations.OffsetModeActsOnEachLane : Prop :=
  decode (.control 0x06) = .ok .ar2Mode6MixedOffset
    ∧ ∀ s : State, s.opd.toNat < 32 →
      ∃ w, exec .ar2Mode6MixedOffset s = .next { s with res0 := w, err := .ok }
        ∧ decryptCode s.params s.opa 6#8 s.opd = .ok w
        ∧ ∀ (k : Fin 4) (i : Fin 32), i.val = (s.opd.toNat + (s.params.laneMap.d6.get k).val) % 32 →
          (s.params.laneMap.sg6.get k = .add →
              laneOf w k = laneOf s.opa k + (s.params.ar2Tbl.get (s.params.laneMap.t6.get k)).get i)
            ∧ (s.params.laneMap.sg6.get k = .sub →
              laneOf w k = laneOf s.opa k - (s.params.ar2Tbl.get (s.params.laneMap.t6.get k)).get i)

/-- R204: mode 7 complements under an even seed, whatever its size, and is mode 1 under an odd one. -/
def Obligations.MetaModeComplementsOrIsModeOne : Prop :=
  decode (.control 0x07) = .ok .ar2Mode7Meta
    ∧ ∀ s : State,
      (s.opd.toNat % 2 = 0 → exec .ar2Mode7Meta s = .next { s with res0 := ~~~s.opa, err := .ok }
          ∧ decryptCode s.params s.opa 7#8 s.opd = .ok (~~~s.opa))
        ∧ (s.opd.toNat % 2 = 1 → exec .ar2Mode7Meta s = exec .ar2Mode1NibswapXor s)

/-- R194, R303: a table seed above 31 stops every mode that reads a table, with ERR and STICKY the only changes. -/
def Obligations.TableSeedAboveRangeFaults : Prop :=
  ∀ (s : State) (i : Instr), 31 < s.opd.toNat →
    (i ∈ [Instr.ar2Mode0Xor, .ar2Mode1NibswapXor, .ar2Mode2Add, .ar2Mode3SubReversed, .ar2Mode4XorAdd,
        .ar2Mode5SubXor, .ar2Mode6MixedOffset]
      ∨ i = .ar2Mode7Meta ∧ s.opd.toNat % 2 = 1) →
    exec i s = .next { s with err := .seedRange, sticky := true }

/-- R214(c), R214(d): for a fixed seed, `decrypt_code` in every mode is a bijection on words, and mode 0, and mode 7 with
an even seed, undo themselves. -/
def Obligations.DecryptCodeIsABijection : Prop :=
  ∀ (p : Params) (c s : Byte), (∃ w x, decryptCode p w c s = .ok x) →
    (∀ x, ∃ w, decryptCode p w c s = .ok x ∧ ∀ w', decryptCode p w' c s = .ok x → w' = w)
      ∧ ((c = 0#8 ∨ c = 7#8 ∧ s.toNat % 2 = 0) → ∀ w x, decryptCode p w c s = .ok x → decryptCode p x c s = .ok w)

/-- R206, R208, R209, R213: AR2_STREAM computes `decrypt_cheat(words, seeds)`: OBUF takes the emitted words from index 0,
OCOUNT their number, SEED the final seed state; an error of it is a data fault (R307), whose destinations take free values
in the model (assumption 6). -/
def Obligations.Ar2StreamRefinesDecryptCheat : Prop :=
  ∀ (ig : BitVec 24) (s : State) (ws : List Word),
    s.wcount.toNat ≤ s.params.wbufDepth → s.wcount.toNat % 2 = 0 →
    ws.length = s.wcount.toNat → (∀ k < ws.length, s.wbuf.read k = ws[k]?) →
    (∀ out sd, decryptCheat s.params ws s.seed = .ok (out, sd) →
        ∃ m : Memory,
          exec (.ar2Stream ig) s = .next
              { s with obuf := m, ocount := BitVec.ofNat 11 out.length, seed := sd, err := .ok }
            ∧ out.length ≤ s.wcount.toNat
            ∧ (∀ k < out.length, m.read k = out[k]?) ∧ ∀ k, out.length ≤ k → m.read k = s.obuf.read k)
      ∧ ∀ e, decryptCheat s.params ws s.seed = .error e →
        ∃ t, exec (.ar2Stream ig) s = .next t
          ∧ t = { s with
              obuf := t.obuf, ocount := t.ocount, seed := t.seed, freeCount := t.freeCount
              err := e, sticky := true }

/-- R213, R305(b), R306, R308: the check faults of AR2_STREAM, in their order; each changes ERR and STICKY only. -/
def Obligations.StreamChecksInOrder : Prop :=
  (∀ w : Word, opcodeOf w = 0x13#8 → decodeCmd w = .ok (.ar2Stream (ignoredOf w)))
    ∧ ∀ (ig : BitVec 24) (s : State),
      (s.params.wbufDepth < s.wcount.toNat →
          exec (.ar2Stream ig) s = .next { s with err := .illegalOperand, sticky := true })
        ∧ (s.wcount.toNat ≤ s.params.wbufDepth → s.wcount.toNat % 2 = 1 →
          exec (.ar2Stream ig) s = .next { s with err := .malformedInput, sticky := true })

/-- R194, R205, R206, R213: where `decrypt_code` gives every word of WBUF below WCOUNT a value under the seed state of its
place, in whatever mode, and no address decrypts to the sentinel, AR2_STREAM completes: OBUF takes these values in place
order, OCOUNT is WCOUNT, and SEED is kept. -/
def Obligations.Ar2StreamWithoutRekey : Prop :=
  ∀ (ig : BitVec 24) (s : State) (a v : Nat → Word),
    s.wcount.toNat ≤ s.params.wbufDepth → s.wcount.toNat % 2 = 0 →
    (∀ k, 2 * k < s.wcount.toNat → ∃ x y,
      s.wbuf.read (2 * k) = some x ∧ decryptCode s.params x s.seed.addrControl s.seed.addrSeed = .ok (a k)
        ∧ s.wbuf.read (2 * k + 1) = some y ∧ decryptCode s.params y s.seed.valControl s.seed.valSeed = .ok (v k)
        ∧ a k ≠ sentinel) →
    ∃ m : Memory, exec (.ar2Stream ig) s = .next { s with obuf := m, ocount := s.wcount, err := .ok }
      ∧ (∀ k, 2 * k < s.wcount.toNat → m.read (2 * k) = some (a k) ∧ m.read (2 * k + 1) = some (v k))
      ∧ ∀ k, s.wcount.toNat ≤ k → m.read k = s.obuf.read k

/-- R207: a sentinel pair is absent from the output, and everything after it is decoded with the seed state regenerated
from its value. -/
def Obligations.SentinelPairRekeysTheRest : Prop :=
  ∀ (p : Params) (before after out : List Word) (x y v : Word) (sd mid : Seed),
    before.length % 2 = 0 → decryptCheat p before sd = .ok (out, mid) →
    decryptCode p x mid.addrControl mid.addrSeed = .ok sentinel →
    decryptCode p y mid.valControl mid.valSeed = .ok v →
    decryptCheat p (before ++ x :: y :: after) sd =
      (decryptCheat p after (regenerate v)).map fun (o, f) => (out ++ o, f)

/-- R208, R214(f), R214(g): after a stream, OCOUNT is even and at most WCOUNT, and no emitted address is the sentinel. -/
def Obligations.StreamOutputIsPaired : Prop :=
  ∀ (ig : BitVec 24) (s t : State), exec (.ar2Stream ig) s = .next t → t.err = .ok →
    t.ocount.toNat % 2 = 0 ∧ t.ocount.toNat ≤ s.wcount.toNat
      ∧ ∀ k, 2 * k < t.ocount.toNat → t.obuf.read (2 * k) ≠ some sentinel

/-! ### The BitCursor -/

/-- R232, R233, R234, R235, R237: CUR_READ of `n` bits that fit returns them MSB-first, zeros above, and moves the cursor
by exactly `n`; CUR_CNT is not written. -/
def Obligations.CurReadReturnsTheNextBits : Prop :=
  ∀ (ig : BitVec 24) (s : State),
    s.cur.cnt.toNat ≤ s.params.wbufDepth → s.opc.toNat ≤ 32 →
    (s.opc.toNat = 0 ∨ s.cur.position + s.opc.toNat ≤ 32 * s.cur.cnt.toNat) →
    (∀ g, s.cur.position ≤ g → g < s.cur.position + s.opc.toNat → (s.wbuf.read (g / 32)).isSome = true) →
    ∃ (r : Word) (c : Cursor), exec (.curRead ig) s = .next { s with res0 := r, cur := c, err := .ok }
      ∧ c.position = s.cur.position + s.opc.toNat ∧ c.cnt = s.cur.cnt
      ∧ (∀ j < s.opc.toNat, s.wbuf.bitAt (s.cur.position + j) = some (r.getLsbD (s.opc.toNat - 1 - j)))
      ∧ ∀ j, s.opc.toNat ≤ j → r.getLsbD j = false

/-- R237, R233, R235, R306: the faults of CUR_READ in their order; each changes ERR and STICKY only, so RES0 and the
cursor keep their values. -/
def Obligations.CurReadFaultsKeepTheCursor : Prop :=
  ∀ (ig : BitVec 24) (s : State),
    (s.params.wbufDepth < s.cur.cnt.toNat ∨ 32 < s.opc.toNat →
        exec (.curRead ig) s = .next { s with err := .illegalOperand, sticky := true })
      ∧ (s.cur.cnt.toNat ≤ s.params.wbufDepth → s.opc.toNat ≤ 32 → 0 < s.opc.toNat →
          32 * s.cur.cnt.toNat < s.cur.position + s.opc.toNat →
          exec (.curRead ig) s = .next { s with err := .malformedInput, sticky := true })

/-- R236: a read equals the high bits of the 32-bit window at its position. -/
def Obligations.ReadEqualsWindow : Prop :=
  ∀ (m : Memory) (n : Nat) (c : Cursor) (w next : Word), 1 ≤ n → n ≤ 32 →
    c.position + n ≤ 32 * c.cnt.toNat →
    m.read c.idx.toNat = some w → (m.read (c.idx.toNat + 1) = some next ∨ c.off.toNat + n ≤ 32) →
    ∃ d, readBits m n c = .ok (windowOf w next c.off.toNat >>> (32 - n), d)

/-- R238(d): two reads give the bits of the one read of their sum. -/
def Obligations.SplitReadsCompose : Prop :=
  ∀ (m : Memory) (n₁ n₂ : Nat) (c c₁ c₂ : Cursor) (r₁ r₂ : Word), n₁ + n₂ ≤ 32 →
    readBits m n₁ c = .ok (r₁, c₁) → readBits m n₂ c₁ = .ok (r₂, c₂) →
    readBits m (n₁ + n₂) c = .ok ((r₁ <<< n₂) ||| r₂, c₂)

/-! ### Metadata and verifier -/

/-- R108, R250 to R253: the fields META stores, at their places in the first two words, and the cursor it leaves. -/
def Obligations.MetaStoresTheFields : Prop :=
  ∀ (ig : BitVec 24) (s : State) (w₀ w₁ : Word),
    s.wcount.toNat ≤ s.params.wbufDepth → 2 ≤ s.wcount.toNat →
    s.wbuf.read 0 = some w₀ → s.wbuf.read 1 = some w₁ →
    exec (.metadata ig) s = .next
      { s with
        mdGame := w₀.extractLsb' 15 13
        mdCheat := w₀.extractLsb' 0 15 ++ w₁.extractLsb' 28 4
        mdEnable := w₁.extractLsb' 27 1
        mdRegion := w₁.extractLsb' 24 2
        cur := { idx := 1, off := 8, cnt := s.wcount }
        err := .ok }

/-- R253, R259, R305(a), R307: META and VERIFY_LEN on a sequence of fewer than two words fault MALFORMED_INPUT, and only
their own destinations lose their values (in the model they take free ones, assumption 6); a count above the depth is a
check fault. -/
def Obligations.ShortCheatFaults : Prop :=
  ∀ (ig : BitVec 24) (s : State),
    (s.params.wbufDepth < s.wcount.toNat →
        exec (.metadata ig) s = .next { s with err := .illegalOperand, sticky := true }
          ∧ exec (.verifyLen ig) s = .next { s with err := .illegalOperand, sticky := true })
      ∧ (s.wcount.toNat ≤ s.params.wbufDepth → s.wcount.toNat < 2 → s.wbuf.Holds 0 s.wcount.toNat →
          (∃ t, exec (.metadata ig) s = .next t
              ∧ t = { s with
                  mdGame := t.mdGame, mdCheat := t.mdCheat, mdEnable := t.mdEnable, mdRegion := t.mdRegion
                  cur := t.cur, freeCount := t.freeCount, err := .malformedInput, sticky := true })
            ∧ ∃ t, exec (.verifyLen ig) s = .next t
              ∧ t = { s with
                  verLines := t.verLines, cur := t.cur, freeCount := t.freeCount
                  err := .malformedInput, sticky := true })

/-- R257: with `e = used - 24`: one line up to `e = 0`; above it FLOOR gives `2 + e div 64`, CEIL the number of lines the
header touches (its last bit lies in the last of them); the two differ only when `e` is a positive multiple of 64, and
there FLOOR gives one more line. -/
def Obligations.LineCountOfBothRoundings : Prop :=
  ∀ used : Nat,
    (used ≤ 24 → ∀ r, verifierLines r used = 1)
      ∧ (∀ e, used = 24 + e → 0 < e → verifierLines .floor used = 2 + e / 64
          ∧ 24 + 64 * (verifierLines .ceil used - 2) < used ∧ used ≤ 24 + 64 * (verifierLines .ceil used - 1)
          ∧ verifierLines .floor used = verifierLines .ceil used + if e % 64 = 0 then 1 else 0)
      ∧ ∀ r, 1 ≤ verifierLines r used

/-- R110, R111, R254 to R257, R259: VERIFY_LEN on words that spell a header with any list of records, ending inside the
word sequence: VER_LINES is the line count of the bits consumed, and the cursor stands just after the stop bit. -/
def Obligations.VerifyLenMeasuresTheHeader : Prop :=
  ∀ (ig : BitVec 24) (s : State) (sels : List (BitVec 3)),
    s.wcount.toNat ≤ s.params.wbufDepth → s.wbuf.Holds 1 (s.wcount.toNat - 1) →
    SpellsHeader s.wbuf 40 sels → 40 + headerBits sels ≤ 32 * s.wcount.toNat →
    ∃ c : Cursor,
      exec (.verifyLen ig) s = .next
          { s with
            verLines := BitVec.ofNat 32 (verifierLines s.params.rounding (headerBits sels))
            cur := c
            err := .ok }
        ∧ c.position = 40 + headerBits sels ∧ c.cnt = s.wcount

/-- R260: an all-zero verifier region always ends in MALFORMED_INPUT, and only VER_LINES and the cursor lose their
values (in the model they take free ones, assumption 6). -/
def Obligations.ZeroVerifierNeverTerminates : Prop :=
  ∀ (ig : BitVec 24) (s : State),
    s.wcount.toNat ≤ s.params.wbufDepth →
    (∀ g, 40 ≤ g → g < 32 * s.wcount.toNat → s.wbuf.bitAt g = some false) →
    ∃ t, exec (.verifyLen ig) s = .next t
      ∧ t = { s with
          verLines := t.verLines, cur := t.cur, freeCount := t.freeCount, err := .malformedInput, sticky := true }

/-! ### The composite command -/

/-- R281: DECODE_CHEAT is ARMAX_BUF, META and VERIFY_LEN in turn, and then the output stage: the verifier region copied
to OBUF, and, when words remain after it, the AR2 stream of them behind it. Where a stage ends with an error, DECODE_CHEAT
ends with that error; so it does on WCOUNT = 0, in META. -/
def Obligations.DecodeCheatComposesTheStages : Prop :=
  (∀ (ig : BitVec 24) (s : State), s.schedValid = true → s.wcount = 0 →
      ∃ t, exec (.decodeCheat ig) s = .next t ∧ t.err = .malformedInput ∧ t.sticky = true)
    ∧ ∀ (ig : BitVec 24) (s t₁ : State), exec (.armaxBuf ig) s = .next t₁ →
      (t₁.err ≠ .ok → exec (.decodeCheat ig) s = .next t₁)
        ∧ ∀ t₂, t₁.err = .ok → exec (.metadata ig) t₁ = .next t₂ →
          (t₂.err ≠ .ok → ∃ t, exec (.decodeCheat ig) s = .next t ∧ t.err = t₂.err ∧ t.sticky = true)
            ∧ ∀ t₃, t₂.err = .ok → exec (.verifyLen ig) t₂ = .next t₃ →
              (t₃.err ≠ .ok → ∃ t, exec (.decodeCheat ig) s = .next t ∧ t.err = t₃.err ∧ t.sticky = true)
                ∧ ∀ ws : List Word, t₃.err = .ok →
                  ws.length = s.wcount.toNat → (∀ k < ws.length, t₃.wbuf.read k = ws[k]?) →
                  (s.wcount.toNat ≤ 2 * t₃.verLines.toNat →
                      ∃ m : Memory, exec (.decodeCheat ig) s = .next { t₃ with obuf := m, ocount := s.wcount }
                        ∧ (∀ k < ws.length, m.read k = ws[k]?) ∧ ∀ k, ws.length ≤ k → m.read k = s.obuf.read k)
                    ∧ (2 * t₃.verLines.toNat < s.wcount.toNat → ∀ out sd,
                        decryptCheat s.params (ws.drop (2 * t₃.verLines.toNat)) s.seed = .ok (out, sd) →
                        ∃ m : Memory,
                          exec (.decodeCheat ig) s = .next
                              { t₃ with
                                obuf := m
                                ocount := BitVec.ofNat 11 (2 * t₃.verLines.toNat + out.length)
                                seed := sd }
                            ∧ (∀ k < 2 * t₃.verLines.toNat + out.length,
                                m.read k = (ws.take (2 * t₃.verLines.toNat) ++ out)[k]?)
                            ∧ ∀ k, 2 * t₃.verLines.toNat + out.length ≤ k → m.read k = s.obuf.read k)
                    ∧ (2 * t₃.verLines.toNat < s.wcount.toNat → ∀ e,
                        decryptCheat s.params (ws.drop (2 * t₃.verLines.toNat)) s.seed = .error e →
                        ∃ t, exec (.decodeCheat ig) s = .next t ∧ t.err = e ∧ t.sticky = true)

/-- R281: a cheat of one line whose decrypted value word has the stop bit first is all verifier; DECODE_CHEAT completes,
copies it to OBUF and leaves SEED alone. -/
def Obligations.DecodeCheatOfOneVerifierLine : Prop :=
  ∀ (ig : BitVec 24) (s : State) (a v w₀ w₁ : Word),
    2 ≤ s.params.wbufDepth → s.schedValid = true → s.wcount = 2 →
    s.wbuf.read 0 = some a → s.wbuf.read 1 = some v → decryptPair s.sched a v = (w₀, w₁) → w₁.getLsbD 23 = true →
    ∃ m m' : Memory,
      exec (.decodeCheat ig) s = .next
          { s with
            wbuf := m, obuf := m', ocount := 2, verLines := 1
            mdGame := w₀.extractLsb' 15 13
            mdCheat := w₀.extractLsb' 0 15 ++ w₁.extractLsb' 28 4
            mdEnable := w₁.extractLsb' 27 1
            mdRegion := w₁.extractLsb' 24 2
            cur := { idx := 1, off := 9, cnt := 2 }
            err := .ok }
        ∧ m.read 0 = some w₀ ∧ m.read 1 = some w₁ ∧ (∀ k, 2 ≤ k → m.read k = s.wbuf.read k)
        ∧ m'.read 0 = some w₀ ∧ m'.read 1 = some w₁ ∧ ∀ k, 2 ≤ k → m'.read k = s.obuf.read k

/-- R307: a data fault of DECODE_CHEAT or AR2_STREAM leaves everything outside the command's row as it was; of WBUF, the
words at WCOUNT and above too. The destinations take free values in the model (assumption 6). -/
def Obligations.DataFaultSparesOtherState : Prop :=
  ∀ (ig : BitVec 24) (s t : State),
    (exec (.decodeCheat ig) s = .next t → t.err ≠ .ok →
        t = { s with
              wbuf := t.wbuf, mdGame := t.mdGame, mdCheat := t.mdCheat, mdEnable := t.mdEnable
              mdRegion := t.mdRegion, verLines := t.verLines, cur := t.cur, obuf := t.obuf, ocount := t.ocount
              seed := t.seed, freeCount := t.freeCount, err := t.err, sticky := true }
          ∧ ∀ k, s.wcount.toNat ≤ k → t.wbuf.read k = s.wbuf.read k)
      ∧ (exec (.ar2Stream ig) s = .next t → t.err ≠ .ok →
        t = { s with
              obuf := t.obuf, ocount := t.ocount, seed := t.seed, freeCount := t.freeCount
              err := t.err, sticky := true })

/-! ### Rules about every instruction -/

/-- R101, R341: an instruction changes only the state in its row; none writes an operand register, WCOUNT or a constant.
Of WBUF only the words below WCOUNT change; of OBUF, after a success, only the words below the new OCOUNT. (After a data
fault the model takes all of OBUF for the destination: assumption 6.) -/
def Obligations.InstructionsChangeOnlyTheirRow : Prop :=
  ∀ (i : Instr) (s t : State), exec i s = .next t →
    (t.opa = s.opa ∧ t.opb = s.opb ∧ t.opc = s.opc ∧ t.opd = s.opd ∧ t.wcount = s.wcount ∧ t.params = s.params
        ∧ t.bus = s.bus ∧ t.readLog = s.readLog)
      ∧ (writesRes0 i = false → t.res0 = s.res0)
      ∧ (writesRes1 i = false → t.res1 = s.res1)
      ∧ (writesSched i = false → t.sched = s.sched ∧ t.schedValid = s.schedValid)
      ∧ (writesSeed i = false → t.seed = s.seed)
      ∧ (writesCursor i = false → t.cur = s.cur)
      ∧ (writesCurCnt i = false → t.cur.cnt = s.cur.cnt)
      ∧ (writesWbuf i = false → t.wbuf = s.wbuf)
      ∧ (∀ k, s.wcount.toNat ≤ k → t.wbuf.read k = s.wbuf.read k)
      ∧ (writesObuf i = false → t.obuf = s.obuf ∧ t.ocount = s.ocount)
      ∧ (t.err = .ok → ∀ k, t.ocount.toNat ≤ k → t.obuf.read k = s.obuf.read k)
      ∧ (writesMeta i = false → t.mdGame = s.mdGame ∧ t.mdCheat = s.mdCheat ∧ t.mdEnable = s.mdEnable
          ∧ t.mdRegion = s.mdRegion)
      ∧ (writesVerLines i = false → t.verLines = s.verLines)

/-- R35, R38, R311: STICKY is set by every fault and left by every success, and nothing but the reset input (in the model
a host event, assumption 11) clears it or SCHED_VALID, or changes a generated schedule. -/
def Obligations.OnlyResetClearsStickyAndSchedValid : Prop :=
  (∀ (i : Instr) (s t : State), exec i s = .next t → t.sticky = (s.sticky || decide (t.err ≠ .ok)))
    ∧ ∀ (s t : State), step s = .next t → (∀ rest, s.bus ≠ .reset :: rest) →
      (s.sticky = true → t.sticky = true)
        ∧ (s.schedValid = true → t.schedValid = true ∧ (s.sched = generate → t.sched = generate))

/-! ### Reset, the invariant, safe runs -/

/-- R49, R330: the values the spec gives for reset; and SCHED, WBUF and OBUF hold no value (R37, R43, R44, R77, R78), so
that a host read of them gives `none` (assumption 8). -/
def Obligations.ResetValues : Prop :=
  State.reset.statusWord = 0
    ∧ State.reset.opa = 0 ∧ State.reset.opb = 0 ∧ State.reset.opc = 0 ∧ State.reset.opd = 0
    ∧ State.reset.res0 = 0 ∧ State.reset.res1 = 0
    ∧ State.reset.cur = { idx := 0, off := 0, cnt := 0 }
    ∧ State.reset.wcount = 0 ∧ State.reset.ocount = 0
    ∧ State.reset.mdGame = 0 ∧ State.reset.mdCheat = 0 ∧ State.reset.mdFlagsWord = 0
    ∧ State.reset.verLines = 0
    ∧ State.reset.seed = regenerate State.reset.params.ar2DefaultKey
    ∧ ∀ i, State.reset.readTarget (.wbuf i) = none ∧ State.reset.readTarget (.obuf i) = none
      ∧ ∀ j, State.reset.readTarget (.sched j) = none

/-- The state after reset meets the invariant. Its clauses on the buffers, the schedule and the errors follow from the reset
values of R49 and R330, in the model's form of a buffer (assumption 2). That the parameters after reset are legal, the
four AR2 tables pairwise distinct included, is the model's choice (assumption 1). -/
def Obligations.ResetMeetsTheInvariant : Prop := State.reset.Inv

/-- Every step keeps the invariant: canonical buffers inside their depth (the canonical form is the model's, assumption 2),
the generated schedule whenever SCHED_VALID is 1 (R36, R38), STICKY set whenever ERR tells of a fault (R311), a value in
every OBUF word below OCOUNT (R42, R44), the parameters unchanged (R47) and legal (assumption 1). After a data fault the
clause on OBUF is the model's choice: R307 has the spoiled words hold no value, where the model gives them free values
(assumption 6). -/
def Obligations.StepKeepsTheInvariant : Prop :=
  ∀ s t : State, s.Inv → step s = .next t → t.Inv ∧ t.params = s.params

/-- With every WBUF word holding a value, every instruction has a next state, in which every WBUF word holds a value: no
error ends a run (R310). After a data fault of DECODE_CHEAT the second part is the model's choice: R307 and R43 have the
spoiled words of WBUF hold no value until the host writes them again (R338), where the model gives them free values
(assumption 6). -/
def Obligations.LoadedBufferNeverStops : Prop :=
  ∀ (i : Instr) (s : State), s.BufferLoaded → ∃ t, exec i s = .next t ∧ t.BufferLoaded

/-- From a loaded buffer, a host that issues only defined accesses has a run of any length without a stop. For a run that
goes on after a data fault of DECODE_CHEAT this is the model's choice: under R307, R43 and R338 a host must write WBUF
again before a command reads it, where the model gives the spoiled words free values (assumption 6). That a step with
nothing left to issue is no stop is the model's choice too (assumption 12). -/
def Obligations.ObedientHostRunsSafely : Prop :=
  ∀ (s : State) (n : Nat), s.BufferLoaded → s.HostObeys → s.RunsSafely n
end

