-- ==== Sys2Proof/Laws/Memory.lean ====
section
/-! SUPPORT. The laws of the word buffers: a read after a write, the canonical form, the bounds. -/

namespace Sys2Proof.Machine

@[simp] theorem Memory.read_nil (i : Nat) : Memory.read [] i = none := rfl

theorem Memory.read_cons (j : Nat) (v : Word) (m : Memory) (i : Nat) :
    Memory.read ((j, v) :: m) i = if i = j then some v else Memory.read m i := rfl

/-- A read after a write to the same index gives the word written (R76). -/
@[simp] theorem Memory.read_write_same (m : Memory) (i : Nat) (w : Word) : (m.write i w).read i = some w := by
  induction m with
  | nil => simp [Memory.write, Memory.read_cons]
  | cons c m ih =>
    obtain ⟨j, v⟩ := c
    simp only [Memory.write]
    split
    · simp [Memory.read_cons]
    · split
      · simp [Memory.read_cons]
      · rw [Memory.read_cons, if_neg (by assumption), ih]

/-- A write leaves every other index alone (R76). -/
theorem Memory.read_write_other (m : Memory) {i k : Nat} (w : Word) (h : k ≠ i) : (m.write i w).read k = m.read k := by
  induction m with
  | nil => simp [Memory.write, Memory.read_cons, h]
  | cons c m ih =>
    obtain ⟨j, v⟩ := c
    simp only [Memory.write]
    split
    · simp [Memory.read_cons, h]
    · split
      · simp_all [Memory.read_cons]
      · simp only [Memory.read_cons, ih]

theorem Memory.read_write (m : Memory) (i k : Nat) (w : Word) :
    (m.write i w).read k = if k = i then some w else m.read k := by
  split
  · subst k; exact m.read_write_same i w
  · exact m.read_write_other w (by assumption)

theorem Memory.mem_write {m : Memory} {i : Nat} {w : Word} {c : Nat × Word} (h : c ∈ m.write i w) :
    c = (i, w) ∨ c ∈ m := by
  induction m with
  | nil => simpa [Memory.write] using h
  | cons d m ih =>
    obtain ⟨j, v⟩ := d
    simp only [Memory.write] at h
    split at h
    · simpa using h
    · split at h
      · rcases List.mem_cons.1 h with h | h
        · exact .inl h
        · exact .inr (List.mem_cons_of_mem _ h)
      · rcases List.mem_cons.1 h with h | h
        · exact .inr (h ▸ List.mem_cons_self)
        · exact (ih h).imp_right (List.mem_cons_of_mem _)

/-- A write keeps the canonical form. -/
theorem Memory.wf_write {m : Memory} (h : m.wf) (i : Nat) (w : Word) : (m.write i w).wf := by
  induction m with
  | nil => simp [Memory.wf, Memory.write]
  | cons d m ih =>
    obtain ⟨j, v⟩ := d
    obtain ⟨hj, hm⟩ := List.pairwise_cons.1 h
    simp only [Memory.write]
    split
    · refine List.pairwise_cons.2 ⟨fun c hc => ?_, h⟩
      rcases List.mem_cons.1 hc with rfl | hc
      · assumption
      · exact Nat.lt_trans (by assumption) (hj c hc)
    · split
      · subst i; exact List.pairwise_cons.2 ⟨hj, hm⟩
      · refine List.pairwise_cons.2 ⟨fun c hc => ?_, ih hm⟩
        rcases Memory.mem_write hc with rfl | hc
        · show j < i; omega
        · exact hj c hc

/-- A write below a bound keeps the bound. -/
theorem Memory.below_write {m : Memory} {n : Nat} (h : m.below n) {i : Nat} (w : Word) (hi : i < n) :
    (m.write i w).below n := by
  intro c hc
  rcases Memory.mem_write hc with rfl | hc
  · exact hi
  · exact h c hc

theorem Memory.wf_writeWords {m : Memory} (h : m.wf) (i : Nat) (ws : List Word) : (m.writeWords i ws).wf := by
  induction ws generalizing m i with
  | nil => exact h
  | cons w ws ih => exact ih (Memory.wf_write h i w) (i + 1)

theorem Memory.below_writeWords {m : Memory} {n : Nat} (h : m.below n) {i : Nat} {ws : List Word}
    (hi : i + ws.length ≤ n) : (m.writeWords i ws).below n := by
  induction ws generalizing m i with
  | nil => exact h
  | cons w ws ih =>
    simp only [List.length_cons] at hi
    exact ih (Memory.below_write h w (by omega)) (by omega)

/-- What consecutive writes leave in a buffer: the new words, and everything else as it was. -/
theorem Memory.read_writeWords (m : Memory) (i : Nat) (ws : List Word) (k : Nat) :
    (m.writeWords i ws).read k = if i ≤ k ∧ k < i + ws.length then ws[k - i]? else m.read k := by
  induction ws generalizing m i with
  | nil => simp only [Memory.writeWords, List.length_nil]; rw [if_neg (by omega)]
  | cons w ws ih =>
    simp only [Memory.writeWords, ih, Memory.read_write, List.length_cons]
    by_cases hk : k = i
    · subst k; rw [if_neg (by omega), if_pos rfl, if_pos (by omega)]; simp
    · by_cases hin : i + 1 ≤ k ∧ k < i + 1 + ws.length
      · rw [if_pos hin, if_pos (by omega)]
        obtain ⟨d, rfl⟩ : ∃ d, k = i + 1 + d := ⟨k - (i + 1), by omega⟩
        rw [show i + 1 + d - (i + 1) = d by omega, show i + 1 + d - i = d + 1 by omega, List.getElem?_cons_succ]
      · rw [if_neg hin, if_neg hk, if_neg (by omega)]

theorem Memory.isSome_read_writeWords {m : Memory} {i : Nat} {ws : List Word} {k : Nat}
    (h : (i ≤ k ∧ k < i + ws.length) ∨ (m.read k).isSome = true) : ((m.writeWords i ws).read k).isSome = true := by
  rw [Memory.read_writeWords]
  split
  · simp; omega
  · rcases h with h | h
    · contradiction
    · exact h

theorem Memory.isSome_read_write {m : Memory} {i : Nat} {w : Word} {k : Nat} (h : (m.read k).isSome = true) :
    ((m.write i w).read k).isSome = true := by
  rw [Memory.read_write]; split <;> simp_all

/-- A canonical buffer is fixed by what it reads as: equal buffers are equal data. -/
theorem Memory.ext_of_wf {m m' : Memory} (h : m.wf) (h' : m'.wf) (hr : ∀ i, m.read i = m'.read i) : m = m' := by
  have none_of_lt : ∀ {l : Memory} {b : Nat}, (∀ c ∈ l, b < c.1) → ∀ i ≤ b, l.read i = none := by
    intro l b hl i hi
    induction l with
    | nil => rfl
    | cons c l ih =>
      obtain ⟨j, v⟩ := c
      have := hl (j, v) List.mem_cons_self
      rw [Memory.read_cons, if_neg (by simp at this; omega)]
      exact ih fun d hd => hl d (List.mem_cons_of_mem _ hd)
  induction m generalizing m' with
  | nil =>
    cases m' with
    | nil => rfl
    | cons c m' => obtain ⟨j, v⟩ := c; have := hr j; simp [Memory.read_cons] at this
  | cons c m ih =>
    obtain ⟨j, v⟩ := c
    obtain ⟨hj, hm⟩ := List.pairwise_cons.1 h
    cases m' with
    | nil => have := hr j; simp [Memory.read_cons] at this
    | cons c' m' =>
      obtain ⟨j', v'⟩ := c'
      obtain ⟨hj', hm'⟩ := List.pairwise_cons.1 h'
      have hjj : j = j' := by
        have h1 := hr j
        have h2 := hr j'
        simp only [Memory.read_cons, if_true] at h1 h2
        rcases Nat.lt_trichotomy j j' with hlt | heq | hgt
        · rw [if_neg (by omega), none_of_lt hj' j (by omega)] at h1; simp at h1
        · exact heq
        · rw [if_neg (by omega), none_of_lt hj j' (by omega)] at h2; simp at h2
      subst hjj
      have hv : v = v' := by simpa [Memory.read_cons] using hr j
      subst hv
      congr 1
      refine ih hm hm' fun i => ?_
      by_cases hi : i = j
      · subst i; rw [none_of_lt hj j (by omega), none_of_lt hj' j (by omega)]
      · simpa [Memory.read_cons, hi] using hr i

/-- After reset both buffers have the canonical form. -/
theorem State.reset_buffers_wf : State.reset.wbuf.wf ∧ State.reset.obuf.wf := ⟨List.Pairwise.nil, List.Pairwise.nil⟩

/-- What a command's read can do (R43). -/
theorem Memory.fetch_eq_ok {m : Memory} {i : Nat} {w : Word} : m.fetch i = .ok w ↔ m.read i = some w := by
  unfold Memory.fetch; split <;> simp_all

theorem Memory.fetch_eq_error {m : Memory} {i : Nat} {e : Stop} :
    m.fetch i = .error e ↔ m.read i = none ∧ e = .noValue i := by
  unfold Memory.fetch
  split <;> rename_i h <;> simp [h, eq_comm]

end Sys2Proof.Machine
end

