-- ==== Sys2Proof/Laws/State.lean ====
section
/-! SUPPORT. The small lemmas of the state's updates: one per field of `State.succeed` and of `State.takeFault`, so that
no later proof unfolds a record update. -/

namespace Sys2Proof.Machine

/-! ### State.succeed -/

@[simp] theorem State.succeed_err (s : State) : s.succeed.err = .ok := rfl
@[simp] theorem State.succeed_opa (s : State) : s.succeed.opa = s.opa := rfl
@[simp] theorem State.succeed_opb (s : State) : s.succeed.opb = s.opb := rfl
@[simp] theorem State.succeed_opc (s : State) : s.succeed.opc = s.opc := rfl
@[simp] theorem State.succeed_opd (s : State) : s.succeed.opd = s.opd := rfl
@[simp] theorem State.succeed_res0 (s : State) : s.succeed.res0 = s.res0 := rfl
@[simp] theorem State.succeed_res1 (s : State) : s.succeed.res1 = s.res1 := rfl
@[simp] theorem State.succeed_schedValid (s : State) : s.succeed.schedValid = s.schedValid := rfl
@[simp] theorem State.succeed_sticky (s : State) : s.succeed.sticky = s.sticky := rfl
@[simp] theorem State.succeed_sched (s : State) : s.succeed.sched = s.sched := rfl
@[simp] theorem State.succeed_seed (s : State) : s.succeed.seed = s.seed := rfl
@[simp] theorem State.succeed_cur (s : State) : s.succeed.cur = s.cur := rfl
@[simp] theorem State.succeed_wcount (s : State) : s.succeed.wcount = s.wcount := rfl
@[simp] theorem State.succeed_ocount (s : State) : s.succeed.ocount = s.ocount := rfl
@[simp] theorem State.succeed_wbuf (s : State) : s.succeed.wbuf = s.wbuf := rfl
@[simp] theorem State.succeed_obuf (s : State) : s.succeed.obuf = s.obuf := rfl
@[simp] theorem State.succeed_mdGame (s : State) : s.succeed.mdGame = s.mdGame := rfl
@[simp] theorem State.succeed_mdCheat (s : State) : s.succeed.mdCheat = s.mdCheat := rfl
@[simp] theorem State.succeed_mdEnable (s : State) : s.succeed.mdEnable = s.mdEnable := rfl
@[simp] theorem State.succeed_mdRegion (s : State) : s.succeed.mdRegion = s.mdRegion := rfl
@[simp] theorem State.succeed_verLines (s : State) : s.succeed.verLines = s.verLines := rfl
@[simp] theorem State.succeed_params (s : State) : s.succeed.params = s.params := rfl
@[simp] theorem State.succeed_bus (s : State) : s.succeed.bus = s.bus := rfl
@[simp] theorem State.succeed_readLog (s : State) : s.succeed.readLog = s.readLog := rfl
@[simp] theorem State.succeed_freeCount (s : State) : s.succeed.freeCount = s.freeCount := rfl

/-! ### State.spoil and State.takeFault -/

@[simp] theorem State.spoil_opa (k : Nat) (s : State) (d : Dest) : (s.spoil k d).opa = s.opa := by
  cases d <;> rfl

@[simp] theorem State.foldl_spoil_opa (k : Nat) (ds : List Dest) (s : State) :
    (ds.foldl (State.spoil k) s).opa = s.opa := by
  induction ds generalizing s with
  | nil => rfl
  | cons d ds ih => rw [List.foldl_cons, ih, State.spoil_opa]

@[simp] theorem State.takeFault_opa (s : State) (e : ErrCode) (ds : List Dest) : (s.takeFault e ds).opa = s.opa :=
  State.foldl_spoil_opa _ ds s

@[simp] theorem State.spoil_opb (k : Nat) (s : State) (d : Dest) : (s.spoil k d).opb = s.opb := by
  cases d <;> rfl

@[simp] theorem State.foldl_spoil_opb (k : Nat) (ds : List Dest) (s : State) :
    (ds.foldl (State.spoil k) s).opb = s.opb := by
  induction ds generalizing s with
  | nil => rfl
  | cons d ds ih => rw [List.foldl_cons, ih, State.spoil_opb]

@[simp] theorem State.takeFault_opb (s : State) (e : ErrCode) (ds : List Dest) : (s.takeFault e ds).opb = s.opb :=
  State.foldl_spoil_opb _ ds s

@[simp] theorem State.spoil_opc (k : Nat) (s : State) (d : Dest) : (s.spoil k d).opc = s.opc := by
  cases d <;> rfl

@[simp] theorem State.foldl_spoil_opc (k : Nat) (ds : List Dest) (s : State) :
    (ds.foldl (State.spoil k) s).opc = s.opc := by
  induction ds generalizing s with
  | nil => rfl
  | cons d ds ih => rw [List.foldl_cons, ih, State.spoil_opc]

@[simp] theorem State.takeFault_opc (s : State) (e : ErrCode) (ds : List Dest) : (s.takeFault e ds).opc = s.opc :=
  State.foldl_spoil_opc _ ds s

@[simp] theorem State.spoil_opd (k : Nat) (s : State) (d : Dest) : (s.spoil k d).opd = s.opd := by
  cases d <;> rfl

@[simp] theorem State.foldl_spoil_opd (k : Nat) (ds : List Dest) (s : State) :
    (ds.foldl (State.spoil k) s).opd = s.opd := by
  induction ds generalizing s with
  | nil => rfl
  | cons d ds ih => rw [List.foldl_cons, ih, State.spoil_opd]

@[simp] theorem State.takeFault_opd (s : State) (e : ErrCode) (ds : List Dest) : (s.takeFault e ds).opd = s.opd :=
  State.foldl_spoil_opd _ ds s

@[simp] theorem State.spoil_res0 (k : Nat) (s : State) (d : Dest) : (s.spoil k d).res0 = s.res0 := by
  cases d <;> rfl

@[simp] theorem State.foldl_spoil_res0 (k : Nat) (ds : List Dest) (s : State) :
    (ds.foldl (State.spoil k) s).res0 = s.res0 := by
  induction ds generalizing s with
  | nil => rfl
  | cons d ds ih => rw [List.foldl_cons, ih, State.spoil_res0]

@[simp] theorem State.takeFault_res0 (s : State) (e : ErrCode) (ds : List Dest) : (s.takeFault e ds).res0 = s.res0 :=
  State.foldl_spoil_res0 _ ds s

@[simp] theorem State.spoil_res1 (k : Nat) (s : State) (d : Dest) : (s.spoil k d).res1 = s.res1 := by
  cases d <;> rfl

@[simp] theorem State.foldl_spoil_res1 (k : Nat) (ds : List Dest) (s : State) :
    (ds.foldl (State.spoil k) s).res1 = s.res1 := by
  induction ds generalizing s with
  | nil => rfl
  | cons d ds ih => rw [List.foldl_cons, ih, State.spoil_res1]

@[simp] theorem State.takeFault_res1 (s : State) (e : ErrCode) (ds : List Dest) : (s.takeFault e ds).res1 = s.res1 :=
  State.foldl_spoil_res1 _ ds s

@[simp] theorem State.spoil_schedValid (k : Nat) (s : State) (d : Dest) : (s.spoil k d).schedValid = s.schedValid := by
  cases d <;> rfl

@[simp] theorem State.foldl_spoil_schedValid (k : Nat) (ds : List Dest) (s : State) :
    (ds.foldl (State.spoil k) s).schedValid = s.schedValid := by
  induction ds generalizing s with
  | nil => rfl
  | cons d ds ih => rw [List.foldl_cons, ih, State.spoil_schedValid]

@[simp] theorem State.takeFault_schedValid (s : State) (e : ErrCode) (ds : List Dest) : (s.takeFault e ds).schedValid = s.schedValid :=
  State.foldl_spoil_schedValid _ ds s

@[simp] theorem State.spoil_sched (k : Nat) (s : State) (d : Dest) : (s.spoil k d).sched = s.sched := by
  cases d <;> rfl

@[simp] theorem State.foldl_spoil_sched (k : Nat) (ds : List Dest) (s : State) :
    (ds.foldl (State.spoil k) s).sched = s.sched := by
  induction ds generalizing s with
  | nil => rfl
  | cons d ds ih => rw [List.foldl_cons, ih, State.spoil_sched]

@[simp] theorem State.takeFault_sched (s : State) (e : ErrCode) (ds : List Dest) : (s.takeFault e ds).sched = s.sched :=
  State.foldl_spoil_sched _ ds s

theorem State.spoil_seed (k : Nat) (s : State) (d : Dest) (h : d ≠ .seed) : (s.spoil k d).seed = s.seed := by
  cases d <;> first | rfl | exact absurd rfl h

theorem State.foldl_spoil_seed (k : Nat) (ds : List Dest) (h : .seed ∉ ds) (s : State) :
    (ds.foldl (State.spoil k) s).seed = s.seed := by
  induction ds generalizing s with
  | nil => rfl
  | cons d ds ih =>
    simp only [List.mem_cons, not_or] at h
    rw [List.foldl_cons, ih h.2, State.spoil_seed _ _ _ (Ne.symm h.1)]

theorem State.takeFault_seed (s : State) (e : ErrCode) (ds : List Dest) (h : .seed ∉ ds) :
    (s.takeFault e ds).seed = s.seed := State.foldl_spoil_seed _ ds h s

theorem State.spoil_cur (k : Nat) (s : State) (d : Dest) (h : d ≠ .cursor) : (s.spoil k d).cur = s.cur := by
  cases d <;> first | rfl | exact absurd rfl h

theorem State.foldl_spoil_cur (k : Nat) (ds : List Dest) (h : .cursor ∉ ds) (s : State) :
    (ds.foldl (State.spoil k) s).cur = s.cur := by
  induction ds generalizing s with
  | nil => rfl
  | cons d ds ih =>
    simp only [List.mem_cons, not_or] at h
    rw [List.foldl_cons, ih h.2, State.spoil_cur _ _ _ (Ne.symm h.1)]

theorem State.takeFault_cur (s : State) (e : ErrCode) (ds : List Dest) (h : .cursor ∉ ds) :
    (s.takeFault e ds).cur = s.cur := State.foldl_spoil_cur _ ds h s

@[simp] theorem State.spoil_wcount (k : Nat) (s : State) (d : Dest) : (s.spoil k d).wcount = s.wcount := by
  cases d <;> rfl

@[simp] theorem State.foldl_spoil_wcount (k : Nat) (ds : List Dest) (s : State) :
    (ds.foldl (State.spoil k) s).wcount = s.wcount := by
  induction ds generalizing s with
  | nil => rfl
  | cons d ds ih => rw [List.foldl_cons, ih, State.spoil_wcount]

@[simp] theorem State.takeFault_wcount (s : State) (e : ErrCode) (ds : List Dest) : (s.takeFault e ds).wcount = s.wcount :=
  State.foldl_spoil_wcount _ ds s

theorem State.spoil_ocount (k : Nat) (s : State) (d : Dest) (h : d ≠ .ocount) : (s.spoil k d).ocount = s.ocount := by
  cases d <;> first | rfl | exact absurd rfl h

theorem State.foldl_spoil_ocount (k : Nat) (ds : List Dest) (h : .ocount ∉ ds) (s : State) :
    (ds.foldl (State.spoil k) s).ocount = s.ocount := by
  induction ds generalizing s with
  | nil => rfl
  | cons d ds ih =>
    simp only [List.mem_cons, not_or] at h
    rw [List.foldl_cons, ih h.2, State.spoil_ocount _ _ _ (Ne.symm h.1)]

theorem State.takeFault_ocount (s : State) (e : ErrCode) (ds : List Dest) (h : .ocount ∉ ds) :
    (s.takeFault e ds).ocount = s.ocount := State.foldl_spoil_ocount _ ds h s

theorem State.spoil_wbuf (k : Nat) (s : State) (d : Dest) (h : d ≠ .wbuf) : (s.spoil k d).wbuf = s.wbuf := by
  cases d <;> first | rfl | exact absurd rfl h

theorem State.foldl_spoil_wbuf (k : Nat) (ds : List Dest) (h : .wbuf ∉ ds) (s : State) :
    (ds.foldl (State.spoil k) s).wbuf = s.wbuf := by
  induction ds generalizing s with
  | nil => rfl
  | cons d ds ih =>
    simp only [List.mem_cons, not_or] at h
    rw [List.foldl_cons, ih h.2, State.spoil_wbuf _ _ _ (Ne.symm h.1)]

theorem State.takeFault_wbuf (s : State) (e : ErrCode) (ds : List Dest) (h : .wbuf ∉ ds) :
    (s.takeFault e ds).wbuf = s.wbuf := State.foldl_spoil_wbuf _ ds h s

theorem State.spoil_obuf (k : Nat) (s : State) (d : Dest) (h : d ≠ .obuf) : (s.spoil k d).obuf = s.obuf := by
  cases d <;> first | rfl | exact absurd rfl h

theorem State.foldl_spoil_obuf (k : Nat) (ds : List Dest) (h : .obuf ∉ ds) (s : State) :
    (ds.foldl (State.spoil k) s).obuf = s.obuf := by
  induction ds generalizing s with
  | nil => rfl
  | cons d ds ih =>
    simp only [List.mem_cons, not_or] at h
    rw [List.foldl_cons, ih h.2, State.spoil_obuf _ _ _ (Ne.symm h.1)]

theorem State.takeFault_obuf (s : State) (e : ErrCode) (ds : List Dest) (h : .obuf ∉ ds) :
    (s.takeFault e ds).obuf = s.obuf := State.foldl_spoil_obuf _ ds h s

theorem State.spoil_mdGame (k : Nat) (s : State) (d : Dest) (h : d ≠ .md) : (s.spoil k d).mdGame = s.mdGame := by
  cases d <;> first | rfl | exact absurd rfl h

theorem State.foldl_spoil_mdGame (k : Nat) (ds : List Dest) (h : .md ∉ ds) (s : State) :
    (ds.foldl (State.spoil k) s).mdGame = s.mdGame := by
  induction ds generalizing s with
  | nil => rfl
  | cons d ds ih =>
    simp only [List.mem_cons, not_or] at h
    rw [List.foldl_cons, ih h.2, State.spoil_mdGame _ _ _ (Ne.symm h.1)]

theorem State.takeFault_mdGame (s : State) (e : ErrCode) (ds : List Dest) (h : .md ∉ ds) :
    (s.takeFault e ds).mdGame = s.mdGame := State.foldl_spoil_mdGame _ ds h s

theorem State.spoil_mdCheat (k : Nat) (s : State) (d : Dest) (h : d ≠ .md) : (s.spoil k d).mdCheat = s.mdCheat := by
  cases d <;> first | rfl | exact absurd rfl h

theorem State.foldl_spoil_mdCheat (k : Nat) (ds : List Dest) (h : .md ∉ ds) (s : State) :
    (ds.foldl (State.spoil k) s).mdCheat = s.mdCheat := by
  induction ds generalizing s with
  | nil => rfl
  | cons d ds ih =>
    simp only [List.mem_cons, not_or] at h
    rw [List.foldl_cons, ih h.2, State.spoil_mdCheat _ _ _ (Ne.symm h.1)]

theorem State.takeFault_mdCheat (s : State) (e : ErrCode) (ds : List Dest) (h : .md ∉ ds) :
    (s.takeFault e ds).mdCheat = s.mdCheat := State.foldl_spoil_mdCheat _ ds h s

theorem State.spoil_mdEnable (k : Nat) (s : State) (d : Dest) (h : d ≠ .md) : (s.spoil k d).mdEnable = s.mdEnable := by
  cases d <;> first | rfl | exact absurd rfl h

theorem State.foldl_spoil_mdEnable (k : Nat) (ds : List Dest) (h : .md ∉ ds) (s : State) :
    (ds.foldl (State.spoil k) s).mdEnable = s.mdEnable := by
  induction ds generalizing s with
  | nil => rfl
  | cons d ds ih =>
    simp only [List.mem_cons, not_or] at h
    rw [List.foldl_cons, ih h.2, State.spoil_mdEnable _ _ _ (Ne.symm h.1)]

theorem State.takeFault_mdEnable (s : State) (e : ErrCode) (ds : List Dest) (h : .md ∉ ds) :
    (s.takeFault e ds).mdEnable = s.mdEnable := State.foldl_spoil_mdEnable _ ds h s

theorem State.spoil_mdRegion (k : Nat) (s : State) (d : Dest) (h : d ≠ .md) : (s.spoil k d).mdRegion = s.mdRegion := by
  cases d <;> first | rfl | exact absurd rfl h

theorem State.foldl_spoil_mdRegion (k : Nat) (ds : List Dest) (h : .md ∉ ds) (s : State) :
    (ds.foldl (State.spoil k) s).mdRegion = s.mdRegion := by
  induction ds generalizing s with
  | nil => rfl
  | cons d ds ih =>
    simp only [List.mem_cons, not_or] at h
    rw [List.foldl_cons, ih h.2, State.spoil_mdRegion _ _ _ (Ne.symm h.1)]

theorem State.takeFault_mdRegion (s : State) (e : ErrCode) (ds : List Dest) (h : .md ∉ ds) :
    (s.takeFault e ds).mdRegion = s.mdRegion := State.foldl_spoil_mdRegion _ ds h s

theorem State.spoil_verLines (k : Nat) (s : State) (d : Dest) (h : d ≠ .verLines) : (s.spoil k d).verLines = s.verLines := by
  cases d <;> first | rfl | exact absurd rfl h

theorem State.foldl_spoil_verLines (k : Nat) (ds : List Dest) (h : .verLines ∉ ds) (s : State) :
    (ds.foldl (State.spoil k) s).verLines = s.verLines := by
  induction ds generalizing s with
  | nil => rfl
  | cons d ds ih =>
    simp only [List.mem_cons, not_or] at h
    rw [List.foldl_cons, ih h.2, State.spoil_verLines _ _ _ (Ne.symm h.1)]

theorem State.takeFault_verLines (s : State) (e : ErrCode) (ds : List Dest) (h : .verLines ∉ ds) :
    (s.takeFault e ds).verLines = s.verLines := State.foldl_spoil_verLines _ ds h s

@[simp] theorem State.spoil_params (k : Nat) (s : State) (d : Dest) : (s.spoil k d).params = s.params := by
  cases d <;> rfl

@[simp] theorem State.foldl_spoil_params (k : Nat) (ds : List Dest) (s : State) :
    (ds.foldl (State.spoil k) s).params = s.params := by
  induction ds generalizing s with
  | nil => rfl
  | cons d ds ih => rw [List.foldl_cons, ih, State.spoil_params]

@[simp] theorem State.takeFault_params (s : State) (e : ErrCode) (ds : List Dest) : (s.takeFault e ds).params = s.params :=
  State.foldl_spoil_params _ ds s

@[simp] theorem State.spoil_bus (k : Nat) (s : State) (d : Dest) : (s.spoil k d).bus = s.bus := by
  cases d <;> rfl

@[simp] theorem State.foldl_spoil_bus (k : Nat) (ds : List Dest) (s : State) :
    (ds.foldl (State.spoil k) s).bus = s.bus := by
  induction ds generalizing s with
  | nil => rfl
  | cons d ds ih => rw [List.foldl_cons, ih, State.spoil_bus]

@[simp] theorem State.takeFault_bus (s : State) (e : ErrCode) (ds : List Dest) : (s.takeFault e ds).bus = s.bus :=
  State.foldl_spoil_bus _ ds s

@[simp] theorem State.spoil_readLog (k : Nat) (s : State) (d : Dest) : (s.spoil k d).readLog = s.readLog := by
  cases d <;> rfl

@[simp] theorem State.foldl_spoil_readLog (k : Nat) (ds : List Dest) (s : State) :
    (ds.foldl (State.spoil k) s).readLog = s.readLog := by
  induction ds generalizing s with
  | nil => rfl
  | cons d ds ih => rw [List.foldl_cons, ih, State.spoil_readLog]

@[simp] theorem State.takeFault_readLog (s : State) (e : ErrCode) (ds : List Dest) : (s.takeFault e ds).readLog = s.readLog :=
  State.foldl_spoil_readLog _ ds s

@[simp] theorem State.takeFault_err (s : State) (e : ErrCode) (ds : List Dest) : (s.takeFault e ds).err = e := rfl

@[simp] theorem State.takeFault_sticky (s : State) (e : ErrCode) (ds : List Dest) :
    (s.takeFault e ds).sticky = true := rfl

@[simp] theorem State.takeFault_freeCount (s : State) (e : ErrCode) (ds : List Dest) :
    (s.takeFault e ds).freeCount = s.freeCount + ds.length := rfl

/-- A check fault changes ERR and STICKY only (R307). -/
theorem State.takeFault_nil (s : State) (e : ErrCode) : s.takeFault e [] = { s with err := e, sticky := true } := rfl

end Sys2Proof.Machine
end

