-- ==== Sys2Proof/Laws/Ops.lean ====
section
/-! SUPPORT. What each shared operation can do, said once: a check, the end of a command, an error raised. -/

namespace Sys2Proof.Machine

/-- `firstError` is the first entry whose condition holds (R308). -/
theorem firstError_eq_some {l : List (Bool × ErrCode)} {e : ErrCode} :
    firstError l = some e → ∃ pre post, l = pre ++ (true, e) :: post ∧ ∀ c ∈ pre, c.1 = false := by
  induction l with
  | nil => simp [firstError]
  | cons c l ih =>
    obtain ⟨b, e'⟩ := c
    cases b with
    | true => intro h; cases h; exact ⟨[], l, rfl, by simp⟩
    | false =>
      intro h
      obtain ⟨pre, post, rfl, hp⟩ := ih h
      exact ⟨(false, e') :: pre, post, rfl, by simpa using hp⟩

theorem firstError_eq_none {l : List (Bool × ErrCode)} : firstError l = none ↔ ∀ c ∈ l, c.1 = false := by
  induction l with
  | nil => simp [firstError]
  | cons c l ih => obtain ⟨b, e⟩ := c; cases b <;> simp [firstError, ih]

/-- The checks of a command either all pass, and the command goes on, or one is taken as a check fault, which changes
ERR and STICKY only (R307). -/
theorem State.checked_cases (s : State) (l : List (Bool × ErrCode)) (k : Host.Outcome State Fault Refusal) :
    ((∀ c ∈ l, c.1 = false) ∧ s.checked l k = k) ∨
      ∃ e, firstError l = some e ∧ s.checked l k = .next { s with err := e, sticky := true } := by
  unfold State.checked
  cases h : firstError l with
  | none => exact .inl ⟨firstError_eq_none.1 h, rfl⟩
  | some e => exact .inr ⟨e, rfl, rfl⟩

theorem State.checked_of_pass {s : State} {l : List (Bool × ErrCode)} {k : Host.Outcome State Fault Refusal}
    (h : ∀ c ∈ l, c.1 = false) : s.checked l k = k := by
  unfold State.checked; rw [firstError_eq_none.2 h]

theorem State.checked_of_fail {s : State} {l : List (Bool × ErrCode)} {k : Host.Outcome State Fault Refusal} {e : ErrCode}
    (h : firstError l = some e) : s.checked l k = .next { s with err := e, sticky := true } := by
  unfold State.checked; rw [h]; rfl

/-- A command ends with its result and ERR = 0, with a data fault, or without a step. -/
theorem State.conclude_next {s t : State} {ds : List Dest} {r : Except Stop State} (h : s.conclude ds r = .next t) :
    (∃ u, r = .ok u ∧ t = u.succeed) ∨ ∃ e, r = .error (.raised e) ∧ t = s.takeFault e ds := by
  unfold State.conclude at h
  split at h
  · cases h; exact .inl ⟨_, rfl, rfl⟩
  · cases h; exact .inr ⟨_, rfl, rfl⟩
  · cases h

@[simp] theorem State.conclude_ok (s t : State) (ds : List Dest) : s.conclude ds (.ok t) = .next t.succeed := rfl

@[simp] theorem State.conclude_raised (s : State) (ds : List Dest) (e : ErrCode) :
    s.conclude ds (.error (.raised e)) = .next (s.takeFault e ds) := rfl

@[simp] theorem State.conclude_noValue (s : State) (ds : List Dest) (i : Nat) :
    s.conclude ds (.error (.noValue i)) = .fault (.wbufNoValue i) := rfl

@[simp] theorem raising_ok {α : Type} (a : α) : raising (.ok a : Except ErrCode α) = .ok a := rfl

@[simp] theorem raising_error {α : Type} (e : ErrCode) : raising (.error e : Except ErrCode α) = .error (.raised e) := rfl

theorem raising_eq_ok {α : Type} {r : Except ErrCode α} {a : α} : raising r = .ok a ↔ r = .ok a := by
  cases r <;> simp

theorem raising_eq_error {α : Type} {r : Except ErrCode α} {x : Stop} :
    raising r = .error x ↔ ∃ e, r = .error e ∧ x = .raised e := by
  cases r <;> simp [eq_comm]

/-- A result of a sequence of two parts. -/
theorem Except.bind_eq_ok {ε α β : Type} {x : Except ε α} {f : α → Except ε β} {b : β} :
    (x >>= f) = .ok b ↔ ∃ a, x = .ok a ∧ f a = .ok b := by
  cases x <;> simp [bind, Except.bind]

theorem Except.bind_eq_error {ε α β : Type} {x : Except ε α} {f : α → Except ε β} {e : ε} :
    (x >>= f) = .error e ↔ x = .error e ∨ ∃ a, x = .ok a ∧ f a = .error e := by
  cases x <;> simp [bind, Except.bind]

theorem Except.map_eq_ok {ε α β : Type} {x : Except ε α} {f : α → β} {b : β} :
    x.map f = .ok b ↔ ∃ a, x = .ok a ∧ f a = b := by
  cases x <;> simp [Except.map]

theorem Except.map_eq_error {ε α β : Type} {x : Except ε α} {f : α → β} {e : ε} :
    x.map f = .error e ↔ x = .error e := by
  cases x <;> simp [Except.map]

end Sys2Proof.Machine
end

