-- ==== Sys2Proof/Laws/Ar2.lean ====
section
/-! SUPPORT. What the AR2 octet cipher and its stream do (R194 to R209). -/

namespace Sys2Proof.Machine

theorem getLsbD_append4 (a b c d : Byte) (j : Nat) :
    (a ++ b ++ c ++ d : BitVec (8 + 8 + 8 + 8)).getLsbD j =
      if j < 8 then d.getLsbD j else if j - 8 < 8 then c.getLsbD (j - 8)
      else if j - 8 - 8 < 8 then b.getLsbD (j - 8 - 8) else a.getLsbD (j - 8 - 8 - 8) := by
  simp only [BitVec.getLsbD_append]

/-- The lane of four bytes side by side. -/
theorem laneOf_append4 (a b c d : Byte) (k : Fin 4) :
    laneOf (a ++ b ++ c ++ d : BitVec (8 + 8 + 8 + 8)) k = match k with | 0 => d | 1 => c | 2 => b | 3 => a := by
  ext i hi
  have h := getLsbD_append4 a b c d (8 * k.val + i)
  rw [laneOf, BitVec.getElem_extractLsb']
  refine h.trans ?_
  fin_cases k
  · simp only [show 8 * 0 + i < 8 by omega, if_true]
    rw [← BitVec.getLsbD_eq_getElem hi]; simp
  · simp only [show ¬ 8 * 1 + i < 8 by omega, show 8 * 1 + i - 8 < 8 by omega, if_true, if_false]
    rw [← BitVec.getLsbD_eq_getElem hi]; congr 1; omega
  · simp only [show ¬ 8 * 2 + i < 8 by omega, show ¬ 8 * 2 + i - 8 < 8 by omega, show 8 * 2 + i - 8 - 8 < 8 by omega,
      if_true, if_false]
    rw [← BitVec.getLsbD_eq_getElem hi]; congr 1; omega
  · simp only [show ¬ 8 * 3 + i < 8 by omega, show ¬ 8 * 3 + i - 8 < 8 by omega, show ¬ 8 * 3 + i - 8 - 8 < 8 by omega,
      if_false]
    rw [← BitVec.getLsbD_eq_getElem hi]; congr 1; omega

/-- Lane `k` of a lane-wise transform is the transform of lane `k` (R195, R196). -/
theorem laneOf_mapLanes (f : Fin 4 → Byte → Byte) (w : Word) (k : Fin 4) :
    laneOf (mapLanes f w) k = f k (laneOf w k) := by
  refine (laneOf_append4 (f 3 (laneOf w 3)) (f 2 (laneOf w 2)) (f 1 (laneOf w 1)) (f 0 (laneOf w 0)) k).trans ?_
  fin_cases k <;> rfl

/-- A word is its four lanes. -/
theorem eq_of_laneOf {x y : Word} (h : ∀ k, laneOf x k = laneOf y k) : x = y := by
  ext i hi
  have hk := congrArg (fun b : Byte => b.getLsbD (i % 8)) (h ⟨i / 8, by omega⟩)
  simp only [laneOf, BitVec.getLsbD_extractLsb', show i % 8 < 8 by omega, decide_true, Bool.true_and,
    show 8 * (i / 8) + i % 8 = i by omega] at hk
  rwa [BitVec.getLsbD_eq_getElem hi, BitVec.getLsbD_eq_getElem hi] at hk

@[simp] theorem seeded_of_le {s : Byte} {f : Fin 32 → Word} (h : s.toNat ≤ 31) : seeded s f = .ok (f (seedIndex s)) := by
  rw [seeded, if_neg (by omega)]

@[simp] theorem seeded_of_gt {s : Byte} {f : Fin 32 → Word} (h : 31 < s.toNat) : seeded s f = .error .seedRange := by
  rw [seeded, if_pos h]

/-- AR2_CODE and the control values end in one of two ways (R212, R307). -/
theorem State.concludeRes0_cases (s : State) (r : Except ErrCode Word) :
    (∃ w, r = .ok w ∧ s.concludeRes0 r = .next { s with res0 := w, err := .ok }) ∨
      ∃ e, r = .error e ∧ s.concludeRes0 r = .next { s with err := e, sticky := true } := by
  cases r with
  | ok w => exact .inl ⟨w, rfl, rfl⟩
  | error e => exact .inr ⟨e, rfl, rfl⟩

/-- The stream emits pairs, at most as many as it reads, and none whose address is the sentinel (R208, R214). -/
theorem ar2Pairs_ok {p : Params} {m : Memory} {n i : Nat} {sd final : Seed} {out : List Word}
    (h : ar2Pairs p m n i sd = .ok (out, final)) :
    out.length % 2 = 0 ∧ out.length ≤ 2 * n ∧ ∀ k, out[2 * k]? ≠ some sentinel := by
  induction n generalizing i sd out with
  | zero => cases h; simp
  | succ n ih =>
    simp only [ar2Pairs, Except.bind_eq_ok] at h
    obtain ⟨x, -, a, -, y, -, v, -, h⟩ := h
    split at h
    · obtain ⟨h1, h2, h3⟩ := ih h
      exact ⟨h1, by omega, h3⟩
    · rename_i hne
      simp only [Except.bind_eq_ok, Prod.exists] at h
      obtain ⟨o, f, ho, h⟩ := h
      cases h
      obtain ⟨h1, h2, h3⟩ := ih ho
      refine ⟨by simp only [List.length_cons]; omega, by simp only [List.length_cons]; omega, fun k => ?_⟩
      rcases k with _ | k
      · simpa using hne
      · rw [show 2 * (k + 1) = 2 * k + 1 + 1 by omega]
        simpa using h3 k

/-- Why the stream stops: an error of `decrypt_code`, or a word that holds no value. -/
theorem ar2Pairs_error {p : Params} {m : Memory} {n i : Nat} {sd : Seed} {e : Stop}
    (h : ar2Pairs p m n i sd = .error e) :
    (e = .raised .unsupportedMode ∨ e = .raised .seedRange) ∨
      ∃ j, e = .noValue j ∧ m.read j = none ∧ i ≤ j ∧ j < i + 2 * n := by
  have code : ∀ {w : Word} {c s : Byte} {e' : ErrCode}, decryptCode p w c s = .error e' →
      e' = .unsupportedMode ∨ e' = .seedRange := by
    intro w c s e' h
    unfold decryptCode at h
    split at h
    · cases h; exact .inl rfl
    · right
      rename_i md _
      have : ∀ {f : Fin 32 → Word}, seeded s f = .error e' → e' = .seedRange := by
        intro f h; unfold seeded at h; split at h <;> cases h; rfl
      cases md <;>
        simp only [Ar2Mode.decrypt, decryptMode0, decryptMode1, decryptMode2, decryptMode3, decryptMode4, decryptMode5,
          decryptMode6, decryptMode7] at h
      all_goals first
        | exact this h
        | (split at h
           · exact this h
           · cases h)
  induction n generalizing i sd with
  | zero => cases h
  | succ n ih =>
    simp only [ar2Pairs, Except.bind_eq_error, Memory.fetch_eq_error, Memory.fetch_eq_ok, raising_eq_error] at h
    rcases h with ⟨h, rfl⟩ | ⟨x, hx, ⟨e', h, rfl⟩ | ⟨a, ha, ⟨h, rfl⟩ | ⟨y, hy, ⟨e', h, rfl⟩ | ⟨v, hv, h⟩⟩⟩⟩
    · exact .inr ⟨i, rfl, h, by omega, by omega⟩
    · exact .inl ((code h).imp (by rintro rfl; rfl) (by rintro rfl; rfl))
    · exact .inr ⟨i + 1, rfl, h, by omega, by omega⟩
    · exact .inl ((code h).imp (by rintro rfl; rfl) (by rintro rfl; rfl))
    · split at h
      · exact (ih h).imp id fun ⟨j, h1, h2, h3, h4⟩ => ⟨j, h1, h2, by omega, by omega⟩
      · simp only [Except.bind_eq_error, Prod.exists] at h
        rcases h with h | ⟨_, _, _, h⟩
        · exact (ih h).imp id fun ⟨j, h1, h2, h3, h4⟩ => ⟨j, h1, h2, by omega, by omega⟩
        · cases h

end Sys2Proof.Machine
end

