-- ==== Sys2Proof/Laws/Armax.lean ====
section
/-! SUPPORT. What the ARMAX stage does to a buffer (R147). -/

namespace Sys2Proof.Machine

/-- The lines below index `i` and the words at or above the end are not touched, and every line takes the decryption of
the words it held. -/
theorem decryptLines_ok {sched : Vector Word 32} {n i : Nat} {m m' : Memory} (h : decryptLines sched n i m = .ok m') :
    (∀ k, k < i ∨ i + 2 * n ≤ k → m'.read k = m.read k) ∧
      ∀ k, k < n → ∃ a v, m.read (i + 2 * k) = some a ∧ m.read (i + 2 * k + 1) = some v
        ∧ m'.read (i + 2 * k) = some (decryptPair sched a v).1
        ∧ m'.read (i + 2 * k + 1) = some (decryptPair sched a v).2 := by
  induction n generalizing i m with
  | zero => cases h; exact ⟨fun _ _ => rfl, fun k hk => absurd hk (by omega)⟩
  | succ n ih =>
    simp only [decryptLines, Except.bind_eq_ok, Memory.fetch_eq_ok] at h
    obtain ⟨a, ha, v, hv, h⟩ := h
    obtain ⟨hout, hin⟩ := ih h
    have same : ∀ k, k ≠ i → k ≠ i + 1 →
        ((m.write i (decryptPair sched a v).1).write (i + 1) (decryptPair sched a v).2).read k = m.read k :=
      fun k h1 h2 => by rw [Memory.read_write_other _ _ h2, Memory.read_write_other _ _ h1]
    refine ⟨fun k hk => ?_, fun k hk => ?_⟩
    · rw [hout k (by omega), same k (by omega) (by omega)]
    · rcases k with _ | k
      · refine ⟨a, v, by simpa using ha, by simpa using hv, ?_, ?_⟩
        · rw [hout _ (by omega), Memory.read_write_other _ _ (by omega)]; simp
        · rw [hout _ (by omega)]; simp
      · obtain ⟨a', v', h1, h2, h3, h4⟩ := hin k (by omega)
        rw [same _ (by omega) (by omega)] at h1 h2
        rw [show i + 2 * (k + 1) = i + 2 + 2 * k by omega]
        exact ⟨a', v', h1, h2, h3, h4⟩

/-- The stage stops only at a word that holds no value (R43); it raises nothing. -/
theorem decryptLines_error {sched : Vector Word 32} {n i : Nat} {m : Memory} {e : Stop}
    (h : decryptLines sched n i m = .error e) :
    ∃ j, e = .noValue j ∧ m.read j = none ∧ i ≤ j ∧ j < i + 2 * n := by
  induction n generalizing i m with
  | zero => cases h
  | succ n ih =>
    simp only [decryptLines, Except.bind_eq_error, Memory.fetch_eq_error, Memory.fetch_eq_ok] at h
    rcases h with ⟨h, rfl⟩ | ⟨a, ha, ⟨h, rfl⟩ | ⟨v, hv, h⟩⟩
    · exact ⟨i, rfl, h, by omega, by omega⟩
    · exact ⟨i + 1, rfl, h, by omega, by omega⟩
    · obtain ⟨j, rfl, hj, h1, h2⟩ := ih h
      rw [Memory.read_write_other _ _ (by omega), Memory.read_write_other _ _ (by omega)] at hj
      exact ⟨j, rfl, hj, by omega, by omega⟩

theorem decryptLines_wf {sched : Vector Word 32} {n i : Nat} {m m' : Memory} (h : decryptLines sched n i m = .ok m')
    (hm : m.wf) : m'.wf := by
  induction n generalizing i m with
  | zero => cases h; exact hm
  | succ n ih =>
    simp only [decryptLines, Except.bind_eq_ok] at h
    obtain ⟨a, -, v, -, h⟩ := h
    exact ih h (Memory.wf_write (Memory.wf_write hm _ _) _ _)

theorem decryptLines_below {sched : Vector Word 32} {n i b : Nat} {m m' : Memory}
    (h : decryptLines sched n i m = .ok m') (hm : m.below b) (hb : i + 2 * n ≤ b) : m'.below b := by
  induction n generalizing i m with
  | zero => cases h; exact hm
  | succ n ih =>
    simp only [decryptLines, Except.bind_eq_ok] at h
    obtain ⟨a, -, v, -, h⟩ := h
    exact ih h (Memory.below_write (Memory.below_write hm _ (by omega)) _ (by omega)) (by omega)

/-- Over words that all hold values the stage completes. -/
theorem decryptLines_of_holds {sched : Vector Word 32} {n i : Nat} {m : Memory} (h : m.Holds i (2 * n)) :
    ∃ m', decryptLines sched n i m = .ok m' := by
  cases hd : decryptLines sched n i m with
  | ok m' => exact ⟨m', rfl⟩
  | error e =>
    obtain ⟨j, -, hj, h1, h2⟩ := decryptLines_error hd
    have := h j h1 h2
    rw [hj] at this
    cases this

end Sys2Proof.Machine
end

