-- ==== Sys2Proof/Laws/BitCursor.lean ====
section
/-! SUPPORT. What the BitCursor does: how it moves, which bits a read returns, and when a read stops (R231 to R236). -/

namespace Sys2Proof.Machine

@[simp] theorem Cursor.advance_cnt (c : Cursor) : c.advance.cnt = c.cnt := by unfold Cursor.advance; split <;> rfl

theorem Cursor.off_lt (c : Cursor) : c.off.toNat < 32 := c.off.isLt

theorem Cursor.position_div (c : Cursor) : c.position / 32 = c.idx.toNat := by
  have := c.off_lt; unfold Cursor.position; omega

theorem Cursor.position_mod (c : Cursor) : c.position % 32 = c.off.toNat := by
  have := c.off_lt; unfold Cursor.position; omega

/-- A cursor is its position and its word count. -/
theorem Cursor.ext_position {c d : Cursor} (hp : c.position = d.position) (hc : c.cnt = d.cnt) : c = d := by
  have hi : c.idx = d.idx := BitVec.eq_of_toNat_eq (by rw [← c.position_div, ← d.position_div, hp])
  have ho : c.off = d.off := BitVec.eq_of_toNat_eq (by rw [← c.position_mod, ← d.position_mod, hp])
  cases c; cases d; simp_all

/-- One bit further (R234), while the word index does not leave its 11 bits. -/
theorem Cursor.advance_position (c : Cursor) (h : c.position < 65535) : c.advance.position = c.position + 1 := by
  have ho := c.off_lt
  have hi : c.idx.toNat < 2048 := c.idx.isLt
  unfold Cursor.advance
  split
  · rename_i h31
    have : c.off.toNat = 31 := by rw [h31]; rfl
    simp only [Cursor.position, BitVec.toNat_add, BitVec.toNat_ofNat] at *
    omega
  · rename_i h31
    have : c.off.toNat ≠ 31 := fun h' => h31 (BitVec.eq_of_toNat_eq (by rw [h']; rfl))
    simp only [Cursor.position, BitVec.toNat_add, BitVec.toNat_ofNat] at *
    omega

/-- The bit a cursor stands at (R231). -/
theorem Cursor.bitAt_position {c : Cursor} {m : Memory} {w : Word} (h : m.read c.idx.toNat = some w) :
    m.bitAt c.position = some (c.bitOf w) := by
  unfold Memory.bitAt Cursor.bitOf
  rw [c.position_div, c.position_mod, h]; rfl

theorem shiftIn_getLsbD (r : Word) (b : Bool) (i : Nat) :
    (shiftIn r b).getLsbD i = if i = 0 then b else (decide (i < 32) && r.getLsbD (i - 1)) := by
  unfold shiftIn
  rw [BitVec.getLsbD_or, BitVec.getLsbD_shiftLeft]
  by_cases h : i = 0
  · subst h; cases b <;> simp
  · have : (if b then 1#32 else 0#32).getLsbD i = false := by
      cases b <;> simp [BitVec.getLsbD_one, h]
    rw [this, if_neg h]; simp [h]

/-- The bits from position `g` on that a read of `n` bits returns: the first is the most significant (R232). -/
def bitsFrom (m : Memory) : (n g : Nat) → Word → Word
  | 0, _, r => r
  | n + 1, g, r => bitsFrom m n (g + 1) (shiftIn r ((m.bitAt g).getD false))

/-- The loop of a read whose words hold values gives the bits from its position on, and moves by their number. -/
theorem readLoop_ok {m : Memory} {n : Nat} {c : Cursor} {r : Word} (hp : c.position + n ≤ 65535)
    (hv : ∀ g, c.position ≤ g → g < c.position + n → (m.read (g / 32)).isSome = true) :
    ∃ d, readLoop m n c r = .ok (bitsFrom m n c.position r, d) ∧ d.position = c.position + n ∧ d.cnt = c.cnt := by
  induction n generalizing c r with
  | zero => exact ⟨c, rfl, rfl, rfl⟩
  | succ n ih =>
    obtain ⟨w, hw⟩ := Option.isSome_iff_exists.1 (hv c.position (Nat.le_refl _) (by omega))
    rw [c.position_div] at hw
    have ha := c.advance_position (by omega)
    obtain ⟨d, hd, hpos, hcnt⟩ := ih (c := c.advance) (r := shiftIn r (c.bitOf w)) (by omega)
      (fun g h1 h2 => hv g (by omega) (by omega))
    refine ⟨d, ?_, by omega, by rw [hcnt, Cursor.advance_cnt]⟩
    rw [readLoop, Memory.fetch_eq_ok.2 hw]
    simp only [bitsFrom, Cursor.bitAt_position hw, Option.getD_some]
    rw [hd, ha]

/-- The loop of a read stops only at a word that holds no value (R43). -/
theorem readLoop_error {m : Memory} {n : Nat} {c : Cursor} {r : Word} {e : Stop} (h : readLoop m n c r = .error e) :
    ∃ i, e = .noValue i ∧ m.read i = none := by
  induction n generalizing c r with
  | zero => cases h
  | succ n ih =>
    unfold readLoop at h
    split at h
    · rename_i hf
      cases h
      exact ⟨_, (Memory.fetch_eq_error.1 hf).2, (Memory.fetch_eq_error.1 hf).1⟩
    · exact ih h

/-- The bits of a read's result: bit `n - 1 - j` is bit `g + j` of the sequence, and the bits above are those of the
accumulator. -/
theorem bitsFrom_getLsbD (m : Memory) (n g : Nat) (r : Word) (i : Nat) (hn : n ≤ 32) (hi : i < 32) :
    (bitsFrom m n g r).getLsbD i =
      if i < n then (m.bitAt (g + (n - 1 - i))).getD false else r.getLsbD (i - n) := by
  induction n generalizing g r with
  | zero => simp [bitsFrom]
  | succ n ih =>
    rw [bitsFrom, ih _ _ (by omega)]
    by_cases h1 : i < n
    · rw [if_pos h1, if_pos (by omega)]
      congr 2
      omega
    · rw [if_neg h1, shiftIn_getLsbD]
      by_cases h2 : i = n
      · subst h2; simp
      · rw [if_neg (by omega), if_neg (by omega)]
        simp only [show i - n < 32 by omega, decide_true, Bool.true_and]
        congr 1

/-- A read that fits: it returns the bits from its position on and moves by their number (R232 to R234). -/
theorem readBits_ok {m : Memory} {n : Nat} {c : Cursor} (hb : n = 0 ∨ c.position + n ≤ 32 * c.cnt.toNat)
    (hv : ∀ g, c.position ≤ g → g < c.position + n → (m.read (g / 32)).isSome = true) :
    ∃ d, readBits m n c = .ok (bitsFrom m n c.position 0, d) ∧ d.position = c.position + n ∧ d.cnt = c.cnt := by
  have hc : c.cnt.toNat < 2048 := c.cnt.isLt
  have hi : c.idx.toNat < 2048 := c.idx.isLt
  have ho := c.off_lt
  have hp : c.position + n ≤ 65535 := by
    rcases hb with rfl | hb
    · unfold Cursor.position; omega
    · omega
  obtain ⟨d, hd⟩ := readLoop_ok (r := 0) hp hv
  refine ⟨d, ?_, hd.2⟩
  rw [readBits, if_neg (by rcases hb with rfl | hb <;> omega)]
  exact hd.1

/-- A read past the end raises MALFORMED_INPUT before any bit is consumed (R233). -/
theorem readBits_past_end {m : Memory} {n : Nat} {c : Cursor} (hn : 0 < n) (h : 32 * c.cnt.toNat < c.position + n) :
    readBits m n c = .error (.raised .malformedInput) := by rw [readBits, if_pos ⟨hn, h⟩]

/-- Why a read stops: past the end, or at a word that holds no value. -/
theorem readBits_error {m : Memory} {n : Nat} {c : Cursor} {e : Stop} (h : readBits m n c = .error e) :
    (e = .raised .malformedInput ∧ 0 < n ∧ 32 * c.cnt.toNat < c.position + n) ∨
      ∃ i, e = .noValue i ∧ m.read i = none := by
  unfold readBits at h
  split at h
  · cases h; exact .inl ⟨rfl, by assumption⟩
  · exact .inr (readLoop_error h)

theorem readLoop_cnt {m : Memory} {n : Nat} {c d : Cursor} {r x : Word} (h : readLoop m n c r = .ok (x, d)) :
    d.cnt = c.cnt := by
  induction n generalizing c r with
  | zero => cases h; rfl
  | succ n ih =>
    unfold readLoop at h
    split at h
    · cases h
    · rw [ih h, Cursor.advance_cnt]

/-- A read keeps the word count (R237). -/
theorem readBits_cnt {m : Memory} {n : Nat} {c d : Cursor} {x : Word} (h : readBits m n c = .ok (x, d)) :
    d.cnt = c.cnt := by
  unfold readBits at h
  split at h
  · cases h
  · exact readLoop_cnt h

/-- In a buffer whose words below `word_count` all hold values, a read either fits or passes the end. -/
theorem readBits_of_holds {m : Memory} {n : Nat} {c : Cursor} (hv : m.Holds 0 c.cnt.toNat) :
    (∃ d, readBits m n c = .ok (bitsFrom m n c.position 0, d) ∧ d.position = c.position + n ∧ d.cnt = c.cnt
        ∧ (n = 0 ∨ c.position + n ≤ 32 * c.cnt.toNat)) ∨
      (readBits m n c = .error (.raised .malformedInput) ∧ 0 < n ∧ 32 * c.cnt.toNat < c.position + n) := by
  by_cases h : 0 < n ∧ 32 * c.cnt.toNat < c.position + n
  · exact .inr ⟨readBits_past_end h.1 h.2, h⟩
  · refine .inl ?_
    have hb : n = 0 ∨ c.position + n ≤ 32 * c.cnt.toNat := by omega
    obtain ⟨d, hd⟩ := readBits_ok (m := m) hb (fun g h1 h2 => hv _ (Nat.zero_le _) (by omega))
    exact ⟨d, hd.1, hd.2.1, hd.2.2, hb⟩

end Sys2Proof.Machine
end

