-- ==== Sys2Proof/Laws/Decode.lean ====
section
/-! SUPPORT. The two fields of a command word (R100), taken apart and put together. -/

namespace Sys2Proof

@[simp] theorem opcodeOf_cmdWord (ig : BitVec 24) (op : Byte) : opcodeOf (cmdWord ig op) = op := by
  have h : (ig ++ op : BitVec (24 + 8)).extractLsb' 0 8 = op := BitVec.extractLsb'_append_eq_right
  exact h

@[simp] theorem ignoredOf_cmdWord (ig : BitVec 24) (op : Byte) : ignoredOf (cmdWord ig op) = ig := by
  have h : (ig ++ op : BitVec (24 + 8)).extractLsb' 8 24 = ig := BitVec.extractLsb'_append_eq_left
  exact h

/-- A word is its two fields. -/
@[simp] theorem cmdWord_fields (w : Word) : cmdWord (ignoredOf w) (opcodeOf w) = w := by
  have h : (ignoredOf w ++ opcodeOf w : BitVec (24 + 8)) = w := by
    refine BitVec.eq_of_getLsbD_eq fun i hi => ?_
    rw [BitVec.getLsbD_append]
    split
    · simp [opcodeOf, *]
    · rw [ignoredOf, BitVec.getLsbD_extractLsb', show 8 + (i - 8) = i by omega]
      simp [show i - 8 < 24 by omega]
  exact h

end Sys2Proof
end

