-- ==== Sys2Proof/Laws/Metadata.lean ====
section
/-! SUPPORT. What the metadata decoder and the verifier scan do (R250 to R260). -/

namespace Sys2Proof.Machine

theorem State.metaStart_position (s : State) : s.metaStart.position = 4 := rfl

theorem State.verifierStart_position (s : State) : s.verifierStart.position = 40 := rfl

@[simp] theorem State.metaStart_cnt (s : State) : s.metaStart.cnt = s.wcount := rfl

@[simp] theorem State.verifierStart_cnt (s : State) : s.verifierStart.cnt = s.wcount := rfl

/-- The five reads keep the word count. -/
theorem metaFields_cnt {m : Memory} {c d : Cursor} {f : MetaFields} (h : metaFields m c = .ok (f, d)) :
    d.cnt = c.cnt := by
  simp only [metaFields, Except.bind_eq_ok, Prod.exists] at h
  obtain ⟨_, _, h1, _, _, h2, _, _, h3, _, _, h4, _, _, h5, h6⟩ := h
  cases h6
  rw [readBits_cnt h5, readBits_cnt h4, readBits_cnt h3, readBits_cnt h2, readBits_cnt h1]

/-- Why the metadata decoder stops. -/
theorem metaFields_error {m : Memory} {c : Cursor} {e : Stop} (h : metaFields m c = .error e) :
    e = .raised .malformedInput ∨ ∃ i, e = .noValue i ∧ m.read i = none := by
  simp only [metaFields, Except.bind_eq_error, Prod.exists] at h
  rcases h with h | ⟨_, _, _, h | ⟨_, _, _, h | ⟨_, _, _, h | ⟨_, _, _, h | ⟨_, _, _, h⟩⟩⟩⟩⟩
  all_goals first
    | exact (readBits_error h).imp And.left id
    | cases h

/-- The five reads over words that hold values: the fields, at the places of R108, or MALFORMED_INPUT. -/
theorem metaFields_of_holds {m : Memory} {c : Cursor} (hv : m.Holds 0 c.cnt.toNat) :
    (∃ f d, metaFields m c = .ok (f, d) ∧ d.position = c.position + 36 ∧ d.cnt = c.cnt
        ∧ c.position + 36 ≤ 32 * c.cnt.toNat) ∨
      metaFields m c = .error (.raised .malformedInput) := by
  cases h : metaFields m c with
  | error e =>
    right
    simp only [metaFields, Except.bind_eq_error, Prod.exists] at h
    have key : ∀ {n : Nat} {c' : Cursor}, c'.cnt = c.cnt → readBits m n c' = .error e →
        e = .raised .malformedInput := by
      intro n c' hc' he
      rcases readBits_of_holds (m := m) (n := n) (c := c') (by rw [hc']; exact hv) with ⟨d, hd, -⟩ | ⟨hd, -⟩
      · rw [hd] at he; cases he
      · rw [hd] at he; cases he; rfl
    rcases h with h | ⟨_, c1, h1, h | ⟨_, c2, h2, h | ⟨_, c3, h3, h | ⟨_, c4, h4, h | ⟨_, c5, h5, h⟩⟩⟩⟩⟩
    · rw [key rfl h]
    · rw [key (readBits_cnt h1) h]
    · rw [key ((readBits_cnt h2).trans (readBits_cnt h1)) h]
    · rw [key ((readBits_cnt h3).trans ((readBits_cnt h2).trans (readBits_cnt h1))) h]
    · rw [key ((readBits_cnt h4).trans ((readBits_cnt h3).trans ((readBits_cnt h2).trans (readBits_cnt h1)))) h]
    · cases h
  | ok r =>
    obtain ⟨f, d⟩ := r
    left
    refine ⟨f, d, rfl, ?_⟩
    simp only [metaFields, Except.bind_eq_ok, Prod.exists] at h
    obtain ⟨_, c1, h1, _, c2, h2, _, c3, h3, _, c4, h4, _, c5, h5, h6⟩ := h
    cases h6
    have key : ∀ {n : Nat} {c' d' : Cursor} {x : Word}, 0 < n → c'.cnt = c.cnt → readBits m n c' = .ok (x, d') →
        d'.position = c'.position + n ∧ d'.cnt = c.cnt ∧ c'.position + n ≤ 32 * c.cnt.toNat := by
      intro n c' d' x hn hc' he
      rcases readBits_of_holds (m := m) (n := n) (c := c') (by rw [hc']; exact hv) with ⟨d, hd, hp, hq, hb⟩ | ⟨hd, -⟩
      · rw [hd] at he; cases he; rw [hc'] at hq hb; exact ⟨hp, hq, by omega⟩
      · rw [hd] at he; cases he
    obtain ⟨p1, q1, b1⟩ := key (by decide) rfl h1
    obtain ⟨p2, q2, b2⟩ := key (by decide) q1 h2
    obtain ⟨p3, q3, b3⟩ := key (by decide) q2 h3
    obtain ⟨p4, q4, b4⟩ := key (by decide) q3 h4
    obtain ⟨p5, q5, b5⟩ := key (by decide) q4 h5
    exact ⟨by omega, q5, by omega⟩

theorem verWidth_le (sel : BitVec 3) : verWidth sel ≤ 32 := by revert sel; decide

theorem verWidth_pos (sel : BitVec 3) : 6 ≤ verWidth sel := by revert sel; decide

/-- The scan keeps the word count. -/
theorem scanLoop_cnt {m : Memory} {fuel used u : Nat} {c d : Cursor} (h : scanLoop m fuel used c = .ok (u, d)) :
    d.cnt = c.cnt := by
  induction fuel generalizing used c with
  | zero => cases h
  | succ fuel ih =>
    simp only [scanLoop, Except.bind_eq_ok, Prod.exists] at h
    obtain ⟨_, c1, h1, h⟩ := h
    split at h
    · simp only [Except.bind_eq_ok, Prod.exists] at h
      obtain ⟨_, c2, h2, _, c3, h3, h4⟩ := h
      rw [ih h4, readBits_cnt h3, readBits_cnt h2, readBits_cnt h1]
    · cases h; exact readBits_cnt h1

theorem scan_cnt {m : Memory} {u : Nat} {c d : Cursor} (h : scan m c = .ok (u, d)) : d.cnt = c.cnt := scanLoop_cnt h

/-- Why the scan stops (R260). -/
theorem scanLoop_error {m : Memory} {fuel used : Nat} {c : Cursor} {e : Stop} (h : scanLoop m fuel used c = .error e) :
    e = .raised .malformedInput ∨ ∃ i, e = .noValue i ∧ m.read i = none := by
  induction fuel generalizing used c with
  | zero => cases h; exact .inl rfl
  | succ fuel ih =>
    simp only [scanLoop, Except.bind_eq_error, Prod.exists] at h
    rcases h with h | ⟨_, _, _, h⟩
    · exact (readBits_error h).imp And.left id
    · split at h
      · simp only [Except.bind_eq_error, Prod.exists] at h
        rcases h with h | ⟨_, _, _, h | ⟨_, _, _, h⟩⟩
        · exact (readBits_error h).imp And.left id
        · exact (readBits_error h).imp And.left id
        · exact ih h
      · cases h

theorem scan_error {m : Memory} {c : Cursor} {e : Stop} (h : scan m c = .error e) :
    e = .raised .malformedInput ∨ ∃ i, e = .noValue i ∧ m.read i = none := scanLoop_error h

/-- In a buffer whose words below `word_count` hold values, the scan ends or raises MALFORMED_INPUT. -/
theorem scanLoop_of_holds {m : Memory} {fuel used : Nat} {c : Cursor} (hv : m.Holds 0 c.cnt.toNat) :
    (∃ u d, scanLoop m fuel used c = .ok (u, d)) ∨ scanLoop m fuel used c = .error (.raised .malformedInput) := by
  induction fuel generalizing used c with
  | zero => exact .inr rfl
  | succ fuel ih =>
    rcases readBits_of_holds (n := 1) hv with ⟨c1, h1, -, q1, -⟩ | ⟨h1, -⟩
    · rw [scanLoop, h1]
      simp only [bind, Except.bind]
      split
      · rcases readBits_of_holds (m := m) (n := 3) (c := c1) (by rw [q1]; exact hv) with ⟨c2, h2, -, q2, -⟩ | ⟨h2, -⟩
        · rw [h2]
          simp only
          generalize verWidth _ = n
          rcases readBits_of_holds (m := m) (n := n) (c := c2) (by rw [q2, q1]; exact hv) with
            ⟨c3, h3, -, q3, -⟩ | ⟨h3, -⟩
          · rw [h3]; exact ih (by rw [q3, q2, q1]; exact hv)
          · rw [h3]; exact .inr rfl
        · rw [h2]; exact .inr rfl
      · exact .inl ⟨_, _, rfl⟩
    · rw [scanLoop, h1]; exact .inr rfl

/-- The bound of the scan is never reached: from a bound above the bits that are left, a larger bound changes nothing
(R260). -/
theorem scanLoop_fuel {m : Memory} {fuel used : Nat} {c : Cursor} (hf : 32 * c.cnt.toNat < c.position + fuel)
    (hp : c.position ≤ 32 * c.cnt.toNat) : scanLoop m (fuel + 1) used c = scanLoop m fuel used c := by
  have step_pos : ∀ {n : Nat} {c c' : Cursor} {x : Word}, 0 < n → readBits m n c = .ok (x, c') →
      c'.position = c.position + n ∧ c'.cnt = c.cnt ∧ c.position + n ≤ 32 * c.cnt.toNat := by
    intro n c c' x hn h
    unfold readBits at h
    split at h
    · cases h
    · rename_i hb
      have hle : c.position + n ≤ 32 * c.cnt.toNat := by omega
      have hc : c.cnt.toNat < 2048 := c.cnt.isLt
      refine ⟨?_, readLoop_cnt h, hle⟩
      clear hb hn
      have : ∀ {n : Nat} {c c' : Cursor} {r x : Word}, c.position + n ≤ 65535 → readLoop m n c r = .ok (x, c') →
          c'.position = c.position + n := by
        intro n
        induction n with
        | zero => intro c c' r x _ h; cases h; rfl
        | succ n ih =>
          intro c c' r x hle h
          unfold readLoop at h
          split at h
          · cases h
          · have ha := c.advance_position (by omega)
            rw [ih (by omega) h]; omega
      exact this (by omega) h
  induction fuel generalizing used c with
  | zero => omega
  | succ fuel ih =>
    rw [scanLoop, scanLoop]
    cases h1 : readBits m 1 c with
    | error e => rfl
    | ok r1 =>
      obtain ⟨x1, c1⟩ := r1
      obtain ⟨p1, q1, b1⟩ := step_pos (by decide) h1
      simp only [bind, Except.bind]
      split
      · cases h2 : readBits m 3 c1 with
        | error e => rfl
        | ok r2 =>
          obtain ⟨x2, c2⟩ := r2
          obtain ⟨p2, q2, b2⟩ := step_pos (by decide) h2
          simp only
          have hw := verWidth_pos (x2.setWidth 3)
          cases h3 : readBits m (verWidth (x2.setWidth 3)) c2 with
          | error e => rfl
          | ok r3 =>
            obtain ⟨x3, c3⟩ := r3
            obtain ⟨p3, q3, b3⟩ := step_pos (by omega) h3
            simp only
            rw [q2, q1] at b3
            rw [q1] at b2
            exact ih (by rw [q3, q2, q1]; omega) (by rw [q3, q2, q1]; omega)
      · rfl

end Sys2Proof.Machine
end

