-- ==== Sys2Proof/Laws/Step.lean ====
section
/-! SUPPORT. What a step can do, said once (R30, R79, R82), and the parts of DECODE_CHEAT (R281). -/

namespace Sys2Proof.Machine

/-- A CMD write is offset 0 (R71). -/
theorem State.target_eq_cmd (s : State) (offset : Nat) (h : offset % 4 = 0) : s.target offset = .reg .cmd ↔ offset = 0 := by
  unfold State.target decodeOffset
  constructor
  · intro ht
    split at ht
    · rename_i h48
      obtain ⟨q, rfl⟩ : ∃ q, offset = 4 * q := ⟨offset / 4, by omega⟩
      rw [Nat.mul_div_cancel_left _ (by decide)] at ht
      have hq : q < 18 := by omega
      interval_cases q <;> simp_all [regList]
    · split at ht
      · cases ht
      · split at ht
        · cases ht
        · split at ht <;> cases ht
  · rintro rfl; rfl

/-- The offset of a register names it, whatever the depth (R71). -/
@[simp] theorem State.target_regOffset (s : State) (r : Reg) : s.target (regOffset r) = .reg r := by
  show decodeOffset _ _ = _
  cases r <;> rfl

/-- The accesses to a register's offset are well formed (R70). -/
@[simp] theorem Access.wellFormed_write_regOffset (r : Reg) (v : Word) :
    (Access.write (regOffset r) 4 v).wellFormed = true := by
  cases r <;> simp [Access.wellFormed, Access.size, Access.offset, regOffset]

@[simp] theorem Access.wellFormed_read_regOffset (r : Reg) : (Access.read (regOffset r) 4).wellFormed = true := by
  cases r <;> simp [Access.wellFormed, Access.size, Access.offset, regOffset]

/-- A step whose next event is a well-formed read. -/
theorem step_of_read {s : State} {o n : Nat} {rest : List HostEvent} (hb : s.bus = .access (.read o n) :: rest)
    (hw : (Access.read o n).wellFormed = true) : step s = .next (({ s with bus := rest } : State).hostRead o) := by
  simp only [step, hb, handle, hw, perform, if_true]

/-- A step whose next event is a well-formed write to an offset other than CMD. -/
theorem step_of_write {s : State} {o n : Nat} {v : Word} {rest : List HostEvent}
    (hb : s.bus = .access (.write o n v) :: rest) (hw : (Access.write o n v).wellFormed = true)
    (ht : s.target o ≠ .reg .cmd) : step s = .next (({ s with bus := rest } : State).hostWrite o v) := by
  have ht' : ({ s with bus := rest } : State).target o ≠ .reg .cmd := ht
  simp only [step, hb, handle, hw, perform, if_true, if_neg ht']

/-- Every kind of step that has a next state. -/
theorem step_cases {s t : State} (h : step s = .next t) :
    (s.bus = [] ∧ t = s) ∨
      (∃ rest, s.bus = .reset :: rest ∧ t = ({ s with bus := rest } : State).platformReset) ∨
      (∃ o n rest, s.bus = .access (.read o n) :: rest ∧ (Access.read o n).wellFormed = true
        ∧ t = ({ s with bus := rest } : State).hostRead o) ∨
      (∃ o n v rest, s.bus = .access (.write o n v) :: rest ∧ (Access.write o n v).wellFormed = true
        ∧ ((s.target o ≠ .reg .cmd ∧ t = ({ s with bus := rest } : State).hostWrite o v) ∨
          (s.target o = .reg .cmd ∧ issue { s with bus := rest } v = .next t))) := by
  unfold step at h
  split at h
  · cases h; exact .inl ⟨by assumption, rfl⟩
  · rename_i e rest hb
    right
    unfold handle at h
    split at h
    · cases h; exact .inl ⟨rest, hb, rfl⟩
    · right
      rename_i a
      split at h
      · rename_i hw
        cases a with
        | read o n => cases h; exact .inl ⟨o, n, rest, hb, hw, rfl⟩
        | write o n v =>
          refine .inr ⟨o, n, v, rest, hb, hw, ?_⟩
          simp only [perform] at h
          split at h
          · rename_i ht; exact .inr ⟨ht, h⟩
          · rename_i ht; cases h; exact .inl ⟨ht, rfl⟩
      · cases h

/-- A write to CMD runs its command or takes ILLEGAL_COMMAND (R100, R103). -/
theorem issue_cases (s : State) (w : Word) :
    (∃ i, decodeCmd w = .ok i ∧ issue s w = exec i s) ∨
      (∃ e, decodeCmd w = .error e ∧ issue s w = .next { s with err := .illegalCommand, sticky := true }) := by
  unfold issue
  cases h : decodeCmd w with
  | ok i => exact .inl ⟨i, rfl, rfl⟩
  | error e => exact .inr ⟨e, rfl, rfl⟩

theorem Memory.words_eq_ok {m : Memory} {n i : Nat} {ws : List Word} :
    m.words n i = .ok ws ↔ ws.length = n ∧ ∀ k, k < n → m.read (i + k) = ws[k]? := by
  induction n generalizing i ws with
  | zero => cases ws <;> simp [Memory.words]
  | succ n ih =>
    simp only [Memory.words, Except.bind_eq_ok, Memory.fetch_eq_ok]
    constructor
    · rintro ⟨w, hw, us, hu, h⟩
      cases h
      obtain ⟨h1, h2⟩ := ih.1 hu
      refine ⟨by simp [h1], fun k hk => ?_⟩
      rcases k with _ | k
      · simpa using hw
      · rw [show i + (k + 1) = i + 1 + k by omega, h2 k (by omega)]; simp
    · rintro ⟨h1, h2⟩
      cases ws with
      | nil => simp at h1
      | cons w us =>
        refine ⟨w, by simpa using h2 0 (by omega), us, ih.2 ⟨by simpa using h1, fun k hk => ?_⟩, rfl⟩
        have := h2 (k + 1) (by omega)
        rw [show i + (k + 1) = i + 1 + k by omega] at this
        simpa using this

theorem Memory.words_error {m : Memory} {n i : Nat} {e : Stop} (h : m.words n i = .error e) :
    ∃ j, e = .noValue j ∧ m.read j = none ∧ i ≤ j ∧ j < i + n := by
  induction n generalizing i with
  | zero => cases h
  | succ n ih =>
    simp only [Memory.words, Except.bind_eq_error, Memory.fetch_eq_error] at h
    rcases h with ⟨h, rfl⟩ | ⟨w, -, h | ⟨_, _, h⟩⟩
    · exact ⟨i, rfl, h, by omega, by omega⟩
    · obtain ⟨j, h1, h2, h3, h4⟩ := ih h; exact ⟨j, h1, h2, by omega, by omega⟩
    · cases h

end Sys2Proof.Machine
end

