-- ==== Sys2Proof/Laws/Exec.lean ====
section
/-! SUPPORT. What each command can do when it has a next state, said once: its result with ERR = 0, a check fault, or a
data fault (R307, R308). Later proofs take a command apart with these and never unfold it. -/

namespace Sys2Proof.Machine

/-! ### The data faults (R307) -/

theorem State.takeFault_stream (s : State) (e : ErrCode) :
    s.takeFault e [.obuf, .ocount, .seed] =
      { s with
        obuf := s.obuf.writeWords 0 ((List.range s.params.wbufDepth).map (Config.freeObuf s.freeCount))
        ocount := Config.freeOcount s.freeCount
        seed := regenerate (Config.freeSeed s.freeCount)
        err := e, sticky := true, freeCount := s.freeCount + 3 } := by
  simp only [State.takeFault, List.foldl, State.spoil, List.length]

theorem State.takeFault_meta (s : State) (e : ErrCode) :
    s.takeFault e [.md, .cursor] =
      { s with
        mdGame := Config.freeMdGame s.freeCount, mdCheat := Config.freeMdCheat s.freeCount
        mdEnable := Config.freeMdEnable s.freeCount, mdRegion := Config.freeMdRegion s.freeCount
        cur :=
          { idx := Config.freeCurIdx s.freeCount, off := Config.freeCurOff s.freeCount
            cnt := Config.freeCurCnt s.freeCount }
        err := e, sticky := true, freeCount := s.freeCount + 2 } := by
  simp only [State.takeFault, List.foldl, State.spoil, List.length]

theorem State.takeFault_verify (s : State) (e : ErrCode) :
    s.takeFault e [.verLines, .cursor] =
      { s with
        verLines := Config.freeVerLines s.freeCount
        cur :=
          { idx := Config.freeCurIdx s.freeCount, off := Config.freeCurOff s.freeCount
            cnt := Config.freeCurCnt s.freeCount }
        err := e, sticky := true, freeCount := s.freeCount + 2 } := by
  simp only [State.takeFault, List.foldl, State.spoil, List.length]

theorem State.takeFault_decode (s : State) (e : ErrCode) :
    s.takeFault e decodeDests =
      { s with
        wbuf := s.wbuf.writeWords 0 ((List.range s.wcount.toNat).map (Config.freeWbuf s.freeCount))
        mdGame := Config.freeMdGame s.freeCount, mdCheat := Config.freeMdCheat s.freeCount
        mdEnable := Config.freeMdEnable s.freeCount, mdRegion := Config.freeMdRegion s.freeCount
        verLines := Config.freeVerLines s.freeCount
        cur :=
          { idx := Config.freeCurIdx s.freeCount, off := Config.freeCurOff s.freeCount
            cnt := Config.freeCurCnt s.freeCount }
        obuf := s.obuf.writeWords 0 ((List.range s.params.wbufDepth).map (Config.freeObuf s.freeCount))
        ocount := Config.freeOcount s.freeCount
        seed := regenerate (Config.freeSeed s.freeCount)
        err := e, sticky := true, freeCount := s.freeCount + 7 } := by
  simp only [State.takeFault, decodeDests, List.foldl, State.spoil, List.length]

/-! ### The commands -/

/-- A command's checks pass and it goes on, or it takes a check fault. -/
theorem State.checked_next {s t : State} {l : List (Bool × ErrCode)} {k : Host.Outcome State Fault Refusal}
    (hl : ∀ c ∈ l, c.2 ≠ .ok) (h : s.checked l k = .next t) :
    ((∀ c ∈ l, c.1 = false) ∧ k = .next t) ∨ ∃ e, e ≠ .ok ∧ t = { s with err := e, sticky := true } := by
  rcases s.checked_cases l k with ⟨hp, he⟩ | ⟨e, he, h'⟩
  · exact .inl ⟨hp, he ▸ h⟩
  · obtain ⟨pre, post, hh, -⟩ := firstError_eq_some he
    rw [h'] at h
    cases h
    exact .inr ⟨e, hl (true, e) (by simp [hh]), rfl⟩

/-- The checks of ARMAX_BUF and DECODE_CHEAT pass on a ready core with an even count inside the depth. -/
theorem State.armaxChecks_pass {s : State} :
    (∀ c ∈ s.armaxChecks, c.1 = false) ↔
      s.wcount.toNat ≤ s.params.wbufDepth ∧ s.schedValid = true ∧ s.wcount.toNat % 2 = 0 := by
  simp [State.armaxChecks, State.wcountAboveDepth, State.wcountOdd]

theorem State.armaxChecks_ne_ok (s : State) : ∀ c ∈ s.armaxChecks, c.2 ≠ .ok := by
  simp [State.armaxChecks]

/-- ARMAX_PAIR (R146). -/
theorem execArmaxPair_next {s t : State} (h : execArmaxPair s = .next t) :
    (s.schedValid = true ∧ t =
        { s with
          res0 := (decryptPair s.sched s.opa s.opb).1, res1 := (decryptPair s.sched s.opa s.opb).2, err := .ok }) ∨
      ∃ e, e ≠ .ok ∧ t = { s with err := e, sticky := true } := by
  rcases State.checked_next (by simp) h with ⟨hp, hk⟩ | h
  · cases hk; exact .inl ⟨by simpa using hp, rfl⟩
  · exact .inr h

/-- ARMAX_BUF (R147): its loop cannot fault. -/
theorem execArmaxBuf_next {s t : State} (h : execArmaxBuf s = .next t) :
    (∃ m, s.wcount.toNat ≤ s.params.wbufDepth ∧ s.schedValid = true ∧ s.wcount.toNat % 2 = 0
        ∧ decryptLines s.sched (s.wcount.toNat / 2) 0 s.wbuf = .ok m ∧ t = { s with wbuf := m, err := .ok }) ∨
      ∃ e, e ≠ .ok ∧ t = { s with err := e, sticky := true } := by
  rcases State.checked_next s.armaxChecks_ne_ok h with ⟨hp, hk⟩ | h
  · obtain ⟨h1, h2, h3⟩ := State.armaxChecks_pass.1 hp
    rcases State.conclude_next hk with ⟨u, hu, rfl⟩ | ⟨e, he, -⟩
    · obtain ⟨m, hm, rfl⟩ := Except.map_eq_ok.1 hu
      exact .inl ⟨m, h1, h2, h3, hm, rfl⟩
    · obtain ⟨j, hj, -⟩ := decryptLines_error (Except.map_eq_error.1 he)
      cases hj
  · exact .inr h

/-- `decrypt_code` raises UNSUPPORTED_MODE or SEED_RANGE, and nothing else (R302, R303). -/
theorem decryptCode_error {p : Params} {w : Word} {c s : Byte} {e : ErrCode} (h : decryptCode p w c s = .error e) :
    e = .unsupportedMode ∨ e = .seedRange := by
  have seeded_error : ∀ {f : Fin 32 → Word}, seeded s f = .error e → e = .seedRange := by
    intro f hf
    unfold seeded at hf
    split at hf <;> cases hf
    rfl
  unfold decryptCode at h
  split at h
  · cases h; exact .inl rfl
  · rename_i m _
    right
    cases m
    all_goals simp only [Ar2Mode.decrypt, decryptMode0, decryptMode1, decryptMode2, decryptMode3, decryptMode4,
      decryptMode5, decryptMode6, decryptMode7] at h
    case metaMode =>
      split at h
      · exact seeded_error h
      · cases h
    all_goals exact seeded_error h

/-- AR2_CODE and the control values, whose transform raises what `decrypt_code` raises (R212). -/
theorem State.concludeRes0_next {s t : State} {r : Except ErrCode Word} (hr : ∀ e, r = .error e → e ≠ .ok)
    (h : s.concludeRes0 r = .next t) :
    (∃ w, r = .ok w ∧ t = { s with res0 := w, err := .ok }) ∨ ∃ e, e ≠ .ok ∧ t = { s with err := e, sticky := true } := by
  rcases s.concludeRes0_cases r with ⟨w, hw, h'⟩ | ⟨e, he, h'⟩ <;> rw [h'] at h <;> cases h
  · exact .inl ⟨w, hw, rfl⟩
  · exact .inr ⟨e, hr e he, rfl⟩

/-- AR2_STREAM (R213). -/
theorem execAr2Stream_next {s t : State} (h : execAr2Stream s = .next t) :
    (∃ out sd, s.wcount.toNat ≤ s.params.wbufDepth ∧ s.wcount.toNat % 2 = 0
        ∧ ar2Pairs s.params s.wbuf (s.wcount.toNat / 2) 0 s.seed = .ok (out, sd)
        ∧ t = { s with
            obuf := s.obuf.writeWords 0 out, ocount := BitVec.ofNat 11 out.length, seed := sd, err := .ok }) ∨
      (∃ e, e ≠ .ok ∧ t = { s with err := e, sticky := true }) ∨
      ∃ e, e ≠ .ok ∧ s.wcount.toNat ≤ s.params.wbufDepth ∧ t = s.takeFault e [.obuf, .ocount, .seed] := by
  rcases State.checked_next (by simp) h with ⟨hp, hk⟩ | h
  · obtain ⟨h1, h2⟩ : s.wcount.toNat ≤ s.params.wbufDepth ∧ s.wcount.toNat % 2 = 0 := by
      simpa [State.wcountAboveDepth, State.wcountOdd] using hp
    rcases State.conclude_next hk with ⟨u, hu, rfl⟩ | ⟨e, he, rfl⟩
    · obtain ⟨⟨out, sd⟩, hm, rfl⟩ := Except.map_eq_ok.1 hu
      refine .inl ⟨out, sd, h1, h2, hm, ?_⟩
      simp [State.succeed]
    · refine .inr (.inr ⟨e, ?_, h1, rfl⟩)
      rcases ar2Pairs_error (Except.map_eq_error.1 he) with (h | h) | ⟨j, h, -⟩ <;> cases h <;> simp
  · exact .inr (.inl h)

/-- CUR_READ (R237): every fault of it is a check fault. -/
theorem execCurRead_next {s t : State} (h : execCurRead s = .next t) :
    (∃ r c, s.cur.cnt.toNat ≤ s.params.wbufDepth ∧ s.opc.toNat ≤ 32
        ∧ readBits s.wbuf s.opc.toNat s.cur = .ok (r, c) ∧ t = { s with res0 := r, cur := c, err := .ok }) ∨
      ∃ e, e ≠ .ok ∧ t = { s with err := e, sticky := true } := by
  rcases State.checked_next (by simp) h with ⟨hp, hk⟩ | h
  · have h1 : s.cur.cnt.toNat ≤ s.params.wbufDepth := by
      have := hp _ (List.mem_cons_self); simpa [State.curCntAboveDepth] using this
    have h2 : s.opc.toNat ≤ 32 := by
      have := of_decide_eq_false (hp (_, .illegalOperand) (List.mem_cons_of_mem _ List.mem_cons_self))
      unfold State.readWidth at this; omega
    rcases State.conclude_next hk with ⟨u, hu, rfl⟩ | ⟨e, he, rfl⟩
    · obtain ⟨⟨r, c⟩, hm, rfl⟩ := Except.map_eq_ok.1 hu
      exact .inl ⟨r, c, h1, h2, hm, rfl⟩
    · rcases readBits_error (Except.map_eq_error.1 he) with ⟨h, -⟩ | ⟨i, h, -⟩ <;> cases h
      exact .inr ⟨_, by simp, rfl⟩
  · exact .inr h

/-- META (R253). -/
theorem execMetadata_next {s t : State} (h : execMetadata s = .next t) :
    (∃ f c, s.wcount.toNat ≤ s.params.wbufDepth ∧ metaFields s.wbuf s.metaStart = .ok (f, c)
        ∧ t = { s with
            cur := c, mdGame := f.game, mdCheat := f.cheat, mdEnable := f.enable, mdRegion := f.region, err := .ok }) ∨
      (∃ e, e ≠ .ok ∧ t = { s with err := e, sticky := true }) ∨ t = s.takeFault .malformedInput [.md, .cursor] := by
  rcases State.checked_next (by simp) h with ⟨hp, hk⟩ | h
  · rcases State.conclude_next hk with ⟨u, hu, rfl⟩ | ⟨e, he, rfl⟩
    · obtain ⟨⟨f, c⟩, hm, rfl⟩ := Except.map_eq_ok.1 hu
      exact .inl ⟨f, c, by simpa [State.wcountAboveDepth] using hp, hm, rfl⟩
    · rcases metaFields_error (Except.map_eq_error.1 he) with h | ⟨i, h, -⟩ <;> cases h
      exact .inr (.inr rfl)
  · exact .inr (.inl h)

/-- VERIFY_LEN (R259). -/
theorem execVerifyLen_next {s t : State} (h : execVerifyLen s = .next t) :
    (∃ used c, s.wcount.toNat ≤ s.params.wbufDepth ∧ scan s.wbuf s.verifierStart = .ok (used, c)
        ∧ t = { s with
            cur := c, verLines := BitVec.ofNat 32 (verifierLines s.params.rounding used), err := .ok }) ∨
      (∃ e, e ≠ .ok ∧ t = { s with err := e, sticky := true }) ∨
      t = s.takeFault .malformedInput [.verLines, .cursor] := by
  rcases State.checked_next (by simp) h with ⟨hp, hk⟩ | h
  · rcases State.conclude_next hk with ⟨u, hu, rfl⟩ | ⟨e, he, rfl⟩
    · obtain ⟨⟨f, c⟩, hm, rfl⟩ := Except.map_eq_ok.1 hu
      exact .inl ⟨f, c, by simpa [State.wcountAboveDepth] using hp, hm, rfl⟩
    · rcases scan_error (Except.map_eq_error.1 he) with h | ⟨i, h, -⟩ <;> cases h
      exact .inr (.inr rfl)
  · exact .inr (.inl h)

/-- Stage 3 of DECODE_CHEAT (R281): the verifier region copied, and the AR2 stream of the rest where one remains. -/
theorem outputStage_ok {s t : State} (h : outputStage s = .ok t) :
    ∃ ws, s.wbuf.words (min s.ar2Start s.wcount.toNat) 0 = .ok ws ∧
      ((s.wcount.toNat ≤ s.ar2Start ∧ t = { s with obuf := s.obuf.writeWords 0 ws, ocount := s.wcount }) ∨
        ∃ out sd, s.ar2Start < s.wcount.toNat
          ∧ ar2Pairs s.params s.wbuf ((s.wcount.toNat - s.ar2Start) / 2) s.ar2Start s.seed = .ok (out, sd)
          ∧ t = { s with
              obuf := (s.obuf.writeWords 0 ws).writeWords s.ar2Start out
              ocount := BitVec.ofNat 11 (s.ar2Start + out.length), seed := sd }) := by
  unfold outputStage at h
  obtain ⟨ws, hw, h⟩ := Except.bind_eq_ok.1 h
  refine ⟨ws, hw, ?_⟩
  split at h
  · rename_i hlt
    obtain ⟨⟨out, sd⟩, hm, rfl⟩ := Except.map_eq_ok.1 h
    exact .inr ⟨out, sd, hlt, hm, rfl⟩
  · cases h; exact .inl ⟨by omega, rfl⟩

/-- Stage 3 writes OBUF, OCOUNT and SEED only, and of OBUF only the words below the new OCOUNT (R44, R101). -/
theorem outputStage_frame {s t : State} (h : outputStage s = .ok t) :
    t = { s with obuf := t.obuf, ocount := t.ocount, seed := t.seed }
      ∧ ∀ k, t.ocount.toNat ≤ k → t.obuf.read k = s.obuf.read k := by
  have hw : s.wcount.toNat < 2048 := s.wcount.isLt
  obtain ⟨ws, hws, hcase⟩ := outputStage_ok h
  have hl := (Memory.words_eq_ok.1 hws).1
  rcases hcase with ⟨hle, rfl⟩ | ⟨out, sd, hlt, hp, rfl⟩
  · refine ⟨rfl, fun k (hk : s.wcount.toNat ≤ k) => ?_⟩
    rw [Memory.read_writeWords, if_neg (by omega)]
  · have ho := (ar2Pairs_ok hp).2.1
    refine ⟨rfl, fun k hk => ?_⟩
    rw [BitVec.toNat_ofNat, Nat.mod_eq_of_lt (by omega)] at hk
    rw [Memory.read_writeWords, if_neg (by omega), Memory.read_writeWords, if_neg (by omega)]

/-- Why stage 3 stops. -/
theorem outputStage_error {s : State} {x : Stop} (h : outputStage s = .error x) :
    (∃ e, e ≠ .ok ∧ x = .raised e) ∨ ∃ j, x = .noValue j ∧ s.wbuf.read j = none ∧ j < s.wcount.toNat := by
  unfold outputStage at h
  rcases Except.bind_eq_error.1 h with h | ⟨ws, -, h⟩
  · obtain ⟨j, h1, h2, -, h4⟩ := Memory.words_error h
    exact .inr ⟨j, h1, h2, by omega⟩
  · split at h
    · rcases ar2Pairs_error (Except.map_eq_error.1 h) with (h | h) | ⟨j, h1, h2, -, h4⟩
      · exact .inl ⟨_, by simp, h⟩
      · exact .inl ⟨_, by simp, h⟩
      · exact .inr ⟨j, h1, h2, by omega⟩
    · cases h

/-- The stages of DECODE_CHEAT in turn (R281). -/
theorem decodeStages_ok {s t : State} (h : decodeStages s = .ok t) :
    ∃ m f c used d, decryptLines s.sched (s.wcount.toNat / 2) 0 s.wbuf = .ok m
      ∧ metaFields m s.metaStart = .ok (f, c) ∧ scan m s.verifierStart = .ok (used, d)
      ∧ outputStage
          { s with
            wbuf := m, mdGame := f.game, mdCheat := f.cheat, mdEnable := f.enable, mdRegion := f.region, cur := d
            verLines := BitVec.ofNat 32 (verifierLines s.params.rounding used) } = .ok t := by
  unfold decodeStages at h
  obtain ⟨t1, h1, h⟩ := Except.bind_eq_ok.1 h
  obtain ⟨t2, h2, h⟩ := Except.bind_eq_ok.1 h
  obtain ⟨t3, h3, h⟩ := Except.bind_eq_ok.1 h
  obtain ⟨m, hm, rfl⟩ := Except.map_eq_ok.1 h1
  obtain ⟨⟨f, c⟩, hf, rfl⟩ := Except.map_eq_ok.1 h2
  obtain ⟨⟨used, d⟩, hs, rfl⟩ := Except.map_eq_ok.1 h3
  exact ⟨m, f, c, used, d, hm, hf, hs, h⟩

/-- What the stages of DECODE_CHEAT write: its row of R101, of WBUF the words below WCOUNT, of OBUF those below the new
OCOUNT. -/
theorem decodeStages_frame {s t : State} (h : decodeStages s = .ok t) :
    t = { s with
          wbuf := t.wbuf, mdGame := t.mdGame, mdCheat := t.mdCheat, mdEnable := t.mdEnable, mdRegion := t.mdRegion
          cur := t.cur, verLines := t.verLines, obuf := t.obuf, ocount := t.ocount, seed := t.seed }
      ∧ (∀ k, s.wcount.toNat ≤ k → t.wbuf.read k = s.wbuf.read k)
      ∧ ∀ k, t.ocount.toNat ≤ k → t.obuf.read k = s.obuf.read k := by
  obtain ⟨m, f, c, used, d, hm, -, -, ho⟩ := decodeStages_ok h
  obtain ⟨ht, hob⟩ := outputStage_frame ho
  have hwb : t.wbuf = m := by rw [ht]
  refine ⟨?_, fun k hk => ?_, hob⟩
  · rw [ht]
  · rw [hwb]; exact (decryptLines_ok hm).1 k (by omega)

/-- DECODE_CHEAT (R281): its stages, a check fault, or a data fault with all its destinations. -/
theorem execDecodeCheat_next {s t : State} (h : execDecodeCheat s = .next t) :
    (∃ u, s.wcount.toNat ≤ s.params.wbufDepth ∧ s.schedValid = true ∧ s.wcount.toNat % 2 = 0
        ∧ decodeStages s = .ok u ∧ t = u.succeed) ∨
      (∃ e, e ≠ .ok ∧ t = { s with err := e, sticky := true }) ∨
      ∃ e, e ≠ .ok ∧ s.wcount.toNat ≤ s.params.wbufDepth ∧ t = s.takeFault e decodeDests := by
  rcases State.checked_next s.armaxChecks_ne_ok h with ⟨hp, hk⟩ | h
  · obtain ⟨h1, h2, h3⟩ := State.armaxChecks_pass.1 hp
    rcases State.conclude_next hk with ⟨u, hu, rfl⟩ | ⟨e, he, rfl⟩
    · exact .inl ⟨u, h1, h2, h3, hu, rfl⟩
    · refine .inr (.inr ⟨e, ?_, h1, rfl⟩)
      unfold decodeStages at he
      rcases Except.bind_eq_error.1 he with he | ⟨t1, -, he⟩
      · obtain ⟨j, hj, -⟩ := decryptLines_error (Except.map_eq_error.1 he); cases hj
      · rcases Except.bind_eq_error.1 he with he | ⟨t2, -, he⟩
        · rcases metaFields_error (Except.map_eq_error.1 he) with h | ⟨i, h, -⟩ <;> cases h
          simp
        · rcases Except.bind_eq_error.1 he with he | ⟨t3, -, he⟩
          · rcases scan_error (Except.map_eq_error.1 he) with h | ⟨i, h, -⟩ <;> cases h
            simp
          · rcases outputStage_error he with ⟨e', he', h⟩ | ⟨j, h, -⟩ <;> cases h
            exact he'
  · exact .inr (.inl h)

/-- Everything an instruction can do when it has a next state (R101, R307). -/
inductive Executes (s : State) : Instr → State → Prop
  /-- A check fault changes ERR and STICKY only. -/
  | checkFault (i : Instr) (e : ErrCode) (he : e ≠ .ok) : Executes s i { s with err := e, sticky := true }
  /-- A data fault of AR2_STREAM. -/
  | streamFault (ig : BitVec 24) (e : ErrCode) (he : e ≠ .ok) (hd : s.wcount.toNat ≤ s.params.wbufDepth) :
    Executes s (.ar2Stream ig) (s.takeFault e [.obuf, .ocount, .seed])
  /-- A data fault of META. -/
  | metaFault (ig : BitVec 24) : Executes s (.metadata ig) (s.takeFault .malformedInput [.md, .cursor])
  /-- A data fault of VERIFY_LEN. -/
  | verifyFault (ig : BitVec 24) : Executes s (.verifyLen ig) (s.takeFault .malformedInput [.verLines, .cursor])
  /-- A data fault of DECODE_CHEAT. -/
  | decodeFault (ig : BitVec 24) (e : ErrCode) (he : e ≠ .ok) (hd : s.wcount.toNat ≤ s.params.wbufDepth) :
    Executes s (.decodeCheat ig) (s.takeFault e decodeDests)
  /-- NOP. -/
  | nop (ig : BitVec 24) : Executes s (.nop ig) { s with err := .ok }
  /-- ARMAX_GEN. -/
  | gen (ig : BitVec 24) : Executes s (.armaxGen ig) { s with sched := generate, schedValid := true, err := .ok }
  /-- ARMAX_PAIR. -/
  | pair (ig : BitVec 24) (x y : Word) : Executes s (.armaxPair ig) { s with res0 := x, res1 := y, err := .ok }
  /-- ARMAX_BUF. -/
  | buf (ig : BitVec 24) (m : Memory) (hd : s.wcount.toNat ≤ s.params.wbufDepth)
    (hm : decryptLines s.sched (s.wcount.toNat / 2) 0 s.wbuf = .ok m) :
    Executes s (.armaxBuf ig) { s with wbuf := m, err := .ok }
  /-- AR2_SEED_DEFAULT. -/
  | seedDefault (ig : BitVec 24) (sd : Seed) : Executes s (.ar2SeedDefault ig) { s with seed := sd, err := .ok }
  /-- AR2_SEED_KEY. -/
  | seedKey (ig : BitVec 24) (sd : Seed) : Executes s (.ar2SeedKey ig) { s with seed := sd, err := .ok }
  /-- AR2_CODE and the control values. -/
  | code (i : Instr) (w : Word) (hi : writesRes0 i = true) (hw : writesCursor i = false) (h1 : writesRes1 i = false) :
    Executes s i { s with res0 := w, err := .ok }
  /-- AR2_STREAM. -/
  | stream (ig : BitVec 24) (out : List Word) (sd : Seed) (hd : s.wcount.toNat ≤ s.params.wbufDepth)
    (ho : ar2Pairs s.params s.wbuf (s.wcount.toNat / 2) 0 s.seed = .ok (out, sd)) :
    Executes s (.ar2Stream ig)
      { s with obuf := s.obuf.writeWords 0 out, ocount := BitVec.ofNat 11 out.length, seed := sd, err := .ok }
  /-- CUR_READ. -/
  | read (ig : BitVec 24) (r : Word) (c : Cursor) (hr : readBits s.wbuf s.opc.toNat s.cur = .ok (r, c)) :
    Executes s (.curRead ig) { s with res0 := r, cur := c, err := .ok }
  /-- META. -/
  | fields (ig : BitVec 24) (f : MetaFields) (c : Cursor) (hf : metaFields s.wbuf s.metaStart = .ok (f, c)) :
    Executes s (.metadata ig)
      { s with cur := c, mdGame := f.game, mdCheat := f.cheat, mdEnable := f.enable, mdRegion := f.region, err := .ok }
  /-- VERIFY_LEN. -/
  | verify (ig : BitVec 24) (v : Word) (c : Cursor) : Executes s (.verifyLen ig) { s with cur := c, verLines := v, err := .ok }
  /-- DECODE_CHEAT. -/
  | decode (ig : BitVec 24) (u : State) (hd : s.wcount.toNat ≤ s.params.wbufDepth) (he : s.wcount.toNat % 2 = 0)
    (hu : decodeStages s = .ok u) : Executes s (.decodeCheat ig) u.succeed

/-- The control values raise what `decrypt_code` raises. -/
theorem decrypt_error_ne_ok {m : Ar2Mode} {p : Params} {w : Word} {s : Byte} {e : ErrCode}
    (h : Ar2Mode.decrypt m p w s = .error e) : e ≠ .ok := by
  have hc : ∃ c, decodeControl c = .ok m := by
    cases m
    exacts [⟨0, rfl⟩, ⟨1, rfl⟩, ⟨2, rfl⟩, ⟨3, rfl⟩, ⟨4, rfl⟩, ⟨5, rfl⟩, ⟨6, rfl⟩, ⟨7, rfl⟩]
  obtain ⟨c, hc⟩ := hc
  rcases decryptCode_error (p := p) (w := w) (c := c) (s := s) (by rw [decryptCode, hc]; exact h) with rfl | rfl <;> simp

theorem execCode_next {i : Instr} {s t : State} {r : Except ErrCode Word} (hr : ∀ e, r = .error e → e ≠ .ok)
    (h : s.concludeRes0 r = .next t) (hi : writesRes0 i = true) (hw : writesCursor i = false)
    (h1 : writesRes1 i = false) : Executes s i t := by
  rcases State.concludeRes0_next hr h with ⟨w, -, rfl⟩ | ⟨e, he, rfl⟩
  · exact .code i w hi hw h1
  · exact .checkFault i e he

/-- What an instruction does when it has a next state is one of these. -/
theorem exec_next {i : Instr} {s t : State} (h : exec i s = .next t) : Executes s i t := by
  cases i
  case nop ig => cases h; exact .nop ig
  case armaxGen ig => cases h; exact .gen ig
  case armaxPair ig =>
    rcases execArmaxPair_next h with ⟨-, rfl⟩ | ⟨e, he, rfl⟩
    · exact .pair ig _ _
    · exact .checkFault _ e he
  case armaxBuf ig =>
    rcases execArmaxBuf_next h with ⟨m, h1, -, -, h4, rfl⟩ | ⟨e, he, rfl⟩
    · exact .buf ig m h1 h4
    · exact .checkFault _ e he
  case ar2SeedDefault ig => cases h; exact .seedDefault ig _
  case ar2SeedKey ig => cases h; exact .seedKey ig _
  case ar2Stream ig =>
    rcases execAr2Stream_next h with ⟨out, sd, h1, -, h3, rfl⟩ | ⟨e, he, rfl⟩ | ⟨e, he, h2, rfl⟩
    · exact .stream ig out sd h1 h3
    · exact .checkFault _ e he
    · exact .streamFault ig e he h2
  case curRead ig =>
    rcases execCurRead_next h with ⟨r, c, -, -, h3, rfl⟩ | ⟨e, he, rfl⟩
    · exact .read ig r c h3
    · exact .checkFault _ e he
  case metadata ig =>
    rcases execMetadata_next h with ⟨f, c, -, h2, rfl⟩ | ⟨e, he, rfl⟩ | rfl
    · exact .fields ig f c h2
    · exact .checkFault _ e he
    · exact .metaFault ig
  case verifyLen ig =>
    rcases execVerifyLen_next h with ⟨used, c, -, -, rfl⟩ | ⟨e, he, rfl⟩ | rfl
    · exact .verify ig _ c
    · exact .checkFault _ e he
    · exact .verifyFault ig
  case decodeCheat ig =>
    rcases execDecodeCheat_next h with ⟨u, h1, -, h3, h4, rfl⟩ | ⟨e, he, rfl⟩ | ⟨e, he, h2, rfl⟩
    · exact .decode ig u h1 h3 h4
    · exact .checkFault _ e he
    · exact .decodeFault ig e he h2
  case ar2Code ig =>
    exact execCode_next (fun e he => by rcases decryptCode_error he with rfl | rfl <;> simp) h rfl rfl rfl
  case ar2Mode0Xor => exact execCode_next (fun _ he => decrypt_error_ne_ok (m := .xor) he) h rfl rfl rfl
  case ar2Mode1NibswapXor => exact execCode_next (fun _ he => decrypt_error_ne_ok (m := .nibswapXor) he) h rfl rfl rfl
  case ar2Mode2Add => exact execCode_next (fun _ he => decrypt_error_ne_ok (m := .add) he) h rfl rfl rfl
  case ar2Mode3SubReversed => exact execCode_next (fun _ he => decrypt_error_ne_ok (m := .subReversed) he) h rfl rfl rfl
  case ar2Mode4XorAdd => exact execCode_next (fun _ he => decrypt_error_ne_ok (m := .xorAdd) he) h rfl rfl rfl
  case ar2Mode5SubXor => exact execCode_next (fun _ he => decrypt_error_ne_ok (m := .subXor) he) h rfl rfl rfl
  case ar2Mode6MixedOffset => exact execCode_next (fun _ he => decrypt_error_ne_ok (m := .mixedOffset) he) h rfl rfl rfl
  case ar2Mode7Meta => exact execCode_next (fun _ he => decrypt_error_ne_ok (m := .metaMode) he) h rfl rfl rfl

end Sys2Proof.Machine
end

