-- ==== Sys2Proof/Laws/PerInstr.lean ====
section
/-! SUPPORT. Per-instruction laws. `TableWord`: the word that the encoder gives an instruction, numbered as the opcode
table numbers it, is read back by `decodeTableWord`. -/

namespace Sys2Proof.Laws.TableWord

/-- What holds of every instruction: its table word decodes to it. -/
def Statement (i : Instr) : Prop :=
  match encode i with
  | .cmd w => decodeTableWord 32 w.toNat = some i
  | .control c => decodeTableWord 8 c.toNat = some i

/-- A word of 32 table bits is read as a CMD word. -/
theorem decodeTableWord_word (w : Word) :
    decodeTableWord 32 w.toNat = match decodeCmd w with | .ok i => some i | .error _ => none := by
  have hw : w.toNat % 2 ^ 32 = w.toNat := Nat.mod_eq_of_lt w.isLt
  have hd : decode (codeOfTableWord 32 w.toNat) = decodeCmd w := by
    simp only [codeOfTableWord, hw, show ¬ (32 ≤ 8 ∧ w.toNat ≤ 7) by omega, if_false, decode, BitVec.ofNat_toNat,
      BitVec.setWidth_eq]
  cases h : decodeCmd w <;> simp only [decodeTableWord, hd, h]

theorem nop (ig : BitVec 24) : Statement (.nop ig) := by
  simp only [Statement, encode, decodeTableWord_word]
  simp [decodeCmd]

theorem armaxGen (ig : BitVec 24) : Statement (.armaxGen ig) := by
  simp only [Statement, encode, decodeTableWord_word]
  simp [decodeCmd]

theorem armaxPair (ig : BitVec 24) : Statement (.armaxPair ig) := by
  simp only [Statement, encode, decodeTableWord_word]
  simp [decodeCmd]

theorem armaxBuf (ig : BitVec 24) : Statement (.armaxBuf ig) := by
  simp only [Statement, encode, decodeTableWord_word]
  simp [decodeCmd]

theorem ar2SeedDefault (ig : BitVec 24) : Statement (.ar2SeedDefault ig) := by
  simp only [Statement, encode, decodeTableWord_word]
  simp [decodeCmd]

theorem ar2SeedKey (ig : BitVec 24) : Statement (.ar2SeedKey ig) := by
  simp only [Statement, encode, decodeTableWord_word]
  simp [decodeCmd]

theorem ar2Code (ig : BitVec 24) : Statement (.ar2Code ig) := by
  simp only [Statement, encode, decodeTableWord_word]
  simp [decodeCmd]

theorem ar2Stream (ig : BitVec 24) : Statement (.ar2Stream ig) := by
  simp only [Statement, encode, decodeTableWord_word]
  simp [decodeCmd]

theorem curRead (ig : BitVec 24) : Statement (.curRead ig) := by
  simp only [Statement, encode, decodeTableWord_word]
  simp [decodeCmd]

theorem metadata (ig : BitVec 24) : Statement (.metadata ig) := by
  simp only [Statement, encode, decodeTableWord_word]
  simp [decodeCmd]

theorem verifyLen (ig : BitVec 24) : Statement (.verifyLen ig) := by
  simp only [Statement, encode, decodeTableWord_word]
  simp [decodeCmd]

theorem decodeCheat (ig : BitVec 24) : Statement (.decodeCheat ig) := by
  simp only [Statement, encode, decodeTableWord_word]
  simp [decodeCmd]

theorem ar2Mode0Xor : Statement .ar2Mode0Xor := rfl

theorem ar2Mode1NibswapXor : Statement .ar2Mode1NibswapXor := rfl

theorem ar2Mode2Add : Statement .ar2Mode2Add := rfl

theorem ar2Mode3SubReversed : Statement .ar2Mode3SubReversed := rfl

theorem ar2Mode4XorAdd : Statement .ar2Mode4XorAdd := rfl

theorem ar2Mode5SubXor : Statement .ar2Mode5SubXor := rfl

theorem ar2Mode6MixedOffset : Statement .ar2Mode6MixedOffset := rfl

theorem ar2Mode7Meta : Statement .ar2Mode7Meta := rfl

end Sys2Proof.Laws.TableWord
end

