-- ==== Sys2Proof/Tests/Slice0.lean ====
section
/-! SUPPORT. The model's own tests: the smoke tests of the checks, a word of every instruction written out from its
encoding, at most two one-step tests per instruction with the expected values of spec/95_test_vectors.md (the vector's
name is given), and for every obligation with hypotheses a theorem that meets them all. -/

namespace Sys2Proof.Tests

open Sys2Proof.Machine

/-! ### Small states -/

/-- The instance `U` of 95_test_vectors.md (every table entry 0x01, signs `+ - + -`), with 8 buffer words. -/
def paramsU : Params :=
  { Config.someLegalParams with
    wbufDepth := 8, ar2DefaultKey := 0x07000700, ar2Tbl := Vector.replicate 4 (Vector.replicate 32 1) }

/-- A legal instance with 2 buffer words and `T(t, i) = t`. -/
def paramsL : Params := { Config.someLegalParams with wbufDepth := 2 }

/-- `T(t, i) = i`, to see which index a mode reads. -/
def paramsIndex : Params :=
  { paramsU with ar2Tbl := Vector.replicate 4 (Vector.ofFn fun i : Fin 32 => BitVec.ofNat 8 i.val) }

/-- A core after reset with these words loaded and WCOUNT their number. -/
def loaded (ws : List Word) : State :=
  { State.powerOn paramsU with
    wbuf := Memory.writeWords [] 0 ws, wcount := BitVec.ofNat 11 ws.length }

/-- The schedule of R183, as printed. -/
def printedSchedule : Vector Word 32 :=
  #v[0x21323E26, 0x3105192B, 0x0E243331, 0x2F0C2F17, 0x132B0F33, 0x2402182B, 0x25111D1F, 0x39181F36,
    0x130A2B29, 0x03392B1E, 0x2A3C3D35, 0x3010122B, 0x29001D0A, 0x26273F32, 0x09252E2D, 0x083A071F,
    0x35390512, 0x14203F37, 0x28130A2F, 0x03311D1F, 0x002C3F33, 0x132E323C, 0x2A281138, 0x0C051B37,
    0x34052C27, 0x202E1D3A, 0x07121F2D, 0x0D28333C, 0x160B3138, 0x3214273B, 0x02150B1F, 0x020B3E3C]

/-- A core whose schedule has been generated, with these words loaded. -/
def ready (ws : List Word) : State := { loaded ws with sched := printedSchedule, schedValid := true }

/-- The operands of an AR2_CODE or of a control value. -/
def operands (p : Params) (opa : Word) (opc opd : Byte) : State := { State.powerOn p with opa, opc, opd }

/-- The words of the worked example of META and VERIFY_LEN (L1-7). -/
def exampleWords : List Word := [0x014F06BC, 0x287869AB, 0x74680000, 0x00000000]

/-- The next state, if there is one. -/
def after (o : Host.Outcome State Fault Refusal) : Option State :=
  match o with
  | .next s => some s
  | .fault _ => none
  | .refused _ => none

/-- What is checked of a next state. -/
def seen {α : Type} (f : State → α) (o : Host.Outcome State Fault Refusal) : Option α := (after o).map f

/-- The next state itself, for witnesses. -/
def final (s : State) (o : Host.Outcome State Fault Refusal) : State := (after o).getD s

theorem next_final {s : State} {o : Host.Outcome State Fault Refusal} (h : (after o).isSome = true) :
    o = .next (final s o) := by
  cases o with
  | next t => rfl
  | fault _ => cases h
  | refused _ => cases h

/-! ### WellFormed: an ill-formed term for each check -/

theorem test_access_ok : (Access.write 0x3FFC 4 0).wellFormed = true := by decide
theorem test_access_wrong_size : (Access.read 0x004 2).wellFormed = false := by decide
theorem test_access_unaligned : (Access.read 0x006 4).wellFormed = false := by decide
theorem test_access_outside : (Access.write 0x4000 4 0).wellFormed = false := by decide
theorem test_params_ok : paramsL.Legal := by decide
theorem test_params_no_words : ¬ ({ paramsL with wbufDepth := 0 } : Params).Legal := by decide
theorem test_params_too_deep : ¬ ({ paramsL with wbufDepth := 1025 } : Params).Legal := by decide
theorem test_params_equal_tables :
    ¬ ({ paramsL with ar2Tbl := Vector.replicate 4 (Vector.replicate 32 0) } : Params).Legal := by decide
theorem test_params_t0_no_bijection :
    ¬ ({ paramsL with laneMap := { paramsL.laneMap with t0 := #v[0, 0, 2, 3] } } : Params).Legal := by decide
theorem test_params_t1_is_t0 :
    ¬ ({ paramsL with laneMap := { paramsL.laneMap with t1 := paramsL.laneMap.t0 } } : Params).Legal := by decide
theorem test_params_offset_twice :
    ¬ ({ paramsL with laneMap := { paramsL.laneMap with d6 := #v[0, 1, 1, 3] } } : Params).Legal := by decide
theorem test_params_no_sub :
    ¬ ({ paramsL with laneMap := { paramsL.laneMap with sg6 := #v[.add, .add, .add, .add] } } : Params).Legal := by
  decide
theorem test_params_no_add :
    ¬ ({ paramsL with laneMap := { paramsL.laneMap with sg6 := #v[.sub, .sub, .sub, .sub] } } : Params).Legal := by
  decide

/-! ### Decode: a word of every instruction, written from R102 and R105 -/

theorem test_decode_nop : decodeCmd 0b00000000000000000000000000000000#32 = .ok (.nop 0) := by decide
theorem test_decode_armaxGen : decodeCmd 0b00000000000000000000000000000001#32 = .ok (.armaxGen 0) := by decide
theorem test_decode_armaxPair : decodeCmd 0b00000000000000000000000000000010#32 = .ok (.armaxPair 0) := by decide
theorem test_decode_armaxBuf : decodeCmd 0b10000000000000000000000100000011#32 = .ok (.armaxBuf 0x800001) := by decide
theorem test_decode_ar2SeedDefault :
    decodeCmd 0b00000000000000000000000000010000#32 = .ok (.ar2SeedDefault 0) := by decide
theorem test_decode_ar2SeedKey : decodeCmd 0b00000000000000000000000000010001#32 = .ok (.ar2SeedKey 0) := by decide
theorem test_decode_ar2Code : decodeCmd 0b00000000000000000000000000010010#32 = .ok (.ar2Code 0) := by decide
theorem test_decode_ar2Stream : decodeCmd 0b11111111111111111111111100010011#32 = .ok (.ar2Stream 0xFFFFFF) := by decide
theorem test_decode_curRead : decodeCmd 0b00000000000000000000000000100000#32 = .ok (.curRead 0) := by decide
theorem test_decode_metadata : decodeCmd 0b00000000000000000000000000100001#32 = .ok (.metadata 0) := by decide
theorem test_decode_verifyLen : decodeCmd 0b00000000000000000000000000100010#32 = .ok (.verifyLen 0) := by decide
theorem test_decode_decodeCheat : decodeCmd 0b00000000000000000000000000110000#32 = .ok (.decodeCheat 0) := by decide
theorem test_decode_mode0 : decode (.control 0b00000000#8) = .ok .ar2Mode0Xor := by decide
theorem test_decode_mode1 : decode (.control 0b00000001#8) = .ok .ar2Mode1NibswapXor := by decide
theorem test_decode_mode2 : decode (.control 0b00000010#8) = .ok .ar2Mode2Add := by decide
theorem test_decode_mode3 : decode (.control 0b00000011#8) = .ok .ar2Mode3SubReversed := by decide
theorem test_decode_mode4 : decode (.control 0b00000100#8) = .ok .ar2Mode4XorAdd := by decide
theorem test_decode_mode5 : decode (.control 0b00000101#8) = .ok .ar2Mode5SubXor := by decide
theorem test_decode_mode6 : decode (.control 0b00000110#8) = .ok .ar2Mode6MixedOffset := by decide
theorem test_decode_mode7 : decode (.control 0b00000111#8) = .ok .ar2Mode7Meta := by decide
theorem test_decode_reserved_opcodes :
    ∀ op ∈ [0x04#8, 0x0F#8, 0x14#8, 0x1F#8, 0x23#8, 0x2F#8, 0x31#8, 0xFF#8],
      decodeCmd (cmdWord 0 op) = .error (.reservedOpcode op) := by decide
theorem test_decode_reserved_control : decode (.control 0x08#8) = .error (.reservedControl 0x08) := by decide

/-! ### One step of each instruction -/

/-- R280, the example. -/
theorem test_nop_status :
    seen State.statusWord (exec (.nop 0) { ready [] with err := .malformedInput, sticky := true }) = some 0x00010100 := by
  decide

/-- AX-C1. -/
theorem test_armaxGen_words :
    seen (fun t => (t.sched[0], t.sched[31], t.statusWord)) (exec (.armaxGen 0) (loaded [])) =
      some (0x21323E26, 0x020B3E3C, 0x00000100) := by
  decide +kernel

/-- AX-6. -/
theorem test_armaxPair_vector :
    seen (fun t => (t.res0, t.res1)) (exec (.armaxPair 0) { ready [] with opa := 0x12345678, opb := 0x9ABCDEF0 }) =
      some (0xDF24D623, 0x2825975C) := by
  decide +kernel

/-- AX-C3. -/
theorem test_armaxPair_not_ready :
    seen (fun t => (t.statusWord, t.res0)) (exec (.armaxPair 0) { loaded [] with res0 := 7 }) = some (0x00010004, 7) := by
  decide

/-- AX-C4. -/
theorem test_armaxBuf_vector :
    seen (fun t => (t.wbuf.read 0, t.wbuf.read 1, t.err)) (exec (.armaxBuf 0) (ready [0xD5F15760, 0x66A0F0D2])) =
      some (some 0x814F06BC, some 0x287869AB, .ok) := by
  decide +kernel

/-- AX-C7, with 8 words of buffer: ILLEGAL_OPERAND before NOT_READY and the odd count. -/
theorem test_armaxBuf_priority :
    seen State.err (exec (.armaxBuf 0) { loaded [] with wcount := 9 }) = some .illegalOperand := by
  decide

/-- AR-K1. -/
theorem test_ar2SeedKey_bytes :
    seen State.seed (exec (.ar2SeedKey 0) { loaded [] with opa := 0x07020704 }) =
      some { addrControl := 7, addrSeed := 2, valControl := 7, valSeed := 4 } := by
  decide

/-- AR-K3, R210's example. -/
theorem test_ar2SeedDefault_key :
    seen (fun t => seedWord t.seed) (exec (.ar2SeedDefault 0) { loaded [] with seed := regenerate 0 }) =
      some 0x07000700 := by
  decide

/-- AR-13. -/
theorem test_ar2Code_even_seed :
    seen State.res0 (exec (.ar2Code 0) (operands paramsU 0x12345678 7 64)) = some 0xEDCBA987 := by decide

/-- AR-16. -/
theorem test_ar2Code_mode_before_seed :
    seen (fun t => (t.err, t.res0)) (exec (.ar2Code 0) { operands paramsU 0x12345678 0xFF 40 with res0 := 3 }) =
      some (.unsupportedMode, 3) := by
  decide

/-- AR-1. -/
theorem test_mode0_vector : seen State.res0 (exec .ar2Mode0Xor (operands paramsU 0x00FF7F80 0 5)) = some 0x01FE7E81 := by
  decide

/-- AR-17. -/
theorem test_mode0_seed_range : seen State.err (exec .ar2Mode0Xor (operands paramsU 0 0 32)) = some .seedRange := by decide

/-- AR-2. -/
theorem test_mode1_vector :
    seen State.res0 (exec .ar2Mode1NibswapXor (operands paramsU 0x00FF7F80 1 5)) = some 0x01FEF609 := by decide

/-- R198 by hand, with `T(t, i) = t` and `t1` the reversal: lane `k` takes table `3 - k`. -/
theorem test_mode1_lane_map :
    seen State.res0 (exec .ar2Mode1NibswapXor (operands paramsL 0 1 0)) = some 0x00010203 := by decide

/-- AR-3. -/
theorem test_mode2_vector : seen State.res0 (exec .ar2Mode2Add (operands paramsU 0x00FF7F80 2 5)) = some 0x01008081 := by
  decide

/-- R199 by hand: lane `k` adds table `k`. -/
theorem test_mode2_lane_map : seen State.res0 (exec .ar2Mode2Add (operands paramsL 0 2 0)) = some 0x03020100 := by decide

/-- AR-4. -/
theorem test_mode3_vector :
    seen State.res0 (exec .ar2Mode3SubReversed (operands paramsU 0x00FF7F80 3 5)) = some 0xFFFE7E7F := by decide

/-- R200 by hand: lane `k` subtracts table `3 - k`. -/
theorem test_mode3_lane_map :
    seen State.res0 (exec .ar2Mode3SubReversed (operands paramsL 0 3 0)) = some 0x00FFFEFD := by decide

/-- AR-5. -/
theorem test_mode4_vector : seen State.res0 (exec .ar2Mode4XorAdd (operands paramsU 0x00FF7F80 4 5)) = some 0x02FF7F82 := by
  decide

/-- AR-6. -/
theorem test_mode5_vector : seen State.res0 (exec .ar2Mode5SubXor (operands paramsU 0x00FF7F80 5 5)) = some 0xFEFF7F7E := by
  decide

/-- AR-7. -/
theorem test_mode6_vector :
    seen State.res0 (exec .ar2Mode6MixedOffset (operands paramsU 0x00FF7F80 6 5)) = some 0xFF007E81 := by decide

/-- AR-19 by hand: with `d(k) = k` and seed 31 the lanes read the indices 31, 0, 1, 2. -/
theorem test_mode6_index_wraps :
    seen State.res0 (exec .ar2Mode6MixedOffset (operands paramsIndex 0 6 31)) = some 0xFE01001F := by decide

/-- AR-9. -/
theorem test_mode7_even : seen State.res0 (exec .ar2Mode7Meta (operands paramsU 0x00FF7F80 7 4)) = some 0xFF00807F := by
  decide

/-- AR-8. -/
theorem test_mode7_odd : seen State.res0 (exec .ar2Mode7Meta (operands paramsU 0x00FF7F80 7 5)) = some 0x01FEF609 := by
  decide

/-- AR2-S1. -/
def streamWords : List Word := [0xEEEEEEEE, 0xDDDDDDDD, 0x21520531, 0xF8FDF8FB, 0xCCCCCCCC, 0xBBBBBBBB]

theorem test_ar2Stream_rekey :
    seen (fun t => (t.ocount, (List.range 5).map t.obuf.read, seedWord t.seed, t.err)) (exec (.ar2Stream 0) (loaded streamWords)) =
      some (4, [some 0x11111111, some 0x22222222, some 0x33333333, some 0x44444444, none], 0x07020704, .ok) := by
  decide

/-- AR2-S4. -/
theorem test_ar2Stream_bad_rekey :
    seen (fun t => (t.err, t.sticky)) (exec (.ar2Stream 0) (loaded [0x21520531, 0xF7FFF8FF, 0x00000001, 0x00000002])) =
      some (.unsupportedMode, true) := by
  decide

/-- BC-1. -/
theorem test_curRead_crosses_words :
    seen (fun t => (t.res0, t.cur)) (exec (.curRead 0)
        { loaded exampleWords with opc := 8, cur := { idx := 0, off := 28, cnt := 4 } }) =
      some (0x000000C2, { idx := 1, off := 4, cnt := 4 }) := by
  decide

/-- BC-9. -/
theorem test_curRead_past_end :
    seen (fun t => (t.err, t.cur)) (exec (.curRead 0)
        { loaded exampleWords with opc := 2, cur := { idx := 3, off := 31, cnt := 4 } }) =
      some (.malformedInput, { idx := 3, off := 31, cnt := 4 }) := by
  decide

/-- MD-3. -/
theorem test_metadata_fields :
    seen (fun t => (t.mdGame, t.mdCheat, t.mdFlagsWord, t.cur)) (exec (.metadata 0) (loaded [0x0ABCDEF1, 0x23456789])) =
      some (0x1579, 0x5EF12, 0x6, { idx := 1, off := 8, cnt := 2 }) := by
  decide

/-- MD-4. -/
theorem test_metadata_short : seen State.err (exec (.metadata 0) (loaded [0x014F06BC])) = some .malformedInput := by decide

/-- VL-1. -/
theorem test_verifyLen_one_record :
    seen (fun t => (t.verLines, t.cur)) (exec (.verifyLen 0) (loaded exampleWords)) =
      some (2, { idx := 2, off := 13, cnt := 4 }) := by
  decide

/-- VL-6, FLOOR. -/
theorem test_verifyLen_floor :
    seen State.verLines (exec (.verifyLen 0) (loaded [0x00000000, 0x007FFFFF, 0xFFF30000, 0x05FFEA01])) = some 3 := by
  decide

/-- R281, the example (program P4). -/
theorem test_decodeCheat_example :
    seen (fun t => ((List.range 6).map t.obuf.read, [t.readReg .ocount, t.readReg .mdGame, t.readReg .mdCheat,
        t.readReg .mdFlags, t.readReg .verLines, t.readReg .ar2seed]))
      (exec (.decodeCheat 0)
        (ready [0x7E7B48A5, 0xD1477056, 0xE30C0CA4, 0x75A424BE, 0x13DEE8AB, 0x9C1E564A, 0x5DBC5689, 0xF1F00813])) =
      some
        ([some 0x014F06BC, some 0x287869AB, some 0x74680000, some 0x00000000, some 0x2012ABCD, some 0x00000063],
          [6, 0x029E, 0x06BC2, 1, 2, 0x07020704]) := by
  decide +kernel

/-- R281: WCOUNT = 0 passes the checks and faults in META. -/
theorem test_decodeCheat_empty : seen State.err (exec (.decodeCheat 0) (ready [])) = some .malformedInput := by decide

/-! ### Pieces of the engines -/

/-- L1-3. -/
theorem test_unscramble1 : unscramble1 0x6057F1D5 0xD2F0A066 = (0x7E7D141D, 0xF9CA0124) := by decide

/-- L1-5. -/
theorem test_unscramble2 : unscramble2 0x33E3EA2C 0xC8820E78 = (0xAB697828, 0xBC064F81) := by decide

/-- AX-M2, AX-M5. -/
theorem test_octetMask :
    octetMask 0xFFFFFFFF 0 = 0xF1B3B377 ∧ octetMask 0 0xFFFFFFFF = 0x31B5F798 := by decide +kernel

/-- R184(f): entries of every printed mixing table are those of the generating formula. -/
theorem test_mix_tables :
    ∀ s < 8, ∀ i ∈ [0, 27, 38, 63], (mixTables.getD s []).getD i 0 = mixFormula s i := by decide +kernel

/-! ### Steps -/

/-- A reserved opcode (R103). -/
theorem test_step_reserved :
    seen State.statusWord (step { loaded [] with bus := [hostCMD 0x23] }) = some 0x00010005 := by decide

/-- A host write of WBUF, and its read in the next step. -/
theorem test_step_write_then_read :
    (match step { loaded [] with bus := [hostWR (.wbuf 7) 0xABCD, hostRD (.wbuf 7)] } with
      | .next t => seen State.readLog (step t)
      | _ => none) = some [some 0xABCD] := by decide

/-- A placed instruction runs as the next step. -/
theorem test_withFetchWord_command :
    seen State.readLog (step ((loaded []).withFetchWord 32 0xFFFFFF00)) = some [] := by decide

theorem test_withFetchWord_control :
    seen State.res0 (step ((operands paramsU 0x00FF7F80 0 5).withFetchWord 8 2)) = some 0x01008081 := by decide

/-! ### Witnesses: states and operands that meet the hypotheses of the obligations -/

theorem witness_ReservedOpcodeTakesIllegalCommand :
    ∃ (s : State) (w : Word) (rest : List HostEvent),
      s.bus = .access (.write 0 4 w) :: rest ∧ opcodeOf w ∉ assignedOpcodes :=
  ⟨{ loaded [] with bus := [hostCMD 0xFF] }, 0xFF, [], rfl, by decide⟩

theorem witness_CmdHighBitsHaveNoEffect :
    ∃ w w' : Word, opcodeOf w = opcodeOf w' ∧ w ≠ w' := ⟨0x03, 0xFFFFFF03, by decide, by decide⟩

theorem witness_StepRunsDecodedCommand :
    ∃ (s : State) (w : Word) (rest : List HostEvent) (i : Instr),
      s.bus = .access (.write 0 4 w) :: rest ∧ decodeCmd w = .ok i :=
  ⟨{ loaded [] with bus := [hostCMD 0x20] }, 0x20, [], .curRead 0, rfl, by decide⟩

theorem witness_StepRunsDecodedControl :
    ∃ (s : State) (w : Word) (rest : List HostEvent) (i : Instr),
      s.bus = .access (.write 0 4 w) :: rest ∧ opcodeOf w = 0x12#8 ∧ decode (.control s.opc) = .ok i :=
  ⟨{ loaded [] with bus := [hostCMD 0x112], opc := 7 }, 0x112, [], .ar2Mode7Meta, rfl, by decide, by decide⟩

theorem witness_StepRunsPlacedInstruction :
    decodeTableWord 32 0x30 = some (.decodeCheat 0) ∧ decodeTableWord 8 0x05 = some .ar2Mode5SubXor := by decide

theorem witness_IdleAndResetSteps :
    (loaded []).bus = [] ∧ ({ loaded [] with bus := [HostEvent.reset] } : State).bus = [.reset] := by decide

theorem witness_UndefinedAccessHasNoStep :
    (∃ (s : State) (a : Access), s.bus = [.access a] ∧ a.size ≠ 4)
      ∧ (∃ (s : State) (a : Access), s.bus = [.access a] ∧ a.offset % 4 ≠ 0)
      ∧ ∃ (s : State) (a : Access), s.bus = [.access a] ∧ 0x4000 ≤ a.offset :=
  ⟨⟨{ loaded [] with bus := [.access (.read 0 8)] }, _, rfl, by decide⟩,
    ⟨{ loaded [] with bus := [.access (.read 0x3FFF 4)] }, _, rfl, by decide⟩,
    ⟨{ loaded [] with bus := [.access (.write 0x4000 4 0)] }, _, rfl, by decide⟩⟩

theorem witness_ReadsHaveNoSideEffects :
    ∃ (s : State) (o : Nat) (rest : List HostEvent), o % 4 = 0 ∧ o < 0x4000 ∧
      s.bus = .access (.read o 4) :: .access (.read o 4) :: rest :=
  ⟨{ loaded [] with bus := [.access (.read 0x3FFC 4), .access (.read 0x3FFC 4)] }, 0x3FFC, [], by decide, by decide, rfl⟩

/-- The clauses where they meet: the last slot below the depth, the first at it, and the ends of the reserved ranges. -/
theorem witness_AddressMapNamesEachTarget :
    decodeOffset 1023 (0x1000 + 4 * 1022) = .wbuf 1022 ∧ decodeOffset 1023 (0x1000 + 4 * 1023) = .reserved
      ∧ decodeOffset 1024 0x2FFC = .obuf 1023 ∧ decodeOffset 1024 0x3000 = .reserved
      ∧ decodeOffset 1024 0x044 = .reg .verLines ∧ decodeOffset 1024 0x048 = .reserved
      ∧ decodeOffset 1024 0x0FC = .reserved ∧ decodeOffset 1024 0x100 = .sched 0
      ∧ decodeOffset 1024 0x17C = .sched 31 ∧ decodeOffset 1024 0x180 = .reserved := by decide

theorem witness_IgnoredWritesAndZeroReads :
    (loaded []).target 0x1020 = .reserved ∧ (loaded []).target 0x17C = .sched 31 ∧ (loaded []).target 0x2000 = .obuf 0
      ∧ (loaded []).target 0x004 = .reg .status ∧ (loaded []).target 0x044 = .reg .verLines := by decide

/-- A register of 32 bits and the narrowest field, each written with all bits set and read back. -/
theorem witness_WritableRegistersReadBack :
    (∃ (s : State) (v : Word), s.bus = [.access (.write (regOffset .opb) 4 v), .access (.read (regOffset .opb) 4)]
        ∧ (Reg.opb, 0xFFFFFFFF) ∈ writableFields)
      ∧ ∃ (s : State) (v : Word), s.bus = [.access (.write (regOffset .curOff) 4 v), .access (.read (regOffset .curOff) 4)]
        ∧ (Reg.curOff, 0x1F) ∈ writableFields :=
  ⟨⟨{ loaded [] with bus := [hostWR (.reg .opb) 0xFFFFFFFF, hostRD (.reg .opb)] }, 0xFFFFFFFF, rfl, by decide⟩,
    ⟨{ loaded [] with bus := [hostWR (.reg .curOff) 0xFFFFFFFF, hostRD (.reg .curOff)] }, 0xFFFFFFFF, rfl, by decide⟩⟩

/-- R73: a narrow field through the bus. -/
theorem test_step_narrow_field :
    (match step { loaded [] with bus := [hostWR (.reg .curOff) 0xFFFFFFE5, hostRD (.reg .curOff)] } with
      | .next t => seen (fun u => (u.cur.off, u.readLog)) (step t)
      | _ => none) = some (5, [some 5]) := by decide

/-- The last register of the map. -/
theorem witness_RegisterReadsShowTheirFields :
    ∃ (s : State) (rest : List HostEvent), s.bus = .access (.read (regOffset .verLines) 4) :: rest :=
  ⟨{ loaded [] with bus := [hostRD (.reg .verLines)] }, [], rfl⟩

theorem witness_WbufWriteStoresOneWord :
    ∃ (s : State) (i : Nat) (v : Word) (rest : List HostEvent), i < s.params.wbufDepth ∧ i < 1024 ∧
      s.bus = .access (.write (0x1000 + 4 * i) 4 v) :: rest :=
  ⟨{ loaded [] with bus := [hostWR (.wbuf 7) 5] }, 7, 5, [], by decide, by decide, rfl⟩

/-- The last slot of each window. -/
theorem witness_WindowReads :
    (∃ (s : State) (o : Nat), s.bus = [.access (.read o 4)] ∧ o = 0x2000 + 4 * 7 ∧ 7 < s.params.wbufDepth)
      ∧ (∃ (s : State) (o : Nat), s.bus = [.access (.read o 4)] ∧ o = 0x100 + 4 * (31 : Fin 32).val)
      ∧ ∃ (s : State) (o : Nat), s.bus = [.access (.read o 4)] ∧ o = 0x1000 + 4 * 7 ∧ 7 < s.params.wbufDepth :=
  ⟨⟨{ loaded [] with bus := [hostRD (.obuf 7)] }, _, rfl, by decide, by decide⟩,
    ⟨{ loaded [] with bus := [hostRD (.sched 31)] }, _, rfl, by decide⟩,
    ⟨{ loaded [] with bus := [hostRD (.wbuf 7)] }, _, rfl, by decide, by decide⟩⟩

theorem witness_opcodes :
    opcodeOf 0xFFFFFF00 = 0x00#8 ∧ opcodeOf 0x01 = 0x01#8 ∧ opcodeOf 0x102 = 0x02#8 ∧ opcodeOf 0x10 = 0x10#8
      ∧ opcodeOf 0x11 = 0x11#8 ∧ opcodeOf 0x12 = 0x12#8 ∧ opcodeOf 0x13 = 0x13#8 := by decide

theorem witness_ArmaxPairDecryptsOperands : (ready []).schedValid = true ∧ (loaded []).schedValid = false := by decide

theorem holds_ready_two : (ready [0xD5F15760, 0x66A0F0D2]).wbuf.Holds 0 2 := by
  unfold Memory.Holds; decide

theorem witness_ArmaxBufDecryptsEveryLine :
    ∃ s : State, s.wcount.toNat ≤ s.params.wbufDepth ∧ s.schedValid = true ∧ s.wcount.toNat % 2 = 0 ∧
      s.wbuf.Holds 0 s.wcount.toNat ∧ 2 * 0 + 1 < s.wcount.toNat ∧ s.wbuf.read (2 * 0) = some 0xD5F15760
      ∧ s.wbuf.read (2 * 0 + 1) = some 0x66A0F0D2 :=
  ⟨ready [0xD5F15760, 0x66A0F0D2], by decide, rfl, by decide, holds_ready_two, by decide, by decide, by decide⟩

theorem witness_ArmaxChecksInOrder :
    (∃ s : State, s.params.wbufDepth < s.wcount.toNat)
      ∧ (∃ s : State, s.wcount.toNat ≤ s.params.wbufDepth ∧ s.schedValid = false)
      ∧ ∃ s : State, s.wcount.toNat ≤ s.params.wbufDepth ∧ s.schedValid = true ∧ s.wcount.toNat % 2 = 1 :=
  ⟨⟨{ loaded [] with wcount := 9 }, by decide⟩, ⟨{ loaded [] with wcount := 8 }, by decide, rfl⟩,
    ⟨{ ready [] with wcount := 7 }, by decide, rfl, by decide⟩⟩

theorem witness_UnwrittenWordStopsArmaxBuf :
    ∃ (s : State) (k : Nat), s.wcount.toNat ≤ s.params.wbufDepth ∧ s.schedValid = true ∧ s.wcount.toNat % 2 = 0 ∧
      k < s.wcount.toNat ∧ s.wbuf.read k = none :=
  ⟨{ ready [1] with wcount := 2 }, 1, by decide, rfl, by decide, by decide, by decide⟩

theorem witness_DecryptCodeAcceptsAndRejects :
    7 < (8#8).toNat ∧ (0xFE#8).toNat % 2 = 0 ∧ (33#8).toNat % 2 = 1 ∧ ((6#8).toNat < 7 ∧ 31 < (32#8).toNat)
      ∧ ((6#8).toNat < 7 ∧ (31#8).toNat ≤ 31) := by decide

theorem witness_Ar2CodeDecryptsOneWord :
    (∃ s : State, s.opc.toNat ≤ 7 ∧ s.opd.toNat ≤ 31)
      ∧ (∃ s : State, s.opc.toNat ≤ 7 ∧ 31 < s.opd.toNat ∧ s.opc = 7#8 ∧ s.opd.toNat % 2 = 0)
      ∧ (∃ s : State, 7 < s.opc.toNat)
      ∧ ∃ s : State, s.opc.toNat ≤ 7 ∧ 31 < s.opd.toNat ∧ ¬ (s.opc = 7#8 ∧ s.opd.toNat % 2 = 0) :=
  ⟨⟨operands paramsU 0 7 31, by decide, by decide⟩, ⟨operands paramsU 0 7 32, by decide, by decide, by decide, by decide⟩,
    ⟨operands paramsU 0 8 0, by decide⟩, ⟨operands paramsU 0 7 33, by decide, by decide, by decide⟩⟩

/-- A table seed at the end of its range, for the statements of the modes. -/
theorem witness_modes :
    (operands paramsU 0 0 31).opd.toNat < 32 ∧ (3 : Fin 4).val + (0 : Fin 4).val = 3
      ∧ (2 : Fin 32).val = (31 + ((operands paramsU 0 0 31).params.laneMap.d6.get 3).val) % 32
      ∧ (operands paramsU 0 0 31).params.laneMap.sg6.get 0 = .add
      ∧ (operands paramsU 0 0 31).params.laneMap.sg6.get 3 = .sub
      ∧ (operands paramsU 0 7 254).opd.toNat % 2 = 0 ∧ (operands paramsU 0 7 255).opd.toNat % 2 = 1 := by decide

theorem witness_TableSeedAboveRangeFaults :
    31 < (operands paramsU 0 0 32).opd.toNat
      ∧ 31 < (operands paramsU 0 7 33).opd.toNat ∧ (operands paramsU 0 7 33).opd.toNat % 2 = 1 := by decide

theorem witness_DecryptCodeIsABijection :
    decryptCode paramsU 0 6 31 = .ok 0xFF01FF01 ∧ decryptCode paramsU 0x01FE7E81 0 5 = .ok 0x00FF7F80
      ∧ (0xFE#8).toNat % 2 = 0 := by decide

theorem witness_Ar2StreamRefinesDecryptCheat :
    (∃ (s : State) (ws : List Word), s.wcount.toNat ≤ s.params.wbufDepth ∧ s.wcount.toNat % 2 = 0 ∧
        ws.length = s.wcount.toNat ∧ (∀ k < ws.length, s.wbuf.read k = ws[k]?)
        ∧ ∃ out sd, decryptCheat s.params ws s.seed = .ok (out, sd))
      ∧ ∃ (s : State) (ws : List Word), s.wcount.toNat ≤ s.params.wbufDepth ∧ s.wcount.toNat % 2 = 0 ∧
        ws.length = s.wcount.toNat ∧ (∀ k < ws.length, s.wbuf.read k = ws[k]?)
        ∧ ∃ e, decryptCheat s.params ws s.seed = .error e :=
  ⟨⟨loaded streamWords, streamWords, by decide, by decide, by decide, by decide,
      [0x11111111, 0x22222222, 0x33333333, 0x44444444], regenerate 0x07020704, by decide⟩,
    ⟨{ loaded [0, 0] with seed := regenerate 0x00200000 }, [0, 0], by decide, by decide, by decide, by decide, .seedRange,
      by decide⟩⟩

theorem witness_StreamChecksInOrder :
    (∃ s : State, s.params.wbufDepth < s.wcount.toNat)
      ∧ ∃ s : State, s.wcount.toNat ≤ s.params.wbufDepth ∧ s.wcount.toNat % 2 = 1 :=
  ⟨⟨{ loaded [] with wcount := 9 }, by decide⟩, ⟨{ loaded [] with wcount := 7 }, by decide, by decide⟩⟩

/-- The address words under mode 6 at the last table seed, the value words under mode 7 at an even seed. -/
theorem witness_Ar2StreamWithoutRekey :
    ∃ (s : State) (a v : Nat → Word), s.wcount.toNat ≤ s.params.wbufDepth ∧ s.wcount.toNat % 2 = 0 ∧
      2 * 0 < s.wcount.toNat ∧
      ∀ k, 2 * k < s.wcount.toNat → ∃ x y,
        s.wbuf.read (2 * k) = some x ∧ decryptCode s.params x s.seed.addrControl s.seed.addrSeed = .ok (a k)
          ∧ s.wbuf.read (2 * k + 1) = some y ∧ decryptCode s.params y s.seed.valControl s.seed.valSeed = .ok (v k)
          ∧ a k ≠ sentinel := by
  refine ⟨{ loaded [0, 6] with seed := regenerate 0x061F07FE }, fun _ => 0xFF01FF01, fun _ => 0xFFFFFFF9, by decide,
    by decide, by decide, fun k hk => ⟨0, 6, ?_⟩⟩
  have hk : 2 * k < 2 := hk
  obtain rfl : k = 0 := by omega
  decide

theorem witness_SentinelPairRekeysTheRest :
    (2 % 2 = 0)
      ∧ decryptCheat paramsU [0xEEEEEEEE, 0xDDDDDDDD] (regenerate 0x07000700) =
        .ok ([0x11111111, 0x22222222], regenerate 0x07000700)
      ∧ decryptCode paramsU 0x21520531 7 0 = .ok sentinel ∧ decryptCode paramsU 0xF8FDF8FB 7 0 = .ok 0x07020704 := by decide

theorem witness_StreamOutputIsPaired :
    ∃ s t : State, exec (.ar2Stream 0) s = .next t ∧ t.err = .ok ∧ 2 * 1 < t.ocount.toNat :=
  ⟨loaded streamWords, final (loaded streamWords) (exec (.ar2Stream 0) (loaded streamWords)), next_final (by decide),
    by decide, by decide⟩

/-- BC-6: a read that ends exactly at the end. -/
theorem witness_CurReadReturnsTheNextBits :
    ∃ s : State, s.cur.cnt.toNat ≤ s.params.wbufDepth ∧ s.opc.toNat ≤ 32 ∧
      (s.opc.toNat = 0 ∨ s.cur.position + s.opc.toNat ≤ 32 * s.cur.cnt.toNat) ∧ s.opc.toNat = 32 ∧
      (∀ g, s.cur.position ≤ g → g < s.cur.position + s.opc.toNat → (s.wbuf.read (g / 32)).isSome = true) :=
  ⟨{ loaded exampleWords with opc := 32, cur := { idx := 3, off := 0, cnt := 4 } }, by decide, by decide, by decide,
    by decide, by decide⟩

theorem witness_CurReadFaultsKeepTheCursor :
    (∃ s : State, s.params.wbufDepth < s.cur.cnt.toNat) ∧ (∃ s : State, 32 < s.opc.toNat)
      ∧ ∃ s : State, s.cur.cnt.toNat ≤ s.params.wbufDepth ∧ s.opc.toNat ≤ 32 ∧ 0 < s.opc.toNat ∧
        32 * s.cur.cnt.toNat < s.cur.position + s.opc.toNat :=
  ⟨⟨{ loaded [] with cur := { idx := 0, off := 0, cnt := 9 } }, by decide⟩, ⟨{ loaded [] with opc := 33 }, by decide⟩,
    ⟨{ loaded exampleWords with opc := 1, cur := { idx := 4, off := 0, cnt := 4 } }, by decide, by decide, by decide,
      by decide⟩⟩

theorem witness_ReadEqualsWindow :
    ∃ (m : Memory) (n : Nat) (c : Cursor) (w next : Word), 1 ≤ n ∧ n ≤ 32 ∧ c.position + n ≤ 32 * c.cnt.toNat ∧
      m.read c.idx.toNat = some w ∧ (m.read (c.idx.toNat + 1) = some next ∨ c.off.toNat + n ≤ 32) :=
  ⟨Memory.writeWords [] 0 exampleWords, 32, { idx := 1, off := 4, cnt := 4 }, 0x287869AB, 0x74680000, by decide, by decide,
    by decide, by decide, by decide⟩

theorem witness_SplitReadsCompose :
    ∃ (m : Memory) (c c₁ c₂ : Cursor) (r₁ r₂ : Word), 20 + 12 ≤ 32 ∧ readBits m 20 c = .ok (r₁, c₁)
      ∧ readBits m 12 c₁ = .ok (r₂, c₂) :=
  ⟨Memory.writeWords [] 0 exampleWords, { idx := 0, off := 28, cnt := 4 }, { idx := 1, off := 16, cnt := 4 },
    { idx := 1, off := 28, cnt := 4 }, 0xC2878, 0x69A, by decide, by decide, by decide⟩

theorem witness_MetaStoresTheFields :
    ∃ (s : State) (w₀ w₁ : Word), s.wcount.toNat ≤ s.params.wbufDepth ∧ 2 ≤ s.wcount.toNat ∧ s.wbuf.read 0 = some w₀
      ∧ s.wbuf.read 1 = some w₁ :=
  ⟨loaded [0x0ABCDEF1, 0x23456789], _, _, by decide, by decide, rfl, rfl⟩

theorem witness_ShortCheatFaults :
    (∃ s : State, s.params.wbufDepth < s.wcount.toNat)
      ∧ ∃ s : State, s.wcount.toNat ≤ s.params.wbufDepth ∧ s.wcount.toNat < 2 ∧ s.wbuf.Holds 0 s.wcount.toNat :=
  ⟨⟨{ loaded [] with wcount := 9 }, by decide⟩, ⟨loaded [7], by decide, by decide, by unfold Memory.Holds; decide⟩⟩

/-- VL-3, VL-4, VL-5, VL-6: the ends of the ranges. -/
theorem witness_LineCountOfBothRoundings :
    (24 ≤ 24 ∧ verifierLines .floor 24 = 1) ∧ (25 = 24 + 1 ∧ verifierLines .floor 25 = 2)
      ∧ (87 = 24 + 63 ∧ verifierLines .floor 87 = 2 ∧ verifierLines .ceil 87 = 2)
      ∧ (88 = 24 + 64 ∧ verifierLines .floor 88 = 3 ∧ verifierLines .ceil 88 = 2) := by decide

/-- VL-1: one record with selector 7. -/
theorem witness_VerifyLenMeasuresTheHeader :
    ∃ (s : State) (sels : List (BitVec 3)), s.wcount.toNat ≤ s.params.wbufDepth ∧
      s.wbuf.Holds 1 (s.wcount.toNat - 1) ∧ SpellsHeader s.wbuf 40 sels ∧
      40 + headerBits sels ≤ 32 * s.wcount.toNat ∧ sels ≠ [] :=
  ⟨loaded exampleWords, [7], by decide, by unfold Memory.Holds; decide, by simp only [SpellsHeader]; decide, by decide,
    by decide⟩

/-- VL-7. -/
theorem witness_ZeroVerifierNeverTerminates :
    ∃ s : State, s.wcount.toNat ≤ s.params.wbufDepth ∧ 2 ≤ s.wcount.toNat ∧
      ∀ g, 40 ≤ g → g < 32 * s.wcount.toNat → s.wbuf.bitAt g = some false :=
  ⟨loaded [0, 0], by decide, by decide, by decide⟩

/-- The state after a command, for the stages of DECODE_CHEAT. -/
def ran (i : Instr) (s : State) : State := final s (exec i s)

theorem next_ran {i : Instr} {s : State} (h : (after (exec i s)).isSome = true) : exec i s = .next (ran i s) :=
  next_final h

/-- Raw words loaded, with the seed state of a key. -/
def keyed (raw : List Word) (key : Word) : State := { ready raw with seed := regenerate key }

/-- The state after ARMAX_BUF, META and VERIFY_LEN. -/
def staged (raw : List Word) (key : Word) : State :=
  ran (.verifyLen 0) (ran (.metadata 0) (ran (.armaxBuf 0) (keyed raw key)))

/-- The hypotheses of the composition that do not speak of its output stage. -/
def Stages (s t₃ : State) (ws : List Word) : Prop :=
  ∃ t₁ t₂, exec (.armaxBuf 0) s = .next t₁ ∧ t₁.err = .ok ∧ exec (.metadata 0) t₁ = .next t₂ ∧ t₂.err = .ok
    ∧ exec (.verifyLen 0) t₂ = .next t₃ ∧ t₃.err = .ok ∧ ws.length = s.wcount.toNat
    ∧ ∀ k < ws.length, t₃.wbuf.read k = ws[k]?

/-- The same, as a check. -/
def stagesCheck (raw ws : List Word) (key : Word) : Bool :=
  let s := keyed raw key
  let t₁ := ran (.armaxBuf 0) s
  let t₂ := ran (.metadata 0) t₁
  (after (exec (.armaxBuf 0) s)).isSome && decide (t₁.err = .ok) && (after (exec (.metadata 0) t₁)).isSome
    && decide (t₂.err = .ok) && (after (exec (.verifyLen 0) t₂)).isSome && decide ((staged raw key).err = .ok)
    && decide (ws.length = s.wcount.toNat) && decide (∀ k < ws.length, (staged raw key).wbuf.read k = ws[k]?)

theorem stages_of_check {raw ws : List Word} {key : Word} (h : stagesCheck raw ws key = true) :
    Stages (keyed raw key) (staged raw key) ws := by
  simp only [stagesCheck, Bool.and_eq_true, decide_eq_true_eq] at h
  obtain ⟨⟨⟨⟨⟨⟨⟨h1, h2⟩, h3⟩, h4⟩, h5⟩, h6⟩, h7⟩, h8⟩ := h
  refine ⟨ran (.armaxBuf 0) (keyed raw key), ran (.metadata 0) (ran (.armaxBuf 0) (keyed raw key)), ?_, h2, ?_, h4, ?_,
    h6, h7, h8⟩
  · exact next_ran h1
  · exact next_ran h3
  · exact next_ran h5

/-- The raw lines of R281's example: two lines of verifier, then a re-key pair. -/
def rawWords : List Word := [0x7E7B48A5, 0xD1477056, 0xE30C0CA4, 0x75A424BE, 0x13DEE8AB, 0x9C1E564A]

theorem stages_verifier_only : stagesCheck (rawWords.take 4) exampleWords 0x07000700 = true := by decide +kernel

theorem stages_remainder : stagesCheck rawWords (exampleWords ++ [0x21520531, 0xF8FDF8FB]) 0x07000700 = true := by
  decide +kernel

theorem stages_bad_seed : stagesCheck rawWords (exampleWords ++ [0x21520531, 0xF8FDF8FB]) 0x08000700 = true := by
  decide +kernel

/-- A stage that faults: ARMAX_BUF on an odd count, META on no words, VERIFY_LEN on a line whose scan runs past the end. -/
theorem witness_DecodeCheat_faults :
    ((ready []).schedValid = true ∧ (ready []).wcount = 0)
      ∧ (∃ s t₁, exec (.armaxBuf 0) s = .next t₁ ∧ t₁.err ≠ .ok)
      ∧ (∃ s t₁ t₂, exec (.armaxBuf 0) s = .next t₁ ∧ t₁.err = .ok ∧ exec (.metadata 0) t₁ = .next t₂ ∧ t₂.err ≠ .ok)
      ∧ ∃ s t₁ t₂ t₃, exec (.armaxBuf 0) s = .next t₁ ∧ t₁.err = .ok ∧ exec (.metadata 0) t₁ = .next t₂ ∧ t₂.err = .ok
        ∧ exec (.verifyLen 0) t₂ = .next t₃ ∧ t₃.err ≠ .ok :=
  ⟨⟨rfl, rfl⟩, ⟨{ ready [] with wcount := 7 }, _, next_ran (by decide), by decide⟩,
    ⟨ready [], _, _, next_ran (by decide), by decide, next_ran (by decide), by decide⟩,
    ⟨ready (rawWords.take 2), _, _, _, next_ran (by decide +kernel), by decide +kernel, next_ran (by decide +kernel),
      by decide +kernel, next_ran (by decide +kernel), by decide +kernel⟩⟩

theorem witness_DecodeCheatComposesTheStages :
    (∃ s t₃ ws, Stages s t₃ ws ∧ s.wcount.toNat ≤ 2 * t₃.verLines.toNat)
      ∧ (∃ s t₃ ws, Stages s t₃ ws ∧ 2 * t₃.verLines.toNat < s.wcount.toNat ∧
        ∃ out sd, decryptCheat s.params (ws.drop (2 * t₃.verLines.toNat)) s.seed = .ok (out, sd))
      ∧ ∃ s t₃ ws, Stages s t₃ ws ∧ 2 * t₃.verLines.toNat < s.wcount.toNat ∧
        ∃ e, decryptCheat s.params (ws.drop (2 * t₃.verLines.toNat)) s.seed = .error e :=
  ⟨⟨_, _, _, stages_of_check stages_verifier_only, by decide +kernel⟩,
    ⟨_, _, _, stages_of_check stages_remainder, by decide +kernel, [], regenerate 0x07020704, by decide +kernel⟩,
    ⟨_, _, _, stages_of_check stages_bad_seed, by decide +kernel, .unsupportedMode, by decide +kernel⟩⟩

theorem witness_DecodeCheatOfOneVerifierLine :
    ∃ (s : State) (a v w₀ w₁ : Word), 2 ≤ s.params.wbufDepth ∧ s.schedValid = true ∧ s.wcount = 2 ∧
      s.wbuf.read 0 = some a ∧ s.wbuf.read 1 = some v ∧ decryptPair s.sched a v = (w₀, w₁) ∧ w₁.getLsbD 23 = true :=
  ⟨ready [0x00000000, 0x00000000], 0x00000000, 0x00000000, 0xA2A70BDA, 0x83935C17, by decide, rfl, by decide,
    by decide, by decide, by decide +kernel, by decide⟩

theorem witness_DataFaultSparesOtherState :
    (∃ s t : State, exec (.decodeCheat 0) s = .next t ∧ t.err ≠ .ok)
      ∧ ∃ s t : State, exec (.ar2Stream 0) s = .next t ∧ t.err ≠ .ok :=
  ⟨⟨ready [], ran (.decodeCheat 0) (ready []), next_final (by decide), by decide⟩,
    ⟨keyed [0, 0] 0x08000000, ran (.ar2Stream 0) (keyed [0, 0] 0x08000000), next_final (by decide), by decide⟩⟩

/-- An instruction that has none of the rows, and one that stores, with words at the ends of both buffers' ranges. -/
theorem witness_InstructionsChangeOnlyTheirRow :
    (∃ (i : Instr) (s t : State), exec i s = .next t ∧ writesRes0 i = false ∧ writesRes1 i = false
        ∧ writesSched i = false ∧ writesSeed i = false ∧ writesCursor i = false ∧ writesCurCnt i = false
        ∧ writesWbuf i = false ∧ writesObuf i = false ∧ writesMeta i = false ∧ writesVerLines i = false)
      ∧ ∃ s t : State, exec (.ar2Stream 0) s = .next t ∧ t.err = .ok ∧ s.wcount.toNat ≤ 7 ∧ t.ocount.toNat ≤ 4 :=
  ⟨⟨.nop 0, loaded [], _, rfl, by decide⟩,
    ⟨loaded streamWords, _, next_ran (by decide), by decide, by decide, by decide⟩⟩

theorem witness_OnlyResetClearsStickyAndSchedValid :
    ∃ s t : State, step s = .next t ∧ (∀ rest, s.bus ≠ .reset :: rest) ∧ s.sticky = true ∧ s.schedValid = true :=
  ⟨{ ready [] with sticky := true, bus := [hostRD (.reg .status)] }, _, rfl, fun _ => by simp [hostRD], rfl, rfl⟩

theorem inv_powerOn : (State.powerOn paramsL).Inv where
  legal := by decide
  wbufWf := by decide
  wbufBelow := by decide
  obufWf := by decide
  obufBelow := by decide
  schedule h := by cases h
  stickyOfErr h := absurd rfl h
  obufHolds i h := absurd h (Nat.not_lt_zero i)

theorem witness_StepKeepsTheInvariant : ∃ s t : State, s.Inv ∧ step s = .next t :=
  ⟨State.powerOn paramsL, _, inv_powerOn, rfl⟩

/-- Both words of a two-word buffer loaded. -/
def bothLoaded (bus : List HostEvent) : State :=
  { State.powerOn paramsL with wbuf := [(0, 5), (1, 6)], bus := bus }

theorem bufferLoaded_bothLoaded (bus : List HostEvent) : (bothLoaded bus).BufferLoaded := by
  show ∀ k, 0 ≤ k → k < 0 + 2 → (Memory.read [(0, 5), (1, 6)] k).isSome = true
  decide

theorem witness_LoadedBufferNeverStops : ∃ s : State, s.BufferLoaded := ⟨_, bufferLoaded_bothLoaded []⟩

theorem witness_ObedientHostRunsSafely : ∃ s : State, s.BufferLoaded ∧ s.HostObeys ∧ s.bus ≠ [] := by
  refine ⟨bothLoaded (hostSEEDKEY 0x07000700), bufferLoaded_bothLoaded _, fun e he => ?_, by decide⟩
  rcases List.mem_cons.1 he with rfl | he
  · exact ⟨_, rfl, by decide⟩
  · rcases List.mem_cons.1 he with rfl | he
    · exact ⟨_, rfl, by decide⟩
    · cases he

end Sys2Proof.Tests
end

section
/-! PROOFS. The state after reset, and the steps that are no bus access or a write to CMD: what a core holds after
power-on and why it meets the invariant (R49, R330), the idle step and the reset input (R30, R330), and the command that
a write to CMD runs (R31, R100). -/

/-- Whatever `Config.openParams` is, the parameters after reset are legal (assumption 1). -/
theorem Sys2Proof.Config.params_legal : Config.params.Legal := by
  unfold Config.params
  split
  · assumption
  · decide

namespace Sys2Proof.Machine

/-! ### The state after reset -/

/-- A core with legal parameters meets the invariant after power-on: its buffers are empty, SCHED_VALID is 0 and no word
is emitted. -/
theorem State.inv_powerOn {p : Params} (hp : p.Legal) : (State.powerOn p).Inv where
  legal := hp
  wbufWf := List.Pairwise.nil
  wbufBelow := List.forall_mem_nil _
  obufWf := List.Pairwise.nil
  obufBelow := List.forall_mem_nil _
  schedule hv := Bool.noConfusion hv
  stickyOfErr he := absurd rfl he
  obufHolds i hi := absurd hi (Nat.not_lt_zero i)

/-- Settles O57. -/
theorem resetMeetsTheInvariant : Obligations.ResetMeetsTheInvariant := State.inv_powerOn Config.params_legal

@[simp] theorem State.powerOn_statusWord (p : Params) : (State.powerOn p).statusWord = 0 := by
  simp [State.statusWord, State.powerOn, flagBit, ErrCode.code]

@[simp] theorem State.powerOn_mdFlagsWord (p : Params) : (State.powerOn p).mdFlagsWord = 0 := by
  simp [State.mdFlagsWord, State.powerOn]

/-- No buffer word holds a value after power-on, and no schedule word while SCHED_VALID is 0 (R37, R43, R44). -/
@[simp] theorem State.powerOn_readTarget_wbuf (p : Params) (i : Nat) :
    (State.powerOn p).readTarget (.wbuf i) = none := rfl

@[simp] theorem State.powerOn_readTarget_obuf (p : Params) (i : Nat) :
    (State.powerOn p).readTarget (.obuf i) = none := by
  simp [State.readTarget, State.powerOn]

@[simp] theorem State.powerOn_readTarget_sched (p : Params) (j : Fin 32) :
    (State.powerOn p).readTarget (.sched j) = none := rfl

/-- Settles O56. -/
theorem resetValues : Obligations.ResetValues := by
  refine ⟨State.powerOn_statusWord _, rfl, rfl, rfl, rfl, rfl, rfl, rfl, rfl, rfl, rfl, rfl,
    State.powerOn_mdFlagsWord _, rfl, rfl, fun i => ⟨?_, ?_, fun j => ?_⟩⟩
  · exact State.powerOn_readTarget_wbuf _ i
  · exact State.powerOn_readTarget_obuf _ i
  · exact State.powerOn_readTarget_sched _ j

/-! ### The idle step, the reset input and the write to CMD -/

/-- With nothing issued, nothing changes (R30, assumption 12). -/
theorem step_of_idle {s : State} (hb : s.bus = []) : step s = .next s := by
  simp only [step, hb]

/-- A step whose next event is the reset input (R330). -/
theorem step_of_reset {s : State} {rest : List HostEvent} (hb : s.bus = .reset :: rest) :
    step s = .next ({ s with bus := rest } : State).platformReset := by
  simp only [step, hb, handle]

/-- Settles O8. -/
theorem idleAndResetSteps : Obligations.IdleAndResetSteps :=
  ⟨fun _ => step_of_idle, fun _ _ => step_of_reset⟩

/-- A step whose next event is a write to CMD issues the word written (R31). -/
theorem step_of_cmd_write {s : State} {w : Word} {rest : List HostEvent} (hb : s.bus = .access (.write 0 4 w) :: rest) :
    step s = issue { s with bus := rest } w := by
  have hw : (Access.write 0 4 w).wellFormed = true := Access.wellFormed_write_regOffset .cmd w
  have ht : ({ s with bus := rest } : State).target 0 = .reg .cmd := State.target_regOffset _ .cmd
  simp only [step, hb, handle, hw, perform, ht, if_true]

/-- A word that decodes runs its command (R100). -/
theorem issue_of_decodeCmd {w : Word} {i : Instr} (hd : decodeCmd w = .ok i) (s : State) : issue s w = exec i s := by
  simp only [issue, hd]

/-- Settles O5. -/
theorem stepRunsDecodedCommand : Obligations.StepRunsDecodedCommand := by
  intro s w rest i hb hd
  rw [step_of_cmd_write hb, issue_of_decodeCmd hd]

end Sys2Proof.Machine
end

section
/-! PROOFS. What a bus read of a register returns: its word through the bus (R73, R79), and the fields of that word
(R35, R39, R45, R300). -/

namespace Sys2Proof.Machine

/-- A bus read of a register logs its word and changes nothing of the core (R73, R79). -/
theorem step_of_reg_read {s : State} {r : Reg} {rest : List HostEvent}
    (hb : s.bus = .access (.read (regOffset r) 4) :: rest) :
    step s = .next { s with bus := rest, readLog := s.readLog ++ [some (s.readReg r)] } := by
  rw [step_of_read hb (Access.wellFormed_read_regOffset r), State.hostRead, State.target_regOffset]
  rfl

/-! ### The fields of a word -/

@[simp] theorem flagBit_getLsbD_zero (b : Bool) : (flagBit b).getLsbD 0 = b := by cases b <;> rfl

/-- A field narrower than the word, in its low bits. -/
theorem extractLsb'_setWidth_low {n : Nat} (x : BitVec n) (h : n ≤ 32) : (x.setWidth 32).extractLsb' 0 n = x := by
  rw [BitVec.extractLsb'_setWidth_of_le (by omega), BitVec.extractLsb'_eq_self]

/-- The bits of the word above such a field. -/
theorem extractLsb'_setWidth_high {n : Nat} (x : BitVec n) (m : Nat) : (x.setWidth 32).extractLsb' n m = 0 := by
  ext i hi
  simp

theorem toNat_setWidth_word {n : Nat} (x : BitVec n) (h : n ≤ 32) : (x.setWidth 32).toNat = x.toNat :=
  BitVec.toNat_setWidth_of_le h

/-- The layout of STATUS (R35), over the width its concatenation is written with. -/
theorem fields_of_status_layout {x : BitVec (15 + 1 + 7 + 1 + 4 + 4)} {sticky valid : BitVec 1} {code : BitVec 4}
    (hx : x = 0#15 ++ sticky ++ 0#7 ++ valid ++ 0#4 ++ code) :
    x.extractLsb' 0 4 = code ∧ x.extractLsb' 4 4 = 0 ∧ x.getLsbD 8 = valid.getLsbD 0 ∧ x.extractLsb' 9 7 = 0
      ∧ x.getLsbD 16 = sticky.getLsbD 0 ∧ x.extractLsb' 17 15 = 0 := by
  subst hx
  refine ⟨?_, ?_, ?_, ?_, ?_, ?_⟩
  · rw [BitVec.extractLsb'_append_eq_right]
  · rw [BitVec.extractLsb'_append_eq_of_le (by decide)]
    exact BitVec.extractLsb'_append_eq_right
  · simp only [BitVec.getLsbD_append, Nat.reduceLT, Nat.reduceSub, if_true, if_false]
  · iterate 3 rw [BitVec.extractLsb'_append_eq_of_le (by decide)]
    exact BitVec.extractLsb'_append_eq_right
  · simp only [BitVec.getLsbD_append, Nat.reduceLT, Nat.reduceSub, if_true, if_false]
  · iterate 4 rw [BitVec.extractLsb'_append_eq_of_le (by decide)]
    exact BitVec.extractLsb'_append_eq_left

/-- The fields of STATUS (R35). -/
theorem State.statusWord_fields (s : State) :
    s.statusWord.extractLsb' 0 4 = s.err.code ∧ s.statusWord.extractLsb' 4 4 = 0
      ∧ s.statusWord.getLsbD 8 = s.schedValid ∧ s.statusWord.extractLsb' 9 7 = 0
      ∧ s.statusWord.getLsbD 16 = s.sticky ∧ s.statusWord.extractLsb' 17 15 = 0 := by
  obtain ⟨hcode, hlow, hvalid, hmid, hsticky, htop⟩ := fields_of_status_layout (x := s.statusWord) rfl
  exact ⟨hcode, hlow, hvalid.trans (flagBit_getLsbD_zero _), hmid, hsticky.trans (flagBit_getLsbD_zero _), htop⟩

/-- The layout of MD_FLAGS (R45), over the width its concatenation is written with. -/
theorem fields_of_mdFlags_layout {x : BitVec (29 + 2 + 1)} {region : BitVec 2} {enable : BitVec 1}
    (hx : x = 0#29 ++ region ++ enable) :
    x.extractLsb' 0 1 = enable ∧ x.extractLsb' 1 2 = region ∧ x.extractLsb' 3 29 = 0 := by
  subst hx
  refine ⟨?_, ?_, ?_⟩
  · rw [BitVec.extractLsb'_append_eq_right]
  · rw [BitVec.extractLsb'_append_eq_of_le (by decide)]
    exact BitVec.extractLsb'_append_eq_right
  · rw [BitVec.extractLsb'_append_eq_of_le (by decide)]
    exact BitVec.extractLsb'_append_eq_left

/-- The fields of MD_FLAGS (R45). -/
theorem State.mdFlagsWord_fields (s : State) :
    s.mdFlagsWord.extractLsb' 0 1 = s.mdEnable ∧ s.mdFlagsWord.extractLsb' 1 2 = s.mdRegion
      ∧ s.mdFlagsWord.extractLsb' 3 29 = 0 :=
  fields_of_mdFlags_layout rfl

/-- No code above 6 is written (R300). -/
theorem ErrCode.code_le (e : ErrCode) : e.code.toNat ≤ 6 := by cases e <;> decide

/-- Settles O16. -/
theorem registerReadsShowTheirFields : Obligations.RegisterReadsShowTheirFields := by
  refine ⟨fun _ _ _ => step_of_reg_read, State.statusWord_fields, ⟨rfl, ErrCode.code_le⟩, fun s => ?_, fun s => ?_⟩
  · obtain ⟨henable, hregion, hzero⟩ := s.mdFlagsWord_fields
    exact ⟨henable, hregion, hzero,
      extractLsb'_setWidth_low s.mdGame (by decide), extractLsb'_setWidth_high s.mdGame 19,
      extractLsb'_setWidth_low s.mdCheat (by decide), extractLsb'_setWidth_high s.mdCheat 13,
      extractLsb'_setWidth_low s.ocount (by decide), extractLsb'_setWidth_high s.ocount 21⟩
  · exact ⟨rfl, rfl, rfl, rfl, rfl, rfl,
      toNat_setWidth_word s.opc (by decide), toNat_setWidth_word s.opd (by decide),
      toNat_setWidth_word s.cur.idx (by decide), toNat_setWidth_word s.cur.off (by decide),
      toNat_setWidth_word s.cur.cnt (by decide), toNat_setWidth_word s.wcount (by decide)⟩

end Sys2Proof.Machine
end

section
/-! PROOFS. ARMAX_BUF on a WBUF word that holds no value (R43). -/

namespace Sys2Proof.Machine

/-- Once its checks pass, ARMAX_BUF ends as its lines do (R147, R308). -/
theorem exec_armaxBuf_of_ready (ig : BitVec 24) {s : State} (hdepth : s.wcount.toNat ≤ s.params.wbufDepth)
    (hvalid : s.schedValid = true) (heven : s.wcount.toNat % 2 = 0) :
    exec (.armaxBuf ig) s =
      s.conclude [] ((decryptLines s.sched (s.wcount.toNat / 2) 0 s.wbuf).map fun m => { s with wbuf := m }) :=
  State.checked_of_pass (State.armaxChecks_pass.2 ⟨hdepth, hvalid, heven⟩)

/-- Lines that were all decrypted all held values. -/
theorem Memory.holds_of_decryptLines {sched : Vector Word 32} {n i : Nat} {m m' : Memory}
    (h : decryptLines sched n i m = .ok m') : m.Holds i (2 * n) := by
  intro k hik hkn
  obtain ⟨a, v, ha, hv, -⟩ := (decryptLines_ok h).2 ((k - i) / 2) (by omega)
  rcases Nat.mod_two_eq_zero_or_one (k - i) with hmod | hmod
  · rw [show k = i + 2 * ((k - i) / 2) by omega, ha]; rfl
  · rw [show k = i + 2 * ((k - i) / 2) + 1 by omega, hv]; rfl

/-- Settles O26: the lines cannot all complete, and they stop only at a word without a value. -/
theorem unwrittenWordStopsArmaxBuf : Obligations.UnwrittenWordStopsArmaxBuf := by
  intro ig s k hdepth hvalid heven hk hnone
  rw [exec_armaxBuf_of_ready ig hdepth hvalid heven]
  cases hlines : decryptLines s.sched (s.wcount.toNat / 2) 0 s.wbuf with
  | ok m =>
    have held := Memory.holds_of_decryptLines hlines k (Nat.zero_le k) (by omega)
    rw [hnone] at held
    cases held
  | error e =>
    obtain ⟨j, rfl, hj, -, hlt⟩ := decryptLines_error hlines
    exact ⟨j, rfl, by omega, hj⟩

end Sys2Proof.Machine
end

section
/-! PROOFS. Every step keeps the invariant (R36, R38, R42 to R44, R311), and the parameters (R47). The parts in order: a
buffer filled with free values, the data faults, the stages of DECODE_CHEAT, every instruction through `Executes`, every
other host event, and the step. -/

namespace Sys2Proof.Machine

/-! ### Words and counts -/

/-- Every index below a number of words written from 0 on holds a value. -/
theorem Memory.isSome_read_writeWords_zero (m : Memory) {ws : List Word} {k : Nat} (hk : k < ws.length) :
    ((m.writeWords 0 ws).read k).isSome = true :=
  Memory.isSome_read_writeWords (.inl ⟨Nat.zero_le k, by omega⟩)

/-- An 11-bit count never shows more than what it counts. -/
theorem lt_of_lt_toNat_ofNat {w n k : Nat} (hk : k < (BitVec.ofNat w n).toNat) : k < n :=
  Nat.lt_of_lt_of_le hk (by rw [BitVec.toNat_ofNat]; exact Nat.mod_le _ _)

/-! ### The data faults (R307) -/

/-- A data fault that spoils OBUF gives every slot of it a free value, so that OCOUNT may be any (assumption 6). -/
theorem State.Inv.spoil_obuf {s : State} (hs : s.Inv) (f : Nat → Word) (n : BitVec 11) :
    State.Inv { s with obuf := s.obuf.writeWords 0 ((List.range s.params.wbufDepth).map f), ocount := n } :=
  { hs with
    obufWf := Memory.wf_writeWords hs.obufWf 0 _
    obufBelow := Memory.below_writeWords hs.obufBelow (by simp)
    obufHolds := fun i _ hi => Memory.isSome_read_writeWords_zero s.obuf (by simpa using hi) }

/-- A data fault that spoils the WBUF words below WCOUNT writes inside the depth that the command's check has held
WCOUNT to (R306). -/
theorem State.Inv.spoil_wbuf {s : State} (hs : s.Inv) (hd : s.wcount.toNat ≤ s.params.wbufDepth) (f : Nat → Word) :
    State.Inv { s with wbuf := s.wbuf.writeWords 0 ((List.range s.wcount.toNat).map f) } :=
  { hs with
    wbufWf := Memory.wf_writeWords hs.wbufWf 0 _
    wbufBelow := Memory.below_writeWords hs.wbufBelow (by simpa using hd) }

theorem State.Inv.takeFault_stream {s : State} (hs : s.Inv) (e : ErrCode) :
    (s.takeFault e [.obuf, .ocount, .seed]).Inv := by
  rw [State.takeFault_stream]
  exact { hs.spoil_obuf (Config.freeObuf s.freeCount) (Config.freeOcount s.freeCount) with stickyOfErr := fun _ => rfl }

theorem State.Inv.takeFault_meta {s : State} (hs : s.Inv) (e : ErrCode) : (s.takeFault e [.md, .cursor]).Inv := by
  rw [State.takeFault_meta]
  exact { hs with stickyOfErr := fun _ => rfl }

theorem State.Inv.takeFault_verify {s : State} (hs : s.Inv) (e : ErrCode) :
    (s.takeFault e [.verLines, .cursor]).Inv := by
  rw [State.takeFault_verify]
  exact { hs with stickyOfErr := fun _ => rfl }

theorem State.Inv.takeFault_decode {s : State} (hs : s.Inv) (hd : s.wcount.toNat ≤ s.params.wbufDepth) (e : ErrCode) :
    (s.takeFault e decodeDests).Inv := by
  rw [State.takeFault_decode]
  exact
    { (hs.spoil_wbuf hd (Config.freeWbuf s.freeCount)).spoil_obuf (Config.freeObuf s.freeCount)
        (Config.freeOcount s.freeCount) with
      stickyOfErr := fun _ => rfl }

/-! ### What completes -/

theorem State.Inv.succeed {s : State} (hs : s.Inv) : s.succeed.Inv :=
  { hs with stickyOfErr := fun h => absurd rfl h }

/-- The decrypted lines stay inside the depth (R147). -/
theorem State.Inv.of_decryptLines {s : State} (hs : s.Inv) (hd : s.wcount.toNat ≤ s.params.wbufDepth) {m : Memory}
    (hm : decryptLines s.sched (s.wcount.toNat / 2) 0 s.wbuf = .ok m) : State.Inv { s with wbuf := m } :=
  { hs with
    wbufWf := decryptLines_wf hm hs.wbufWf
    wbufBelow :=
      decryptLines_below hm hs.wbufBelow (show 0 + 2 * (s.wcount.toNat / 2) ≤ s.params.wbufDepth by omega) }

/-- Words stored inside the depth, of which no more are counted than hold a value (R42, R44). -/
theorem State.Inv.emit {s : State} (hs : s.Inv) {p : Nat} {ws : List Word} {n : BitVec 11}
    (hfit : p + ws.length ≤ s.params.wbufDepth)
    (hold : ∀ i, i < n.toNat → (p ≤ i ∧ i < p + ws.length) ∨ (s.obuf.read i).isSome = true) :
    State.Inv { s with obuf := s.obuf.writeWords p ws, ocount := n } :=
  { hs with
    obufWf := Memory.wf_writeWords hs.obufWf p ws
    obufBelow := Memory.below_writeWords hs.obufBelow hfit
    obufHolds := fun i hi _ => Memory.isSome_read_writeWords (hold i hi) }

/-- The stream writes at most as many words as it reads, and counts those (R206, R208). -/
theorem State.Inv.of_stream {s : State} (hs : s.Inv) (hd : s.wcount.toNat ≤ s.params.wbufDepth)
    {out : List Word} {sd : Seed}
    (ho : ar2Pairs s.params s.wbuf (s.wcount.toNat / 2) 0 s.seed = .ok (out, sd)) :
    State.Inv { s with obuf := s.obuf.writeWords 0 out, ocount := BitVec.ofNat 11 out.length, seed := sd } := by
  have hlen := (ar2Pairs_ok ho).2.1
  have hout := hs.emit (p := 0) (ws := out) (n := BitVec.ofNat 11 out.length) (by omega) fun i hi =>
    .inl ⟨Nat.zero_le i, by have := lt_of_lt_toNat_ofNat hi; omega⟩
  exact { hout with }

/-- Stage 3 of DECODE_CHEAT: the copied words and the stream's words lie side by side from index 0 on, below WCOUNT
(R281). -/
theorem outputStage_inv {s t : State} (h : outputStage s = .ok t) (hs : s.Inv)
    (hd : s.wcount.toNat ≤ s.params.wbufDepth) : t.Inv := by
  obtain ⟨ws, hws, hcase⟩ := outputStage_ok h
  have hcopied : ws.length = min s.ar2Start s.wcount.toNat := (Memory.words_eq_ok.1 hws).1
  rcases hcase with ⟨hle, rfl⟩ | ⟨out, sd, hlt, hout, rfl⟩
  · exact hs.emit (by omega) fun i hi => .inl ⟨Nat.zero_le i, by omega⟩
  · have hlen := (ar2Pairs_ok hout).2.1
    have hcopy := hs.emit (p := 0) (ws := ws) (n := 0) (by omega) fun i hi => absurd hi (Nat.not_lt_zero i)
    have hrest := hcopy.emit (p := s.ar2Start) (ws := out) (n := BitVec.ofNat 11 (s.ar2Start + out.length))
      (show s.ar2Start + out.length ≤ s.params.wbufDepth by omega) fun i hi => by
        have hi' := lt_of_lt_toNat_ofNat hi
        by_cases hp : s.ar2Start ≤ i
        · exact .inl ⟨hp, hi'⟩
        · exact .inr (Memory.isSome_read_writeWords_zero s.obuf (by omega))
    exact { hrest with }

/-- The stages of DECODE_CHEAT in turn (R281). -/
theorem decodeStages_inv {s t : State} (h : decodeStages s = .ok t) (hs : s.Inv)
    (hd : s.wcount.toNat ≤ s.params.wbufDepth) : t.Inv := by
  obtain ⟨m, f, c, used, d, hm, -, -, hout⟩ := decodeStages_ok h
  exact outputStage_inv hout { hs.of_decryptLines hd hm with } hd

theorem decodeStages_params {s t : State} (h : decodeStages s = .ok t) : t.params = s.params := by
  rw [(decodeStages_frame h).1]

/-! ### Every instruction -/

theorem Executes.inv {s t : State} {i : Instr} (h : Executes s i t) (hs : s.Inv) : t.Inv := by
  cases h with
  | checkFault e he => exact { hs with stickyOfErr := fun _ => rfl }
  | streamFault ig e he hd => exact hs.takeFault_stream e
  | metaFault ig => exact hs.takeFault_meta _
  | verifyFault ig => exact hs.takeFault_verify _
  | decodeFault ig e he hd => exact hs.takeFault_decode hd e
  | gen ig => exact { hs.succeed with schedule := fun _ => rfl }
  | buf ig m hd hm => exact (hs.of_decryptLines hd hm).succeed
  | stream ig out sd hd ho => exact (hs.of_stream hd ho).succeed
  | decode ig u hd he hu => exact (decodeStages_inv hu hs hd).succeed
  | nop | pair | seedDefault | seedKey | code | read | fields | verify => exact { hs.succeed with }

theorem Executes.params {s t : State} {i : Instr} (h : Executes s i t) : t.params = s.params := by
  cases h with
  | streamFault | metaFault | verifyFault | decodeFault => exact State.takeFault_params _ _ _
  | decode ig u hd he hu => exact (State.succeed_params u).trans (decodeStages_params hu)
  | _ => rfl

/-! ### The other host events -/

/-- A write to a register stores in an operand, a cursor register or WCOUNT, of which the invariant says nothing
(R73). -/
theorem State.Inv.writeReg {s : State} (hs : s.Inv) (v : Word) (r : Reg) : (s.writeReg v r).Inv := by
  cases r <;> exact { hs with }

/-- Only a slot below the depth is a WBUF target (R71). -/
theorem lt_of_target_eq_wbuf {s : State} {offset i : Nat} (h : s.target offset = .wbuf i) : i < s.params.wbufDepth := by
  unfold State.target decodeOffset at h
  split at h
  · split at h <;> cases h
  · split at h
    · cases h
    · split at h
      · rename_i hslot
        cases h
        exact hslot.2.2
      · split at h <;> cases h

/-- A host write to an offset other than CMD (R72, R73, R76). -/
theorem State.Inv.hostWrite {s : State} (hs : s.Inv) (offset : Nat) (v : Word) : (s.hostWrite offset v).Inv := by
  unfold State.hostWrite
  cases htarget : s.target offset with
  | reg r => exact hs.writeReg v r
  | wbuf i =>
    exact
      { hs with
        wbufWf := Memory.wf_write hs.wbufWf i v
        wbufBelow := Memory.below_write hs.wbufBelow v (lt_of_target_eq_wbuf htarget) }
  | sched i => exact hs
  | obuf i => exact hs
  | reserved => exact hs

theorem State.hostWrite_params (s : State) (offset : Nat) (v : Word) : (s.hostWrite offset v).params = s.params := by
  unfold State.hostWrite
  cases s.target offset with
  | reg r => cases r <;> rfl
  | _ => rfl

/-- The reset input keeps the parameters, so it gives a legal core after power-on (R330). -/
theorem State.Inv.platformReset {s : State} (hs : s.Inv) : s.platformReset.Inv :=
  { State.inv_powerOn hs.legal with }

/-- A write to CMD: its command, or ILLEGAL_COMMAND (R100, R301). -/
theorem issue_inv {s t : State} {w : Word} (h : issue s w = .next t) (hs : s.Inv) :
    t.Inv ∧ t.params = s.params := by
  rcases issue_cases s w with ⟨i, -, hi⟩ | ⟨e, -, he⟩
  · have hx := exec_next (hi ▸ h)
    exact ⟨hx.inv hs, hx.params⟩
  · cases he.symm.trans h
    exact ⟨{ hs with stickyOfErr := fun _ => rfl }, rfl⟩

/-! ### The step -/

/-- Settles O58: by the kinds of step; a step takes its event from the queue, of which the invariant says nothing. -/
theorem stepKeepsTheInvariant : Obligations.StepKeepsTheInvariant := by
  intro s t hs h
  have taken : ∀ rest, State.Inv { s with bus := rest } := fun _ => { hs with }
  rcases step_cases h with ⟨-, rfl⟩ | ⟨rest, -, rfl⟩ | ⟨o, n, rest, -, -, rfl⟩ |
    ⟨o, n, v, rest, -, -, ⟨-, rfl⟩ | ⟨-, hissue⟩⟩
  · exact ⟨hs, rfl⟩
  · exact ⟨(taken rest).platformReset, rfl⟩
  · exact ⟨{ hs with }, rfl⟩
  · exact ⟨(taken rest).hostWrite o v, State.hostWrite_params _ o v⟩
  · obtain ⟨hinv, hparams⟩ := issue_inv hissue (taken rest)
    exact ⟨hinv, hparams⟩

end Sys2Proof.Machine
end

section
/-! PROOFS. The bus and the address map (R70 to R79): the accesses that have a step, what each offset names, and what a
read or a write of a target does in one step. -/

namespace Sys2Proof.Machine

/-! ### The accesses that have a step (R70) -/

theorem Access.wellFormed_iff {a : Access} :
    a.wellFormed = true ↔ a.size = 4 ∧ a.offset % 4 = 0 ∧ a.offset < 0x4000 := by
  simp [Access.wellFormed, and_assoc]

/-- A step whose next access the bus does not define (R70). -/
theorem step_of_undefined_access {s : State} {a : Access} {rest : List HostEvent} (hb : s.bus = .access a :: rest)
    (hw : a.wellFormed ≠ true) : step s = .fault (.stuckAccess a.offset a.size) := by
  simp only [step, hb, handle, if_neg hw]

/-- Settles O9. -/
theorem undefinedAccessHasNoStep : Obligations.UndefinedAccessHasNoStep := by
  intro s a rest hb hbad
  refine step_of_undefined_access hb fun hw => ?_
  obtain ⟨hsize, halign, hspace⟩ := Access.wellFormed_iff.1 hw
  rcases hbad with h | h | h
  · exact h hsize
  · exact h halign
  · exact absurd hspace (Nat.not_lt.2 h)

/-! ### What an offset names (R71) -/

theorem decodeOffset_sched (depth : Nat) (i : Fin 32) : decodeOffset depth (0x100 + 4 * i.val) = .sched i := by
  have hi := i.isLt
  rw [decodeOffset, if_neg (by omega), dif_pos (by omega)]
  congr 2
  omega

theorem decodeOffset_wbuf {depth i : Nat} (hd : i < depth) (hi : i < 1024) :
    decodeOffset depth (0x1000 + 4 * i) = .wbuf i := by
  have hslot : (0x1000 + 4 * i - 0x1000) / 4 = i := by omega
  rw [decodeOffset, if_neg (by omega), dif_neg (by omega), hslot, if_pos (by omega)]

theorem decodeOffset_obuf {depth i : Nat} (hd : i < depth) (hi : i < 1024) :
    decodeOffset depth (0x2000 + 4 * i) = .obuf i := by
  have hslot : (0x2000 + 4 * i - 0x2000) / 4 = i := by omega
  rw [decodeOffset, if_neg (by omega), dif_neg (by omega), if_neg (by omega), hslot, if_pos (by omega)]

/-- Past the registers, an offset in no window, or past the depth in a buffer's window, is reserved. -/
theorem decodeOffset_reserved {depth o : Nat} (hreg : 0x048 ≤ o) (hsched : o < 0x100 ∨ 0x180 ≤ o)
    (hwbuf : o < 0x1000 ∨ 0x2000 ≤ o ∨ depth ≤ (o - 0x1000) / 4)
    (hobuf : o < 0x2000 ∨ 0x3000 ≤ o ∨ depth ≤ (o - 0x2000) / 4) : decodeOffset depth o = .reserved := by
  rw [decodeOffset, if_neg (by omega), dif_neg (by omega), if_neg (by omega), if_neg (by omega)]

/-- Settles O11. -/
theorem addressMapNamesEachTarget : Obligations.AddressMapNamesEachTarget := by
  intro depth hdepth
  refine ⟨fun r => ?_, decodeOffset_sched depth, fun i hi => ?_, fun i hi => ?_, fun i hle hi => ⟨?_, ?_⟩, fun o ho => ?_⟩
  · cases r <;> rfl
  · exact decodeOffset_wbuf hi (by omega)
  · exact decodeOffset_obuf hi (by omega)
  · exact decodeOffset_reserved (by omega) (by omega) (by omega) (by omega)
  · exact decodeOffset_reserved (by omega) (by omega) (by omega) (by omega)
  · exact decodeOffset_reserved (by omega) (by omega) (by omega) (by omega)

/-! ### One step of a read (R79) -/

/-- What a target reads as does not depend on the host's side. -/
theorem State.readTarget_host_side (s : State) (bus : List HostEvent) (log : List (Option Word)) (t : Target) :
    ({ s with bus := bus, readLog := log } : State).readTarget t = s.readTarget t := by
  cases t with
  | reg r => cases r <;> rfl
  | _ => rfl

/-- A read logs what its target reads as, and changes nothing of the core (R79). -/
theorem step_of_target_read {s : State} {o : Nat} {rest : List HostEvent} {t : Target}
    (hb : s.bus = .access (.read o 4) :: rest) (halign : o % 4 = 0) (hspace : o < 0x4000) (ht : s.target o = t) :
    step s = .next { s with bus := rest, readLog := s.readLog ++ [s.readTarget t] } := by
  have htarget : ({ s with bus := rest } : State).target o = t := ht
  have hread : ({ s with bus := rest } : State).readTarget t = s.readTarget t := s.readTarget_host_side rest s.readLog t
  rw [step_of_read hb (Access.wellFormed_iff.2 ⟨rfl, halign, hspace⟩), State.hostRead, htarget, hread]

/-- Settles O10. -/
theorem readsHaveNoSideEffects : Obligations.ReadsHaveNoSideEffects := by
  intro s o rest halign hspace hb
  refine ⟨s.readTarget (s.target o), _, step_of_target_read hb halign hspace rfl, rfl, ?_⟩
  refine (step_of_target_read rfl halign hspace rfl).trans ?_
  rw [State.readTarget_host_side, List.append_assoc]
  rfl

/-- Settles O15. -/
theorem windowReads : Obligations.WindowReads := by
  intro s o rest hb
  refine ⟨fun i ho hd hi => ?_, fun i ho => ?_, fun i ho hd hi => ?_⟩ <;> subst ho
  · exact step_of_target_read hb (by omega) (by omega) (decodeOffset_obuf hd hi)
  · exact step_of_target_read hb (by omega) (by omega) (decodeOffset_sched _ i)
  · exact step_of_target_read hb (by omega) (by omega) (decodeOffset_wbuf hd hi)

/-! ### One step of a write (R72, R73, R76) -/

/-- A write to a target other than CMD only stores its value (R79). -/
theorem step_of_target_write {s : State} {o : Nat} {v : Word} {rest : List HostEvent} {t : Target}
    (hb : s.bus = .access (.write o 4 v) :: rest) (halign : o % 4 = 0) (hspace : o < 0x4000) (ht : s.target o = t)
    (hcmd : t ≠ .reg .cmd) : step s = .next (({ s with bus := rest } : State).writeTarget v t) := by
  have htarget : ({ s with bus := rest } : State).target o = t := ht
  rw [step_of_write hb (Access.wellFormed_iff.2 ⟨rfl, halign, hspace⟩) (ht ▸ hcmd), State.hostWrite, htarget]

/-- A read-only register ignores a write (R73). -/
theorem State.writeReg_readOnly {r : Reg}
    (hr : r ∈ [Reg.status, .res0, .res1, .ar2seed, .ocount, .mdGame, .mdCheat, .mdFlags, .verLines])
    (s : State) (v : Word) : s.writeReg v r = s := by
  simp only [List.mem_cons, List.not_mem_nil, or_false] at hr
  rcases hr with rfl | rfl | rfl | rfl | rfl | rfl | rfl | rfl | rfl <;> rfl

/-- Settles O12. -/
theorem ignoredWritesAndZeroReads : Obligations.IgnoredWritesAndZeroReads := by
  constructor
  · intro s o v rest halign hspace hb ht
    rcases ht with ht | ⟨i, ht⟩ | ⟨i, ht⟩ | ⟨r, hr, ht⟩
    · exact step_of_target_write hb halign hspace ht nofun
    · exact step_of_target_write hb halign hspace ht nofun
    · exact step_of_target_write hb halign hspace ht nofun
    · have hcmd : Target.reg r ≠ .reg .cmd := by
        rintro ⟨⟩
        revert hr
        decide
      rw [step_of_target_write hb halign hspace ht hcmd, State.writeTarget, State.writeReg_readOnly hr]
  · intro s o rest halign hspace hb ht
    rcases ht with ht | ht <;> exact step_of_target_read hb halign hspace ht

/-- Settles O14. -/
theorem wbufWriteStoresOneWord : Obligations.WbufWriteStoresOneWord := by
  intro s i v rest hd hi hb
  refine ⟨s.wbuf.write i v, ?_, Memory.read_write_same _ i v, fun k hk => Memory.read_write_other _ v hk⟩
  exact step_of_target_write hb (by omega) (by omega) (decodeOffset_wbuf hd hi) nofun

/-! ### The writable registers (R73) -/

/-- A write to a register other than CMD stores its field (R73, R79). -/
theorem step_of_reg_write {s : State} {r : Reg} {v : Word} {rest : List HostEvent}
    (hb : s.bus = .access (.write (regOffset r) 4 v) :: rest) (hr : r ≠ .cmd) :
    step s = .next (({ s with bus := rest } : State).writeReg v r) := by
  obtain ⟨-, halign, hspace⟩ := Access.wellFormed_iff.1 (Access.wellFormed_write_regOffset r v)
  exact step_of_target_write hb halign hspace (s.target_regOffset r) fun h => hr (Target.reg.inj h)

@[simp] theorem State.writeReg_bus (s : State) (v : Word) (r : Reg) : (s.writeReg v r).bus = s.bus := by
  cases r <;> rfl

@[simp] theorem State.writeReg_readLog (s : State) (v : Word) (r : Reg) : (s.writeReg v r).readLog = s.readLog := by
  cases r <;> rfl

/-- The low `n` bits of a word, shown with zeros above, are its bits under the field's mask. -/
theorem setWidth_extractLsb'_low (v : Word) (n : Nat) :
    (v.extractLsb' 0 n).setWidth 32 = v &&& BitVec.ofNat 32 (2 ^ n - 1) := by
  ext i hi
  simp [← BitVec.getLsbD_eq_getElem, BitVec.getLsbD_ofNat, Nat.testBit_two_pow_sub_one, hi, Bool.and_comm]

/-- What a writable register reads as after a write (R73). -/
theorem State.readReg_writeReg {r : Reg} {field : Word} (hr : (r, field) ∈ writableFields) (s : State) (v : Word) :
    (s.writeReg v r).readReg r = v &&& field := by
  have full : v = v &&& 0xFFFFFFFF#32 := BitVec.and_allOnes.symm
  simp only [writableFields, List.mem_cons, List.not_mem_nil, or_false, Prod.mk.injEq] at hr
  rcases hr with ⟨rfl, rfl⟩ | ⟨rfl, rfl⟩ | ⟨rfl, rfl⟩ | ⟨rfl, rfl⟩ | ⟨rfl, rfl⟩ | ⟨rfl, rfl⟩ | ⟨rfl, rfl⟩ | ⟨rfl, rfl⟩
  · exact full
  · exact full
  · exact setWidth_extractLsb'_low v 8
  · exact setWidth_extractLsb'_low v 8
  · exact setWidth_extractLsb'_low v 11
  · exact setWidth_extractLsb'_low v 5
  · exact setWidth_extractLsb'_low v 11
  · exact setWidth_extractLsb'_low v 11

theorem ne_cmd_of_mem_writableFields {r : Reg} {field : Word} (hr : (r, field) ∈ writableFields) : r ≠ .cmd := by
  rintro rfl
  simp [writableFields] at hr

/-- Settles O13. -/
theorem writableRegistersReadBack : Obligations.WritableRegistersReadBack := by
  constructor
  · intro s r v rest hb
    have written := step_of_reg_write hb
    have low8 : v.setWidth 8 = v.extractLsb' 0 8 := BitVec.setWidth_eq_extractLsb' (by decide)
    have low11 : v.setWidth 11 = v.extractLsb' 0 11 := BitVec.setWidth_eq_extractLsb' (by decide)
    have low5 : v.setWidth 5 = v.extractLsb' 0 5 := BitVec.setWidth_eq_extractLsb' (by decide)
    rw [low8, low11, low5]
    refine ⟨?_, ?_, ?_, ?_, ?_, ?_, ?_, ?_⟩ <;> rintro rfl <;> exact written nofun
  · intro s r field v rest hr hb
    refine ⟨_, step_of_reg_write hb (ne_cmd_of_mem_writableFields hr), ?_⟩
    rw [step_of_reg_read (State.writeReg_bus _ v r), State.readReg_writeReg hr, State.writeReg_readLog]

end Sys2Proof.Machine
end

section
/-! PROOFS. Runs from a loaded buffer (R43, R310, R333). The parts in order: a read of a loaded buffer finds a value, what
the stages keep of it, why no command stops, what every instruction keeps, and the step and the run. -/

namespace Sys2Proof.Machine

/-! ### Loaded words -/

theorem Memory.Holds.mono {m : Memory} {i n n' : Nat} (h : m.Holds i n) (hn : n' ≤ n) : m.Holds i n' :=
  fun k hik hkn => h k hik (by omega)

theorem Memory.Holds.read_ne_none {m : Memory} {n j : Nat} (h : m.Holds 0 n) (hj : j < n) : m.read j ≠ none :=
  Option.isSome_iff_ne_none.1 (h j (Nat.zero_le j) (by omega))

theorem Memory.Holds.write {m : Memory} {i n : Nat} (h : m.Holds i n) (j : Nat) (w : Word) : (m.write j w).Holds i n :=
  fun k hik hkn => Memory.isSome_read_write (h k hik hkn)

theorem Memory.Holds.writeWords {m : Memory} {i n : Nat} (h : m.Holds i n) (j : Nat) (ws : List Word) :
    (m.writeWords j ws).Holds i n :=
  fun k hik hkn => Memory.isSome_read_writeWords (.inr (h k hik hkn))

/-- Decrypting lines in place takes no word's value away (R147). -/
theorem Memory.Holds.of_decryptLines {sched : Vector Word 32} {n i a b : Nat} {m m' : Memory} (h : m.Holds a b)
    (hm : decryptLines sched n i m = .ok m') : m'.Holds a b := by
  induction n generalizing i m with
  | zero => cases hm; exact h
  | succ n ih =>
    simp only [decryptLines, Except.bind_eq_ok] at hm
    obtain ⟨_, -, _, -, hm⟩ := hm
    exact ih ((h.write _ _).write _ _) hm

/-! ### No stage stops on a word without a value -/

/-- A command stops only after its checks pass, and only at a word without a value (R43). -/
theorem State.exists_checked_conclude {s : State} {l : List (Bool × ErrCode)} {ds : List Dest} {r : Except Stop State}
    (h : (∀ c ∈ l, c.1 = false) → ∀ i, r ≠ .error (.noValue i)) : ∃ t, s.checked l (s.conclude ds r) = .next t := by
  rcases s.checked_cases l (s.conclude ds r) with ⟨hpass, heq⟩ | ⟨e, -, heq⟩
  · rw [heq]
    match r, h hpass with
    | .ok t, _ => exact ⟨_, rfl⟩
    | .error (.raised e), _ => exact ⟨_, rfl⟩
    | .error (.noValue i), hne => exact absurd rfl (hne i)
  · exact ⟨_, heq⟩

theorem State.exists_concludeRes0 (s : State) (r : Except ErrCode Word) : ∃ t, s.concludeRes0 r = .next t := by
  rcases s.concludeRes0_cases r with ⟨_, -, h⟩ | ⟨_, -, h⟩ <;> exact ⟨_, h⟩

section
variable {s : State} {i : Nat}

theorem armaxStage_ne_noValue (hv : s.wbuf.Holds 0 s.wcount.toNat) : armaxStage s ≠ .error (.noValue i) := by
  intro h
  obtain ⟨j, -, hnone, -, hj⟩ := decryptLines_error (Except.map_eq_error.1 h)
  exact hv.read_ne_none (by omega) hnone

theorem ar2Stream_ne_noValue (hv : s.wbuf.Holds 0 s.wcount.toNat) :
    ar2Stream s 0 s.wcount.toNat 0 ≠ .error (.noValue i) := by
  intro h
  rcases ar2Pairs_error (Except.map_eq_error.1 h) with (h | h) | ⟨j, -, hnone, -, hj⟩
  · cases h
  · cases h
  · exact hv.read_ne_none (by omega) hnone

theorem readBits_ne_noValue {m : Memory} {n : Nat} {c : Cursor} (hv : m.Holds 0 c.cnt.toNat) :
    readBits m n c ≠ .error (.noValue i) := by
  intro h
  rcases readBits_of_holds (n := n) hv with ⟨_, hr, -⟩ | ⟨hr, -⟩ <;> rw [hr] at h <;> cases h

theorem metaStage_ne_noValue (hv : s.wbuf.Holds 0 s.wcount.toNat) : metaStage s ≠ .error (.noValue i) := by
  intro h
  have herr := Except.map_eq_error.1 h
  rcases metaFields_of_holds (c := s.metaStart) hv with ⟨_, _, hr, -⟩ | hr <;> rw [hr] at herr <;> cases herr

theorem verifyStage_ne_noValue (hv : s.wbuf.Holds 0 s.wcount.toNat) : verifyStage s ≠ .error (.noValue i) := by
  intro h
  have herr := Except.map_eq_error.1 h
  unfold scan at herr
  rcases scanLoop_of_holds (c := s.verifierStart) hv with ⟨_, _, hr⟩ | hr <;> rw [hr] at herr <;> cases herr

theorem outputStage_ne_noValue (hv : s.wbuf.Holds 0 s.wcount.toNat) : outputStage s ≠ .error (.noValue i) := by
  intro h
  rcases outputStage_error h with ⟨e, -, he⟩ | ⟨j, -, hnone, hj⟩
  · cases he
  · exact hv.read_ne_none hj hnone

/-- The ARMAX stage leaves a value in every word, and the two stages after it only read WBUF (R281). -/
theorem decodeStages_ne_noValue (hv : s.wbuf.Holds 0 s.wcount.toNat) : decodeStages s ≠ .error (.noValue i) := by
  intro h
  rcases Except.bind_eq_error.1 h with h | ⟨t₁, h₁, h⟩
  · exact armaxStage_ne_noValue hv h
  obtain ⟨m, hm, rfl⟩ := Except.map_eq_ok.1 h₁
  have hv' : m.Holds 0 s.wcount.toNat := hv.of_decryptLines hm
  rcases Except.bind_eq_error.1 h with h | ⟨t₂, h₂, h⟩
  · exact metaStage_ne_noValue hv' h
  obtain ⟨⟨f, c⟩, -, rfl⟩ := Except.map_eq_ok.1 h₂
  rcases Except.bind_eq_error.1 h with h | ⟨t₃, h₃, h⟩
  · exact verifyStage_ne_noValue hv' h
  obtain ⟨⟨used, d⟩, -, rfl⟩ := Except.map_eq_ok.1 h₃
  exact outputStage_ne_noValue hv' h

end

/-! ### Every instruction -/

/-- From a loaded buffer every instruction has a next state (R310): the checks of a command that reads WBUF hold its
count to the depth, below which every word holds a value. -/
theorem exists_exec_of_bufferLoaded (i : Instr) {s : State} (hs : s.BufferLoaded) : ∃ t, exec i s = .next t := by
  have held : s.wcountAboveDepth = false → s.wbuf.Holds 0 s.wcount.toNat := fun hc =>
    hs.mono (Nat.not_lt.1 (of_decide_eq_false hc))
  have heldCursor : s.curCntAboveDepth = false → s.wbuf.Holds 0 s.cur.cnt.toNat := fun hc =>
    hs.mono (Nat.not_lt.1 (of_decide_eq_false hc))
  cases i with
  | nop | armaxGen | ar2SeedDefault | ar2SeedKey => exact ⟨_, rfl⟩
  | armaxPair =>
    rcases s.checked_cases _ _ with ⟨-, h⟩ | ⟨_, -, h⟩ <;> exact ⟨_, h⟩
  | armaxBuf =>
    exact State.exists_checked_conclude fun hp _ => armaxStage_ne_noValue (held (hp _ List.mem_cons_self))
  | ar2Stream =>
    exact State.exists_checked_conclude fun hp _ => ar2Stream_ne_noValue (held (hp _ List.mem_cons_self))
  | curRead =>
    exact State.exists_checked_conclude fun hp _ h =>
      readBits_ne_noValue (heldCursor (hp _ List.mem_cons_self)) (Except.map_eq_error.1 h)
  | metadata =>
    exact State.exists_checked_conclude fun hp _ => metaStage_ne_noValue (held (hp _ List.mem_cons_self))
  | verifyLen =>
    exact State.exists_checked_conclude fun hp _ => verifyStage_ne_noValue (held (hp _ List.mem_cons_self))
  | decodeCheat =>
    exact State.exists_checked_conclude fun hp _ => decodeStages_ne_noValue (held (hp _ List.mem_cons_self))
  | _ => exact s.exists_concludeRes0 _

theorem Executes.holds {s t : State} {i : Instr} {a b : Nat} (h : Executes s i t) (hv : s.wbuf.Holds a b) :
    t.wbuf.Holds a b := by
  cases h with
  | streamFault | metaFault | verifyFault =>
    rw [State.takeFault_wbuf _ _ _ (by decide)]
    exact hv
  | decodeFault ig e =>
    rw [State.takeFault_decode]
    exact hv.writeWords 0 _
  | buf ig m hd hm => exact hv.of_decryptLines hm
  | decode ig u hd he hu =>
    obtain ⟨m, f, c, used, d, hm, -, -, hout⟩ := decodeStages_ok hu
    rw [State.succeed_wbuf, (outputStage_frame hout).1]
    exact hv.of_decryptLines hm
  | _ => exact hv

/-- No instruction touches the host's queue. -/
theorem Executes.bus {s t : State} {i : Instr} (h : Executes s i t) : t.bus = s.bus := by
  cases h with
  | streamFault | metaFault | verifyFault | decodeFault => exact State.takeFault_bus _ _ _
  | decode ig u hd he hu => rw [State.succeed_bus, (decodeStages_frame hu).1]
  | _ => rfl

theorem Executes.bufferLoaded {s t : State} {i : Instr} (h : Executes s i t) (hs : s.BufferLoaded) : t.BufferLoaded := by
  unfold State.BufferLoaded
  rw [h.params]
  exact h.holds hs

/-! ### The step and the run -/

theorem State.hostWrite_bus (s : State) (offset : Nat) (v : Word) : (s.hostWrite offset v).bus = s.bus := by
  unfold State.hostWrite
  cases s.target offset with
  | reg r => exact s.writeReg_bus v r
  | _ => rfl

/-- A host write takes no word's value away (R76). -/
theorem State.BufferLoaded.hostWrite {s : State} (hs : s.BufferLoaded) (offset : Nat) (v : Word) :
    (s.hostWrite offset v).BufferLoaded := by
  unfold State.hostWrite
  cases s.target offset with
  | reg r => cases r <;> exact hs
  | wbuf i => exact Memory.Holds.write hs i v
  | _ => exact hs

/-- A write to CMD, from a loaded buffer (R100, R301). -/
theorem exists_issue_of_bufferLoaded {s : State} (hs : s.BufferLoaded) (w : Word) :
    ∃ t, issue s w = .next t ∧ t.BufferLoaded ∧ t.bus = s.bus := by
  rcases issue_cases s w with ⟨i, -, hi⟩ | ⟨e, -, he⟩
  · obtain ⟨t, ht⟩ := exists_exec_of_bufferLoaded i hs
    exact ⟨t, hi.trans ht, (exec_next ht).bufferLoaded hs, (exec_next ht).bus⟩
  · exact ⟨_, he, hs, rfl⟩

/-- An access that the bus defines, from a loaded buffer (R70, R79). -/
theorem exists_perform_of_bufferLoaded {s : State} (hs : s.BufferLoaded) (a : Access) :
    ∃ t, perform s a = .next t ∧ t.BufferLoaded ∧ t.bus = s.bus := by
  cases a with
  | read o n => exact ⟨_, rfl, hs, rfl⟩
  | write o n v =>
    rw [perform]
    split
    · exact exists_issue_of_bufferLoaded hs v
    · exact ⟨_, rfl, hs.hostWrite o v, s.hostWrite_bus o v⟩

/-- From a loaded buffer, an obedient host's step has a next state, of which both hold again. -/
theorem exists_step_of_hostObeys {s : State} (hs : s.BufferLoaded) (ho : s.HostObeys) :
    ∃ t, step s = .next t ∧ t.BufferLoaded ∧ t.HostObeys := by
  cases hb : s.bus with
  | nil => exact ⟨s, step_of_idle hb, hs, ho⟩
  | cons e rest =>
    obtain ⟨a, rfl, hw⟩ := ho e (hb ▸ List.mem_cons_self)
    have hs' : State.BufferLoaded { s with bus := rest } := hs
    obtain ⟨t, ht, hloaded, hbus⟩ := exists_perform_of_bufferLoaded hs' a
    refine ⟨t, ?_, hloaded, fun e' he' => ho e' ?_⟩
    · simp only [step, hb, handle, hw, if_true]
      exact ht
    · rw [hbus] at he'
      exact hb ▸ List.mem_cons_of_mem _ he'

/-- A run whose first step has a next state goes on from it. -/
theorem run_succ_of_step {M : Host.Core} {s t : M.State} (h : M.step s = .next t) (n : Nat) :
    M.run (n + 1) s = M.run n t := by
  rw [Host.Core.run, h]

theorem State.runsSafely_succ {s t : State} {n : Nat} (h : step s = .next t) (ht : t.RunsSafely n) :
    s.RunsSafely (n + 1) := by
  obtain ⟨u, hu⟩ := ht
  exact ⟨u, (run_succ_of_step (M := Sys2Proof.core) h n).trans hu⟩

/-- Settles O60, by induction on the length of the run. -/
theorem obedientHostRunsSafely : Obligations.ObedientHostRunsSafely := by
  intro s n
  induction n generalizing s with
  | zero => exact fun _ _ => ⟨s, rfl⟩
  | succ n ih =>
    intro hs ho
    obtain ⟨t, ht, hloaded, hobeys⟩ := exists_step_of_hostObeys hs ho
    exact State.runsSafely_succ ht (ih t hloaded hobeys)

end Sys2Proof.Machine
end

section
/-! PROOFS. The encoding (R100 to R105): the decoder and the encoder are inverse to each other, the reserved
values of OP, and what a write to CMD does with the bits [31:8] and with a control value in OPC. -/

namespace Sys2Proof

/-! ### Decoder and encoder (R100, R102, R105) -/

/-- A word with a given OP is the command word of its own ignored bits. -/
theorem cmdWord_of_opcodeOf {w : Word} {op : Byte} (h : opcodeOf w = op) :
    Code.cmd (cmdWord (ignoredOf w) op) = .cmd w := by
  rw [← h, cmdWord_fields]

theorem encode_of_decodeCmd {w : Word} {i : Instr} (h : decodeCmd w = .ok i) : encode i = .cmd w := by
  unfold decodeCmd at h
  split at h <;> cases h
  all_goals
    rename_i hop
    exact cmdWord_of_opcodeOf hop

theorem encode_of_decodeControl {c : Byte} {m : Ar2Mode} (h : decodeControl c = .ok m) :
    encode m.toInstr = .control c := by
  unfold decodeControl at h
  split at h <;> cases h <;> rfl

/-- A control byte that decodes names a mode, and the instruction is that mode's (R105). -/
theorem decode_control_eq_ok {c : Byte} {i : Instr} :
    decode (.control c) = .ok i ↔ ∃ m, decodeControl c = .ok m ∧ m.toInstr = i :=
  Machine.Except.map_eq_ok

theorem encode_of_decode {c : Code} {i : Instr} (h : decode c = .ok i) : encode i = c := by
  cases c with
  | cmd w => exact encode_of_decodeCmd h
  | control c =>
    obtain ⟨m, hm, rfl⟩ := decode_control_eq_ok.1 h
    exact encode_of_decodeControl hm

theorem decode_encode (i : Instr) : decode (encode i) = .ok i := by
  cases i with
  | nop | armaxGen | armaxPair | armaxBuf | ar2SeedDefault | ar2SeedKey | ar2Code | ar2Stream | curRead | metadata
  | verifyLen | decodeCheat =>
    simp [encode, decode, decodeCmd]
  | _ => rfl

/-- Settles O1. -/
theorem decodeAndEncodeAgree : Obligations.DecodeAndEncodeAgree := ⟨decode_encode, fun _ _ => encode_of_decode⟩

/-- Settles O2. -/
theorem knownWordsDecode : Obligations.KnownWordsDecode :=
  ⟨rfl, rfl, rfl, rfl, rfl, rfl, rfl, rfl, rfl, rfl⟩

/-- A value of OP outside R102 is reserved (R103). -/
theorem decodeCmd_of_reserved {w : Word} (h : opcodeOf w ∉ Machine.assignedOpcodes) :
    decodeCmd w = .error (.reservedOpcode (opcodeOf w)) := by
  unfold decodeCmd
  split
  case h_13 => rfl
  all_goals
    rename_i hop
    rw [hop] at h
    exact absurd h (by decide)

end Sys2Proof

namespace Sys2Proof.Machine

/-! ### The write to CMD (R100, R103, R105) -/

theorem issue_of_reserved {w : Word} (h : opcodeOf w ∉ assignedOpcodes) (s : State) :
    issue s w = .next { s with err := .illegalCommand, sticky := true } := by
  rw [issue, decodeCmd_of_reserved h, State.takeFault_nil]

/-- No OP value above 0x30 is assigned (R102). -/
theorem not_mem_assignedOpcodes_of_gt {op : Byte} (h : 0x30 < op.toNat) : op ∉ assignedOpcodes := fun hm =>
  Nat.not_lt.2 ((by decide : ∀ a ∈ assignedOpcodes, a.toNat ≤ 0x30) op hm) h

/-- 12 of the 49 values up to 0x30 are assigned, and none of the 207 above it (R102, R103). -/
theorem length_reservedOpcodes :
    ((List.range 256).filter fun n => BitVec.ofNat 8 n ∉ assignedOpcodes).length = 244 := by
  have low : ((List.range 49).filter fun n => BitVec.ofNat 8 n ∉ assignedOpcodes).length = 37 := by decide
  have high : ∀ n ∈ (List.range 207).map (49 + ·), decide (BitVec.ofNat 8 n ∉ assignedOpcodes) = true := by
    intro n hn
    obtain ⟨k, hk, rfl⟩ := List.mem_map.1 hn
    have hk := List.mem_range.1 hk
    exact decide_eq_true (not_mem_assignedOpcodes_of_gt (by rw [BitVec.toNat_ofNat]; omega))
  rw [show 256 = 49 + 207 from rfl, List.range_add, List.filter_append, List.length_append, low,
    List.filter_eq_self.2 high, List.length_map, List.length_range]

/-- Settles O3. -/
theorem reservedOpcodeTakesIllegalCommand : Obligations.ReservedOpcodeTakesIllegalCommand := by
  refine ⟨fun s w rest hb hop => ?_, length_reservedOpcodes⟩
  rw [step_of_cmd_write hb, issue_of_reserved hop]

/-- The words of one OP decode to one command, which does not read its ignored bits (R100). -/
theorem exists_decodeCmd_of_opcodeOf_eq {w w' : Word} {i : Instr} (h : opcodeOf w = opcodeOf w')
    (hd : decodeCmd w = .ok i) : ∃ i', decodeCmd w' = .ok i' ∧ exec i' = exec i := by
  unfold decodeCmd at hd
  split at hd <;> cases hd
  all_goals
    rename_i hop
    rw [decodeCmd, ← h, hop]
    exact ⟨_, rfl, rfl⟩

theorem issue_of_opcodeOf_eq {w w' : Word} (h : opcodeOf w = opcodeOf w') (s : State) : issue s w = issue s w' := by
  rcases issue_cases s w with ⟨i, hd, hi⟩ | ⟨e, hd, he⟩
  · obtain ⟨i', hd', hx⟩ := exists_decodeCmd_of_opcodeOf_eq h hd
    rw [hi, issue_of_decodeCmd hd', hx]
  · rcases issue_cases s w' with ⟨i', hd', -⟩ | ⟨e', -, he'⟩
    · obtain ⟨i, hi, -⟩ := exists_decodeCmd_of_opcodeOf_eq h.symm hd'
      cases hd.symm.trans hi
    · rw [he, he']

/-- Settles O4. -/
theorem cmdHighBitsHaveNoEffect : Obligations.CmdHighBitsHaveNoEffect := by
  intro s w w' rest h
  rw [step_of_cmd_write rfl, step_of_cmd_write rfl, issue_of_opcodeOf_eq h]

/-- AR2_CODE does what the control value in OPC does as an instruction (R105, R212, assumption 3). -/
theorem exec_ar2Code_of_decodeControl {s : State} {m : Ar2Mode} (h : decodeControl s.opc = .ok m) (ig : BitVec 24) :
    exec (.ar2Code ig) s = exec m.toInstr s := by
  have hcode : exec (.ar2Code ig) s = s.concludeRes0 (Ar2Mode.decrypt m s.params s.opa s.opd) := by
    rw [exec, execAr2Code, decryptCode, h]
  rw [hcode]
  cases m <;> rfl

theorem decodeCmd_of_ar2Code {w : Word} (h : opcodeOf w = 0x12#8) : decodeCmd w = .ok (.ar2Code (ignoredOf w)) := by
  rw [decodeCmd, h]
  rfl

/-- Settles O6. -/
theorem stepRunsDecodedControl : Obligations.StepRunsDecodedControl := by
  intro s w rest i hb hop hi
  obtain ⟨m, hm, rfl⟩ := decode_control_eq_ok.1 hi
  rw [step_of_cmd_write hb, issue_of_decodeCmd (decodeCmd_of_ar2Code hop)]
  exact exec_ar2Code_of_decodeControl (s := { s with bus := rest }) hm _

end Sys2Proof.Machine
end

section
/-! PROOFS. What META and VERIFY_LEN read: a read's bits as a field of the words (R231, R232), the metadata fields
(R108, R251), and a verifier header record by record (R110, R111, R255). -/

namespace Sys2Proof.Machine

/-! ### The bits of a read as a field (R231, R232) -/

/-- Bit `i` of the field that a read of `n` bits at `g` gives. -/
theorem bitsFrom_field_getLsbD (m : Memory) {n : Nat} (g : Nat) (hn : n ≤ 32) {i : Nat} (hi : i < n) :
    ((bitsFrom m n g 0).setWidth n).getLsbD i = (m.bitAt (g + (n - 1 - i))).getD false := by
  rw [BitVec.getLsbD_setWidth, bitsFrom_getLsbD m n g 0 i hn (by omega), if_pos hi]
  simp [hi]

/-- A read of `a + b` bits is the read of `a` bits above the read of the `b` bits after them. -/
theorem bitsFrom_append (m : Memory) (a b g : Nat) (h : a + b ≤ 32) :
    (bitsFrom m (a + b) g 0).setWidth (a + b) =
      (bitsFrom m a g 0).setWidth a ++ (bitsFrom m b (g + a) 0).setWidth b := by
  refine BitVec.eq_of_getLsbD_eq fun i hi => ?_
  rw [bitsFrom_field_getLsbD m g h hi, BitVec.getLsbD_append]
  split
  · rw [bitsFrom_field_getLsbD m (g + a) (by omega) (by assumption)]
    congr 2
    omega
  · rw [bitsFrom_field_getLsbD m g (by omega) (by omega)]
    congr 2
    omega

/-- A read that stays inside word `j` and leaves `lo` of its bits is the field above those bits (R231). -/
theorem bitsFrom_within_word {m : Memory} {j g n lo : Nat} {w : Word} (hw : m.read j = some w) (hstart : 32 * j ≤ g)
    (hstop : g + n + lo = 32 * (j + 1)) : (bitsFrom m n g 0).setWidth n = w.extractLsb' lo n := by
  refine BitVec.eq_of_getLsbD_eq fun i hi => ?_
  have hdiv : (g + (n - 1 - i)) / 32 = j := by omega
  have hmod : 31 - (g + (n - 1 - i)) % 32 = lo + i := by omega
  rw [bitsFrom_field_getLsbD m g (by omega) hi, Memory.bitAt, hdiv, hmod, hw, BitVec.getLsbD_extractLsb']
  simp [hi]

/-- The words in which the bits from `lo` up to `hi` lie hold values (R43, R231). -/
def Memory.HoldsBits (m : Memory) (lo hi : Nat) : Prop := ∀ g, lo ≤ g → g < hi → (m.read (g / 32)).isSome = true

theorem Memory.Holds.holdsBits {m : Memory} {i n : Nat} (h : m.Holds i n) : m.HoldsBits (32 * i) (32 * (i + n)) :=
  fun g hlo hhi => h (g / 32) (by omega) (by omega)

theorem Memory.HoldsBits.mono {m : Memory} {lo lo' hi hi' : Nat} (h : m.HoldsBits lo hi) (hlo : lo ≤ lo')
    (hhi : hi' ≤ hi) : m.HoldsBits lo' hi' :=
  fun g h1 h2 => h g (by omega) (by omega)

/-- A read at `p` whose bits all hold values and lie inside the word sequence (R232, R233). -/
theorem readBits_of_holdsBits {m : Memory} {n p : Nat} {cnt : BitVec 11} {c : Cursor} (hp : c.position = p)
    (hc : c.cnt = cnt) (hv : m.HoldsBits p (p + n)) (hend : p + n ≤ 32 * cnt.toNat) :
    ∃ d, readBits m n c = .ok (bitsFrom m n p 0, d) ∧ d.position = p + n ∧ d.cnt = cnt := by
  subst hp hc
  exact readBits_ok (.inr hend) hv

/-- The one check of META and of VERIFY_LEN passes on a count inside the depth (R306). -/
theorem State.checked_wcount_of_le {s : State} (h : s.wcount.toNat ≤ s.params.wbufDepth)
    (k : Host.Outcome State Fault Refusal) : s.checked [(s.wcountAboveDepth, .illegalOperand)] k = k :=
  State.checked_of_pass (by simpa [State.wcountAboveDepth] using h)

/-! ### META (R108, R250, R251) -/

/-- The five reads from bit 4 of the sequence on, over two words that hold values: the fields at the places of R108. -/
theorem metaFields_of_words {m : Memory} {c : Cursor} {w₀ w₁ : Word} (hp : c.position = 4) (htwo : 2 ≤ c.cnt.toNat)
    (hw₀ : m.read 0 = some w₀) (hw₁ : m.read 1 = some w₁) :
    ∃ d, metaFields m c = .ok
        ({ game := w₀.extractLsb' 15 13
           cheat := w₀.extractLsb' 0 15 ++ w₁.extractLsb' 28 4
           enable := w₁.extractLsb' 27 1
           region := w₁.extractLsb' 24 2 }, d)
      ∧ d.position = 40 ∧ d.cnt = c.cnt := by
  have hv : m.HoldsBits 4 40 := by
    intro g _ hg
    rcases (by omega : g / 32 = 0 ∨ g / 32 = 1) with h | h
    · rw [h, hw₀]; rfl
    · rw [h, hw₁]; rfl
  have read : ∀ {n p : Nat} {c' : Cursor}, 4 ≤ p → p + n ≤ 40 → c'.position = p → c'.cnt = c.cnt →
      ∃ d, readBits m n c' = .ok (bitsFrom m n p 0, d) ∧ d.position = p + n ∧ d.cnt = c.cnt :=
    fun hlo hhi hp hc => readBits_of_holdsBits hp hc (hv.mono hlo hhi) (by omega)
  obtain ⟨c₁, h₁, p₁, q₁⟩ := read (n := 13) (p := 4) (by decide) (by decide) hp rfl
  obtain ⟨c₂, h₂, p₂, q₂⟩ := read (n := 19) (p := 17) (by decide) (by decide) p₁ q₁
  obtain ⟨c₃, h₃, p₃, q₃⟩ := read (n := 1) (p := 36) (by decide) (by decide) p₂ q₂
  obtain ⟨c₄, h₄, p₄, q₄⟩ := read (n := 1) (p := 37) (by decide) (by decide) p₃ q₃
  obtain ⟨c₅, h₅, p₅, q₅⟩ := read (n := 2) (p := 38) (by decide) (by decide) p₄ q₄
  have game : (bitsFrom m 13 4 0).setWidth 13 = w₀.extractLsb' 15 13 :=
    bitsFrom_within_word hw₀ (by decide) (by decide)
  have cheatHigh : (bitsFrom m 15 17 0).setWidth 15 = w₀.extractLsb' 0 15 :=
    bitsFrom_within_word hw₀ (by decide) (by decide)
  have cheatLow : (bitsFrom m 4 32 0).setWidth 4 = w₁.extractLsb' 28 4 :=
    bitsFrom_within_word hw₁ (by decide) (by decide)
  have cheat : (bitsFrom m 19 17 0).setWidth 19 = w₀.extractLsb' 0 15 ++ w₁.extractLsb' 28 4 := by
    rw [← cheatHigh, ← cheatLow]
    exact bitsFrom_append m 15 4 17 (by decide)
  have enable : (bitsFrom m 1 36 0).setWidth 1 = w₁.extractLsb' 27 1 :=
    bitsFrom_within_word hw₁ (by decide) (by decide)
  have region : (bitsFrom m 2 38 0).setWidth 2 = w₁.extractLsb' 24 2 :=
    bitsFrom_within_word hw₁ (by decide) (by decide)
  refine ⟨c₅, ?_, p₅, q₅⟩
  rw [← game, ← cheat, ← enable, ← region]
  simp only [metaFields, bind, Except.bind, h₁, h₂, h₃, h₄, h₅]
  rfl

theorem exec_metadata_of_fields (ig : BitVec 24) {s : State} {f : MetaFields} {c : Cursor}
    (hdepth : s.wcount.toNat ≤ s.params.wbufDepth) (hf : metaFields s.wbuf s.metaStart = .ok (f, c)) :
    exec (.metadata ig) s = .next
      { s with
        cur := c, mdGame := f.game, mdCheat := f.cheat, mdEnable := f.enable, mdRegion := f.region, err := .ok } := by
  rw [exec, execMetadata, State.checked_wcount_of_le hdepth, metaStage, hf]
  rfl

/-- Settles O46. -/
theorem metaStoresTheFields : Obligations.MetaStoresTheFields := by
  intro ig s w₀ w₁ hdepth htwo hw₀ hw₁
  obtain ⟨d, hf, hpos, hcnt⟩ := metaFields_of_words s.metaStart_position htwo hw₀ hw₁
  have hd : d = { idx := 1, off := 8, cnt := s.wcount } := Cursor.ext_position hpos hcnt
  rw [exec_metadata_of_fields ig hdepth hf, hd]

/-! ### VERIFY_LEN (R110, R111, R255) -/

theorem headerBits_cons (sel : BitVec 3) (sels : List (BitVec 3)) :
    headerBits (sel :: sels) = 4 + verWidth sel + headerBits sels := by
  simp only [headerBits, List.map_cons, List.sum_cons]
  omega

theorem length_lt_headerBits (sels : List (BitVec 3)) : sels.length < headerBits sels := by
  induction sels with
  | nil => decide
  | cons sel sels ih =>
    rw [headerBits_cons, List.length_cons]
    omega

/-- One bit read (R232). -/
theorem bitsFrom_one {m : Memory} {g : Nat} {b : Bool} (h : m.bitAt g = some b) :
    bitsFrom m 1 g 0 = if b then 1 else 0 := by
  rw [bitsFrom, bitsFrom, h]
  cases b <;> rfl

/-- The selector of a record, its highest bit first (R110). -/
theorem bitsFrom_selector {m : Memory} {g : Nat} {sel : BitVec 3} (h₂ : m.bitAt g = some (sel.getLsbD 2))
    (h₁ : m.bitAt (g + 1) = some (sel.getLsbD 1)) (h₀ : m.bitAt (g + 2) = some (sel.getLsbD 0)) :
    (bitsFrom m 3 g 0).setWidth 3 = sel := by
  refine BitVec.eq_of_getLsbD_eq fun i hi => ?_
  rw [bitsFrom_field_getLsbD m g (by decide) hi]
  interval_cases i
  · exact congrArg (Option.getD · false) h₀
  · exact congrArg (Option.getD · false) h₁
  · exact congrArg (Option.getD · false) h₂

section
variable {m : Memory} {cnt : BitVec 11} {fuel used g : Nat} {c : Cursor}

/-- A turn of the scan at the stop bit (R255). -/
theorem scanLoop_of_stop (hp : c.position = g) (hc : c.cnt = cnt) (hstop : m.bitAt g = some true)
    (hv : m.HoldsBits g (g + 1)) (hend : g + 1 ≤ 32 * cnt.toNat) :
    ∃ d, scanLoop m (fuel + 1) used c = .ok (used + 1, d) ∧ d.position = g + 1 ∧ d.cnt = cnt := by
  obtain ⟨d, h, pd, qd⟩ := readBits_of_holdsBits (n := 1) hp hc hv hend
  rw [bitsFrom_one hstop] at h
  refine ⟨d, ?_, pd, qd⟩
  simp only [scanLoop, bind, Except.bind, h]
  rfl

/-- A turn of the scan at a record (R110, R255). -/
theorem scanLoop_of_record {sel : BitVec 3} (hp : c.position = g) (hc : c.cnt = cnt) (hgo : m.bitAt g = some false)
    (h₂ : m.bitAt (g + 1) = some (sel.getLsbD 2)) (h₁ : m.bitAt (g + 2) = some (sel.getLsbD 1))
    (h₀ : m.bitAt (g + 3) = some (sel.getLsbD 0)) (hv : m.HoldsBits g (g + 4 + verWidth sel))
    (hend : g + 4 + verWidth sel ≤ 32 * cnt.toNat) :
    ∃ d, scanLoop m (fuel + 1) used c = scanLoop m fuel (used + 4 + verWidth sel) d
      ∧ d.position = g + 4 + verWidth sel ∧ d.cnt = cnt := by
  obtain ⟨c₁, r₁, p₁, q₁⟩ :=
    readBits_of_holdsBits (n := 1) hp hc (hv.mono (Nat.le_refl g) (by omega)) (by omega)
  obtain ⟨c₂, r₂, p₂, q₂⟩ := readBits_of_holdsBits (n := 3) p₁ q₁ (hv.mono (by omega) (by omega)) (by omega)
  obtain ⟨c₃, r₃, p₃, q₃⟩ :=
    readBits_of_holdsBits (n := verWidth sel) p₂ q₂ (hv.mono (by omega) (by omega)) (by omega)
  rw [bitsFrom_one hgo] at r₁
  have hsel := bitsFrom_selector h₂ h₁ h₀
  refine ⟨c₃, ?_, p₃, q₃⟩
  simp only [scanLoop, bind, Except.bind, r₁, r₂, hsel, r₃]
  rfl

/-- The scan of a spelled header, by induction on its records: it consumes the header's bits and ends just after the
stop bit (R111, R255). -/
theorem scanLoop_of_spelled {sels : List (BitVec 3)} (hp : c.position = g) (hc : c.cnt = cnt)
    (hfuel : sels.length < fuel) (hs : SpellsHeader m g sels) (hv : m.HoldsBits g (g + headerBits sels))
    (hend : g + headerBits sels ≤ 32 * cnt.toNat) :
    ∃ d, scanLoop m fuel used c = .ok (used + headerBits sels, d) ∧ d.position = g + headerBits sels ∧ d.cnt = cnt := by
  induction sels generalizing fuel used g c with
  | nil =>
    obtain ⟨fuel, rfl⟩ := Nat.exists_eq_succ_of_ne_zero (Nat.ne_zero_of_lt hfuel)
    exact scanLoop_of_stop hp hc hs hv hend
  | cons sel sels ih =>
    obtain ⟨fuel, rfl⟩ := Nat.exists_eq_succ_of_ne_zero (Nat.ne_zero_of_lt hfuel)
    obtain ⟨hgo, h₂, h₁, h₀, hrest⟩ := hs
    rw [headerBits_cons, ← Nat.add_assoc, ← Nat.add_assoc] at hv hend
    obtain ⟨d, hturn, pd, qd⟩ := scanLoop_of_record (fuel := fuel) (used := used) hp hc hgo h₂ h₁ h₀
      (hv.mono (Nat.le_refl g) (by omega)) (by omega)
    obtain ⟨e, hscan, pe, qe⟩ :=
      ih pd qd (Nat.lt_of_succ_lt_succ hfuel) hrest (hv.mono (by omega) (Nat.le_refl _)) hend
    refine ⟨e, ?_, ?_, qe⟩
    · rw [hturn, hscan, headerBits_cons, ← Nat.add_assoc, ← Nat.add_assoc]
    · rw [pe, headerBits_cons, ← Nat.add_assoc, ← Nat.add_assoc]

end

theorem exec_verifyLen_of_scan (ig : BitVec 24) {s : State} {used : Nat} {c : Cursor}
    (hdepth : s.wcount.toNat ≤ s.params.wbufDepth) (hs : scan s.wbuf s.verifierStart = .ok (used, c)) :
    exec (.verifyLen ig) s = .next
      { s with cur := c, verLines := BitVec.ofNat 32 (verifierLines s.params.rounding used), err := .ok } := by
  rw [exec, execVerifyLen, State.checked_wcount_of_le hdepth, verifyStage, hs]
  rfl

/-- Settles O49: the bound on the scan's turns is above the number of records. -/
theorem verifyLenMeasuresTheHeader : Obligations.VerifyLenMeasuresTheHeader := by
  intro ig s sels hdepth hheld hspell hend
  have hfuel := length_lt_headerBits sels
  obtain ⟨c, hs, hpos, hcnt⟩ := scanLoop_of_spelled (fuel := scanBound s.verifierStart) (used := 0)
    s.verifierStart_position s.verifierStart_cnt
    (by rw [scanBound, s.verifierStart_cnt]; omega) hspell (hheld.holdsBits.mono (by decide) (by omega)) hend
  rw [Nat.zero_add] at hs
  exact ⟨c, exec_verifyLen_of_scan ig hdepth hs, hpos, hcnt⟩

end Sys2Proof.Machine
end

section
/-! PROOFS. What every instruction leaves unchanged (R101, R341), one lemma per piece of state, over what an instruction
can do (`Executes`). -/

namespace Sys2Proof.Machine

section
variable {s t : State} {i : Instr}

/-- No instruction writes an operand register or WCOUNT (R101). -/
theorem Executes.operands (h : Executes s i t) :
    t.opa = s.opa ∧ t.opb = s.opb ∧ t.opc = s.opc ∧ t.opd = s.opd ∧ t.wcount = s.wcount := by
  cases h with
  | streamFault | metaFault | verifyFault | decodeFault => simp
  | decode ig u hd he hu =>
    rw [(decodeStages_frame hu).1]
    exact ⟨rfl, rfl, rfl, rfl, rfl⟩
  | _ => exact ⟨rfl, rfl, rfl, rfl, rfl⟩

/-- Only the host's reads log data (R79). -/
theorem Executes.readLog (h : Executes s i t) : t.readLog = s.readLog := by
  cases h with
  | streamFault | metaFault | verifyFault | decodeFault => exact State.takeFault_readLog _ _ _
  | decode ig u hd he hu => rw [State.succeed_readLog, (decodeStages_frame hu).1]
  | _ => rfl

theorem Executes.res0 (h : Executes s i t) (hw : writesRes0 i = false) : t.res0 = s.res0 := by
  cases h with
  | streamFault | metaFault | verifyFault | decodeFault => exact State.takeFault_res0 _ _ _
  | decode ig u hd he hu => rw [State.succeed_res0, (decodeStages_frame hu).1]
  | pair | read => cases hw
  | code _ w hi => cases hi.symm.trans hw
  | _ => rfl

theorem Executes.res1 (h : Executes s i t) (hw : writesRes1 i = false) : t.res1 = s.res1 := by
  cases h with
  | streamFault | metaFault | verifyFault | decodeFault => exact State.takeFault_res1 _ _ _
  | decode ig u hd he hu => rw [State.succeed_res1, (decodeStages_frame hu).1]
  | pair => cases hw
  | _ => rfl

theorem Executes.sched (h : Executes s i t) (hw : writesSched i = false) :
    t.sched = s.sched ∧ t.schedValid = s.schedValid := by
  cases h with
  | streamFault | metaFault | verifyFault | decodeFault => simp
  | decode ig u hd he hu =>
    rw [(decodeStages_frame hu).1]
    exact ⟨rfl, rfl⟩
  | gen => cases hw
  | _ => exact ⟨rfl, rfl⟩

theorem Executes.seed (h : Executes s i t) (hw : writesSeed i = false) : t.seed = s.seed := by
  cases h with
  | metaFault | verifyFault => exact State.takeFault_seed _ _ _ (by decide)
  | streamFault | decodeFault | seedDefault | seedKey | stream | decode => cases hw
  | _ => rfl

theorem Executes.cur (h : Executes s i t) (hw : writesCursor i = false) : t.cur = s.cur := by
  cases h with
  | streamFault => exact State.takeFault_cur _ _ _ (by decide)
  | metaFault | verifyFault | decodeFault | read | fields | verify | decode => cases hw
  | _ => rfl

/-- CUR_READ moves the cursor and keeps its word count (R237). -/
theorem Executes.curCnt (h : Executes s i t) (hw : writesCurCnt i = false) : t.cur.cnt = s.cur.cnt := by
  cases h with
  | streamFault => rw [State.takeFault_cur _ _ _ (by decide)]
  | metaFault | verifyFault | decodeFault | fields | verify | decode => cases hw
  | read ig r c hr => exact readBits_cnt hr
  | _ => rfl

theorem Executes.wbuf (h : Executes s i t) (hw : writesWbuf i = false) : t.wbuf = s.wbuf := by
  cases h with
  | streamFault | metaFault | verifyFault => exact State.takeFault_wbuf _ _ _ (by decide)
  | decodeFault | buf | decode => cases hw
  | _ => rfl

/-- The lines and the spoiled words lie below WCOUNT (R43, R147, R307). -/
theorem Executes.wbuf_above (h : Executes s i t) {k : Nat} (hk : s.wcount.toNat ≤ k) :
    t.wbuf.read k = s.wbuf.read k := by
  cases h with
  | streamFault | metaFault | verifyFault => rw [State.takeFault_wbuf _ _ _ (by decide)]
  | decodeFault =>
    rw [State.takeFault_decode, Memory.read_writeWords, if_neg (by simpa using hk)]
  | buf ig m hd hm => exact (decryptLines_ok hm).1 k (by omega)
  | decode ig u hd he hu => exact (decodeStages_frame hu).2.1 k hk
  | _ => rfl

theorem Executes.obuf (h : Executes s i t) (hw : writesObuf i = false) : t.obuf = s.obuf ∧ t.ocount = s.ocount := by
  cases h with
  | metaFault | verifyFault =>
    exact ⟨State.takeFault_obuf _ _ _ (by decide), State.takeFault_ocount _ _ _ (by decide)⟩
  | streamFault | decodeFault | stream | decode => cases hw
  | _ => exact ⟨rfl, rfl⟩

/-- What completes emits its words below the new OCOUNT (R42, R44, R208). -/
theorem Executes.obuf_above (h : Executes s i t) (hok : t.err = .ok) {k : Nat} (hk : t.ocount.toNat ≤ k) :
    t.obuf.read k = s.obuf.read k := by
  cases h with
  | streamFault ig e he => exact absurd hok he
  | decodeFault ig e he => exact absurd hok he
  | metaFault | verifyFault => cases hok
  | stream ig out sd hd ho =>
    have hlen := (ar2Pairs_ok ho).2.1
    have hcount : out.length ≤ k := by
      have hw := s.wcount.isLt
      rwa [BitVec.toNat_ofNat, Nat.mod_eq_of_lt (by omega)] at hk
    rw [Memory.read_writeWords, if_neg (by omega)]
  | decode ig u hd he hu => exact (decodeStages_frame hu).2.2 k hk
  | _ => rfl

theorem Executes.metadata (h : Executes s i t) (hw : writesMeta i = false) :
    t.mdGame = s.mdGame ∧ t.mdCheat = s.mdCheat ∧ t.mdEnable = s.mdEnable ∧ t.mdRegion = s.mdRegion := by
  cases h with
  | streamFault | verifyFault =>
    exact ⟨State.takeFault_mdGame _ _ _ (by decide), State.takeFault_mdCheat _ _ _ (by decide),
      State.takeFault_mdEnable _ _ _ (by decide), State.takeFault_mdRegion _ _ _ (by decide)⟩
  | metaFault | decodeFault | fields | decode => cases hw
  | _ => exact ⟨rfl, rfl, rfl, rfl⟩

theorem Executes.verLines (h : Executes s i t) (hw : writesVerLines i = false) : t.verLines = s.verLines := by
  cases h with
  | streamFault | metaFault => exact State.takeFault_verLines _ _ _ (by decide)
  | verifyFault | decodeFault | verify | decode => cases hw
  | _ => rfl

end

/-- Settles O54. -/
theorem instructionsChangeOnlyTheirRow : Obligations.InstructionsChangeOnlyTheirRow := by
  intro i s t h
  have hx := exec_next h
  obtain ⟨hopa, hopb, hopc, hopd, hwcount⟩ := hx.operands
  exact ⟨⟨hopa, hopb, hopc, hopd, hwcount, hx.params, hx.bus, hx.readLog⟩, hx.res0, hx.res1, hx.sched, hx.seed, hx.cur,
    hx.curCnt, hx.wbuf, fun _ => hx.wbuf_above, hx.obuf, fun hok _ => hx.obuf_above hok, hx.metadata, hx.verLines⟩

end Sys2Proof.Machine
end

section
/-! PROOFS. The ARMAX block cipher (R137 to R143): which bits the mixing function reads, the unscramble stages as one
permutation of a line and its inverse, and why the double rounds and with them `decrypt_pair` lose no information. -/

namespace Sys2Proof.Machine

/-! ### The mixing function (R139) -/

/-- A mixing table is indexed by the low 6 bits of a byte, which the mask keeps. -/
theorem mixEntry_and_mask (t : List Word) (x : Word) {lane : Nat} (h : lane < 4) :
    mixEntry t (x &&& 0x3F3F3F3F#32) lane = mixEntry t x lane := by
  have mask : (0x3F3F3F3F#32).extractLsb' (8 * lane) 6 = BitVec.allOnes 6 := by
    interval_cases lane <;> rfl
  rw [mixEntry, BitVec.extractLsb'_and, mask, BitVec.and_allOnes, mixEntry]

/-- Settles O20. -/
theorem octetMaskReadsSixBitsOfEachByte : Obligations.OctetMaskReadsSixBitsOfEachByte := by
  intro x y
  simp only [octetMask, mixEntry_and_mask, Nat.reduceLT]

/-! ### Rotations and byte swaps (R9) -/

theorem rotateRight_rotateLeft {w : Nat} (x : BitVec w) (n : Nat) : (x.rotateLeft n).rotateRight n = x := by
  ext i hi
  have hn := Nat.mod_lt n (Nat.zero_lt_of_lt hi)
  rw [BitVec.getElem_rotateRight]
  split
  · rw [BitVec.getElem_rotateLeft, dif_neg (by omega)]
    congr 1; omega
  · rw [BitVec.getElem_rotateLeft, dif_pos (by omega)]
    congr 1; omega

theorem rotateLeft_rotateRight {w : Nat} (x : BitVec w) (n : Nat) : (x.rotateRight n).rotateLeft n = x := by
  ext i hi
  have hn := Nat.mod_lt n (Nat.zero_lt_of_lt hi)
  rw [BitVec.getElem_rotateLeft]
  split
  · rw [BitVec.getElem_rotateRight, dif_neg (by omega)]
    congr 1; omega
  · rw [BitVec.getElem_rotateRight, dif_pos (by omega)]
    congr 1; omega

/-- The rotation to the left by `n` bits; its inverse is the rotation to the right. -/
def wordRotation (n : Nat) : Word ≃ Word where
  toFun x := x.rotateLeft n
  invFun x := x.rotateRight n
  left_inv x := rotateRight_rotateLeft x n
  right_inv x := rotateLeft_rotateRight x n

/-- A byte swap reverses the lanes (R9). -/
theorem laneOf_bswap32 (x : Word) (k : Fin 4) : laneOf (bswap32 x) k = laneOf x k.rev := by
  refine (laneOf_append4 (laneOf x 0) (laneOf x 1) (laneOf x 2) (laneOf x 3) k).trans ?_
  fin_cases k <;> rfl

theorem bswap32_involutive : Function.Involutive bswap32 := fun x =>
  eq_of_laneOf fun k => by rw [laneOf_bswap32, laneOf_bswap32, Fin.rev_rev]

/-! ### The unscramble stages (R138, R141, R143) -/

/-- The step both stages are made of: the bits that a mask selects change places between the halves. -/
def exchange (m : Word) (p : Word × Word) : Word × Word :=
  (p.1 ^^^ ((p.1 ^^^ p.2) &&& m), p.2 ^^^ ((p.1 ^^^ p.2) &&& m))

theorem xor_xor_xor_right {w : Nat} (x y t : BitVec w) : (x ^^^ t) ^^^ (y ^^^ t) = x ^^^ y := by
  rw [BitVec.xor_comm y t, BitVec.xor_assoc, ← BitVec.xor_assoc t, BitVec.xor_self, BitVec.zero_xor]

/-- The difference of the halves, which selects what is exchanged, is the same after the exchange. -/
theorem exchange_involutive (m : Word) : Function.Involutive (exchange m) := by
  intro p
  simp only [exchange, xor_xor_xor_right]
  simp only [BitVec.xor_assoc, BitVec.xor_self, BitVec.xor_zero]

theorem exchange_swap (m : Word) (p : Word × Word) : exchange m p.swap = (exchange m p).swap := by
  simp only [exchange, Prod.fst_swap, Prod.snd_swap, Prod.swap_prod_mk, BitVec.xor_comm p.2 p.1]

/-- One layer of unscramble-1: the second half turned, then an exchange. -/
def unscrambleLayer (r : Word ≃ Word) (m : Word) : Word × Word ≃ Word × Word :=
  (Equiv.prodCongr (Equiv.refl Word) r).trans (exchange_involutive m).toPerm

/-- Undone between two swaps of the halves, a layer is an exchange and the first half turned back: a layer of
unscramble-2. -/
theorem unscrambleLayer_symm_swap (r : Word ≃ Word) (m : Word) (p : Word × Word) :
    (unscrambleLayer r m).symm p.swap = (Prod.map r.symm id (exchange m p)).swap := by
  show Prod.map id r.symm (exchange m p.swap) = _
  rw [exchange_swap]
  rfl

/-- Unscramble-1 as a permutation of the lines (R138). -/
def unscramble : Word × Word ≃ Word × Word :=
  (unscrambleLayer (wordRotation 4) 0xF0F0F0F0).trans <|
  (unscrambleLayer (wordRotation 20).symm 0xFFFF0000).trans <|
  (unscrambleLayer (wordRotation 18).symm 0x33333333).trans <|
  (unscrambleLayer (wordRotation 6).symm 0x00FF00FF).trans <|
  (unscrambleLayer (wordRotation 9) 0xAAAAAAAA).trans <|
  Equiv.prodCongr (wordRotation 1) (Equiv.refl Word)

theorem unscramble1_eq (a v : Word) : unscramble1 a v = unscramble (a, v) := rfl

/-- Unscramble-2 undoes unscramble-1 between two swaps of the halves (R143). -/
theorem unscramble2_eq (a v : Word) : unscramble2 a v = (unscramble.symm (v, a)).swap := by
  have turn : (Equiv.prodCongr (wordRotation 1) (Equiv.refl Word)).symm (v, a) = Prod.swap (a, v.rotateRight 1) := rfl
  simp only [unscramble, Equiv.symm_trans_apply, turn, unscrambleLayer_symm_swap, Prod.swap_swap]
  rfl

/-- Settles O21. -/
theorem unscramblesMirrorEachOther : Obligations.UnscramblesMirrorEachOther := by
  refine ⟨fun a v => ?_, ⟨1, 0, by decide⟩, rfl⟩
  rw [unscramble2_eq, unscramble1_eq, Prod.mk.eta, Equiv.symm_apply_apply, Prod.swap_prod_mk]

/-! ### The rounds and `decrypt_pair` (R137, R140, R142) -/

/-- Each half-round changes one half by what the other half contributes, so it can be undone from the last to the
first. -/
theorem doubleRound_injective (sched : Vector Word 32) (r : Fin 8) :
    Function.Injective fun p => doubleRound sched p r := by
  intro p q h
  obtain ⟨hfst, hsnd⟩ := Prod.mk.inj h
  rw [hfst, BitVec.xor_left_inj] at hsnd
  rw [hsnd, BitVec.xor_left_inj] at hfst
  exact Prod.ext hfst hsnd

theorem foldl_injective {α β : Type} {f : β → α → β} (hf : ∀ a, Function.Injective fun b => f b a) (l : List α) :
    Function.Injective fun b => l.foldl f b := by
  induction l with
  | nil => exact Function.injective_id
  | cons a l ih => exact ih.comp (hf a)

theorem rounds_injective (sched : Vector Word 32) : Function.Injective (Function.uncurry (rounds sched)) :=
  foldl_injective (doubleRound_injective sched) _

/-- The stages of `decrypt_pair` as maps of the line: the role swap at the end takes back the swap that unscramble-2
leaves (R142, R143). -/
theorem decryptPair_eq (sched : Vector Word 32) (a v : Word) :
    decryptPair sched a v =
      Prod.map bswap32 bswap32
        (unscramble.symm (Function.uncurry (rounds sched) (unscramble (Prod.map bswap32 bswap32 (a, v)))).swap) := by
  simp only [decryptPair, unscramble1_eq, unscramble2_eq, Function.uncurry, Prod.map, Prod.swap]

/-- Settles O22: every stage of `decrypt_pair` is injective. -/
theorem decryptPairIsInjective : Obligations.DecryptPairIsInjective := by
  intro sched a v a' v' h
  rw [decryptPair_eq, decryptPair_eq] at h
  have hswap := bswap32_involutive.injective.prodMap bswap32_involutive.injective
  have hrounds := Prod.swap_injective (unscramble.symm.injective (hswap h))
  exact Prod.mk.inj (hswap (unscramble.injective (rounds_injective sched hrounds)))

end Sys2Proof.Machine
end

section
/-! PROOFS. The commands of the ARMAX engine, ARMAX_GEN, ARMAX_PAIR and ARMAX_BUF (R145 to R147), and the checks that
ARMAX_BUF shares with DECODE_CHEAT (R281, R308). -/

namespace Sys2Proof

/-- A command word decodes to the instruction it encodes (R100, R102). -/
theorem decodeCmd_of_encode {w : Word} {i : Instr} (h : encode i = .cmd w) : decodeCmd w = .ok i := by
  have hdecode := decode_encode i
  rwa [h] at hdecode

end Sys2Proof

namespace Sys2Proof.Machine

/-! ### ARMAX_GEN and ARMAX_PAIR (R145, R146) -/

/-- Settles O19. -/
theorem armaxGenLoadsTheSchedule : Obligations.ArmaxGenLoadsTheSchedule :=
  ⟨fun _ hop => decodeCmd_of_encode (cmdWord_of_opcodeOf hop), fun _ _ => ⟨rfl, rfl⟩⟩

/-- Settles O23. -/
theorem armaxPairDecryptsOperands : Obligations.ArmaxPairDecryptsOperands := by
  refine ⟨fun _ hop => decodeCmd_of_encode (cmdWord_of_opcodeOf hop), fun ig s => ⟨fun hvalid => ?_, fun hvalid => ?_⟩⟩
  · exact State.checked_of_pass (by simp [hvalid])
  · exact State.checked_of_fail (by simp [hvalid, firstError])

/-! ### The checks of ARMAX_BUF and DECODE_CHEAT (R147, R281, R308) -/

/-- The first of the three checks that fails. -/
theorem State.firstError_armaxChecks (s : State) :
    (s.params.wbufDepth < s.wcount.toNat → firstError s.armaxChecks = some .illegalOperand)
      ∧ (s.wcount.toNat ≤ s.params.wbufDepth → s.schedValid = false → firstError s.armaxChecks = some .notReady)
      ∧ (s.wcount.toNat ≤ s.params.wbufDepth → s.schedValid = true → s.wcount.toNat % 2 = 1 →
          firstError s.armaxChecks = some .malformedInput) := by
  unfold State.armaxChecks State.wcountAboveDepth State.wcountOdd
  refine ⟨fun hdepth => ?_, fun hdepth hvalid => ?_, fun hdepth hvalid hodd => ?_⟩
  · rw [decide_eq_true hdepth, firstError]
  · rw [decide_eq_false (Nat.not_lt.2 hdepth), hvalid]; rfl
  · rw [decide_eq_false (Nat.not_lt.2 hdepth), hvalid, decide_eq_true hodd]; rfl

/-- ARMAX_BUF and DECODE_CHEAT both begin with these checks. -/
theorem exec_of_armaxChecks_fail {i : Instr} {ig : BitVec 24} (hi : i = .armaxBuf ig ∨ i = .decodeCheat ig) {s : State}
    {e : ErrCode} (h : firstError s.armaxChecks = some e) : exec i s = .next { s with err := e, sticky := true } := by
  rcases hi with rfl | rfl <;> exact State.checked_of_fail h

/-- Settles O25. -/
theorem armaxChecksInOrder : Obligations.ArmaxChecksInOrder := by
  intro ig i s hi
  obtain ⟨above, invalid, odd⟩ := s.firstError_armaxChecks
  exact ⟨fun hdepth => exec_of_armaxChecks_fail hi (above hdepth),
    fun hdepth hvalid => exec_of_armaxChecks_fail hi (invalid hdepth hvalid),
    fun hdepth hvalid hodd => exec_of_armaxChecks_fail hi (odd hdepth hvalid hodd)⟩

/-! ### ARMAX_BUF (R147) -/

/-- Settles O24: the loop covers the even count line by line, and completes because its words hold values. -/
theorem armaxBufDecryptsEveryLine : Obligations.ArmaxBufDecryptsEveryLine := by
  intro ig s hdepth hvalid heven hheld
  have hcount : 2 * (s.wcount.toNat / 2) = s.wcount.toNat := by omega
  obtain ⟨m, hm⟩ := decryptLines_of_holds (sched := s.sched) (hcount.symm ▸ hheld)
  obtain ⟨outside, lines⟩ := decryptLines_ok hm
  refine ⟨m, ?_, fun k a v hk ha hv => ?_, fun k hk => outside k (by omega)⟩
  · rw [exec_armaxBuf_of_ready ig hdepth hvalid heven, hm]; rfl
  · obtain ⟨a', v', ha', hv', hline⟩ := lines k (by omega)
    rw [Nat.zero_add] at ha' hv' hline
    cases ha.symm.trans ha'
    cases hv.symm.trans hv'
    exact hline

end Sys2Proof.Machine
end

section
/-! PROOFS. The schedule that ARMAX_GEN loads: the pair of words that each round packs (R134), the pairs in reversed round
order (R135), and the printed words (R183). -/

namespace Sys2Proof.Machine

/-- Step 4 (R134): round `r` packs `pre[2r]` and `pre[2r+1]`. -/
theorem unreversedWord_pair (r : Nat) (h : Fin 2) :
    unreversedWord (2 * r + h.val) = packedWord (roundSlots keySlots r) h.val := by
  have round : (2 * r + h.val) / 2 = r := by omega
  have half : (2 * r + h.val) % 2 = h.val := by omega
  rw [unreversedWord, round, half]

/-- Step 5 (R135): the pairs stand in reversed round order, the two words of a pair in theirs. -/
theorem getElem_generate_pair (q : Fin 16) (h : Fin 2) :
    generate[2 * q.val + h.val] = packedWord (roundSlots keySlots (15 - q.val)) h.val := by
  have source : 30 - 2 * ((2 * q.val + h.val) / 2) + (2 * q.val + h.val) % 2 = 2 * (15 - q.val) + h.val := by omega
  rw [generate, Vector.getElem_ofFn, source, unreversedWord_pair]

/-- Settles O18: the generator has no input, so the table is its evaluation; the order of the pairs is that of step 5. -/
theorem generatedScheduleIsThePrintedTable : Obligations.GeneratedScheduleIsThePrintedTable :=
  ⟨by decide +kernel, fun q => ⟨getElem_generate_pair q 0, getElem_generate_pair q 1⟩⟩

end Sys2Proof.Machine
end

section
/-! PROOFS. The AR2 octet cipher (R193 to R204): the control bytes, what every mode does to a
word, which control bytes and table seeds `decrypt_code` accepts, and why it loses no information. -/

namespace Sys2Proof

/-! ### Control bytes (R105) -/

theorem decodeControl_of_gt {c : Byte} (h : 7 < c.toNat) : decodeControl c = .error (.reservedControl c) := by
  unfold decodeControl
  split
  case h_9 => rfl
  all_goals exact absurd h (by decide)

/-- Below 7 every control byte is a mode of its own. -/
theorem exists_decodeControl_of_lt {c : Byte} (h : c.toNat < 7) : ∃ m, decodeControl c = .ok m ∧ m ≠ .metaMode := by
  obtain ⟨n, hn, rfl⟩ : ∃ n < 7, c = BitVec.ofNat 8 n := ⟨c.toNat, h, by rw [BitVec.ofNat_toNat, BitVec.setWidth_eq]⟩
  interval_cases n
  exacts [⟨.xor, rfl, nofun⟩, ⟨.nibswapXor, rfl, nofun⟩, ⟨.add, rfl, nofun⟩, ⟨.subReversed, rfl, nofun⟩,
    ⟨.xorAdd, rfl, nofun⟩, ⟨.subXor, rfl, nofun⟩, ⟨.mixedOffset, rfl, nofun⟩]

end Sys2Proof

namespace Sys2Proof.Machine

/-! ### Permutations of a byte, of a word (R195, R196) -/

/-- A byte's XOR with a table entry undoes itself. -/
theorem xor_involutive (t : Byte) : Function.Involutive (· ^^^ t) := fun x => by
  show x ^^^ t ^^^ t = x
  rw [BitVec.xor_assoc, BitVec.xor_self, BitVec.xor_zero]

theorem nib_involutive : Function.Involutive nib := fun b => by
  have low : (nib b).extractLsb' 0 4 = b.extractLsb' 4 4 := BitVec.extractLsb'_append_eq_right
  have high : (nib b).extractLsb' 4 4 = b.extractLsb' 0 4 := BitVec.extractLsb'_append_eq_left
  rw [nib, low, high]
  exact (BitVec.extractLsb'_append_extractLsb'_eq_extractLsb' rfl).trans BitVec.extractLsb'_eq_self

/-- A permutation of the bytes on every lane is a permutation of the words. -/
def lanesPerm (f : Fin 4 → Equiv.Perm Byte) : Equiv.Perm Word where
  toFun := mapLanes fun k => f k
  invFun := mapLanes fun k => (f k).symm
  left_inv w := eq_of_laneOf fun k => by simp only [laneOf_mapLanes, Equiv.symm_apply_apply]
  right_inv w := eq_of_laneOf fun k => by simp only [laneOf_mapLanes, Equiv.apply_symm_apply]

@[simp] theorem laneOf_lanesPerm (f : Fin 4 → Equiv.Perm Byte) (w : Word) (k : Fin 4) :
    laneOf (lanesPerm f w) k = f k (laneOf w k) :=
  laneOf_mapLanes (fun k => f k) w k

theorem not_involutive : Function.Involutive fun w : Word => ~~~w := fun _ => BitVec.not_not

/-! ### The modes (R197 to R204) -/

/-- What a mode that reads a table does to lane `k` at table index `i`; mode 7 then is mode 1 (R204). -/
def lanePerm (p : Params) (i : Fin 32) (k : Fin 4) : Ar2Mode → Equiv.Perm Byte
  | .xor => (xor_involutive (tableEntry p (p.laneMap.t0.get k) i)).toPerm
  | .nibswapXor | .metaMode =>
    nib_involutive.toPerm.trans (xor_involutive (tableEntry p (p.laneMap.t1.get k) i)).toPerm
  | .add => Equiv.addRight (tableEntry p (p.laneMap.t2.get k) i)
  | .subReversed => Equiv.subRight (tableEntry p (p.laneMap.t2.get (3 - k)) i)
  | .xorAdd =>
    (xor_involutive (tableEntry p (p.laneMap.a4.get k) i)).toPerm.trans
      (Equiv.addRight (tableEntry p (p.laneMap.b4.get k) i))
  | .subXor =>
    (Equiv.subRight (tableEntry p (p.laneMap.a5.get k) i)).trans
      (xor_involutive (tableEntry p (p.laneMap.b5.get k) i)).toPerm
  | .mixedOffset =>
    match p.laneMap.sg6.get k with
    | .add => Equiv.addRight (tableEntry p (p.laneMap.t6.get k) (offsetIndex i (p.laneMap.d6.get k)))
    | .sub => Equiv.subRight (tableEntry p (p.laneMap.t6.get k) (offsetIndex i (p.laneMap.d6.get k)))

/-- Every mode reads a table, but for mode 7 with an even table seed (R204). -/
def readsTable (m : Ar2Mode) (s : Byte) : Prop := m = .metaMode → s.toNat % 2 = 1

theorem getLsbD_zero_eq_decide (s : Byte) : s.getLsbD 0 = decide (s.toNat % 2 = 1) := Nat.testBit_zero _

theorem seeded_eq_ok {s : Byte} {f : Fin 32 → Word} {x : Word} :
    seeded s f = .ok x ↔ s.toNat ≤ 31 ∧ f (seedIndex s) = x := by
  unfold seeded
  split
  · exact ⟨nofun, fun ⟨hs, _⟩ => by omega⟩
  · exact ⟨fun h => ⟨by omega, Except.ok.inj h⟩, fun ⟨_, h⟩ => congrArg _ h⟩

/-- A mode that reads a table permutes each lane, and takes no table seed above 31. -/
theorem decrypt_of_readsTable {m : Ar2Mode} {s : Byte} (h : readsTable m s) (p : Params) (w : Word) :
    Ar2Mode.decrypt m p w s = seeded s fun i => lanesPerm (fun k => lanePerm p i k m) w := by
  cases m
  case metaMode =>
    rw [Ar2Mode.decrypt, decryptMode7, getLsbD_zero_eq_decide, h rfl]
    rfl
  case mixedOffset =>
    rw [Ar2Mode.decrypt, decryptMode6]
    refine congrArg (seeded s) (funext fun i => eq_of_laneOf fun k => ?_)
    rw [laneOf_mapLanes, laneOf_lanesPerm, lanePerm]
    cases p.laneMap.sg6.get k <;> rfl
  all_goals rfl

/-- Mode 7 complements under an even table seed, and reads no table (R204). -/
theorem decrypt_metaMode_of_even {s : Byte} (h : s.toNat % 2 = 0) (p : Params) (w : Word) :
    Ar2Mode.decrypt .metaMode p w s = .ok (~~~w) := by
  rw [Ar2Mode.decrypt, decryptMode7, getLsbD_zero_eq_decide, h]
  rfl

/-! ### What `decrypt_code` accepts (R194, R204) -/

theorem decryptCode_of_decodeControl {c : Byte} {m : Ar2Mode} (h : decodeControl c = .ok m) (p : Params) (w : Word)
    (s : Byte) : decryptCode p w c s = Ar2Mode.decrypt m p w s := by
  rw [decryptCode, h]

theorem decryptCode_of_gt {c : Byte} (h : 7 < c.toNat) (p : Params) (w : Word) (s : Byte) :
    decryptCode p w c s = .error .unsupportedMode := by
  rw [decryptCode, decodeControl_of_gt h]

/-- The complement: mode 7 with an even table seed, which need not be in range (R204). -/
theorem decryptCode_seven_of_even {s : Byte} (h : s.toNat % 2 = 0) (p : Params) (w : Word) :
    decryptCode p w 7#8 s = .ok (~~~w) :=
  decrypt_metaMode_of_even h p w

/-- But for the complement, a control byte up to 7 names a mode that reads a table. -/
theorem exists_readsTable {c s : Byte} (hc : c.toNat ≤ 7) (hne : ¬ (c = 7#8 ∧ s.toNat % 2 = 0)) :
    ∃ m, decodeControl c = .ok m ∧ readsTable m s := by
  rcases Nat.lt_or_eq_of_le hc with hlt | heq
  · obtain ⟨m, hm, hmeta⟩ := exists_decodeControl_of_lt hlt
    exact ⟨m, hm, fun h => absurd h hmeta⟩
  · obtain rfl : c = 7#8 := BitVec.eq_of_toNat_eq heq
    exact ⟨.metaMode, rfl, fun _ => Nat.mod_two_ne_zero.1 fun heven => hne ⟨rfl, heven⟩⟩

/-- Under a control byte that reads a table, the table seed decides (R194). -/
theorem decryptCode_of_readsTable {c s : Byte} {m : Ar2Mode} (hc : decodeControl c = .ok m) (hm : readsTable m s)
    (p : Params) (w : Word) :
    decryptCode p w c s = seeded s fun i => lanesPerm (fun k => lanePerm p i k m) w := by
  rw [decryptCode_of_decodeControl hc, decrypt_of_readsTable hm]

theorem decryptCode_of_seed_gt {c s : Byte} (hc : c.toNat ≤ 7) (hne : ¬ (c = 7#8 ∧ s.toNat % 2 = 0))
    (hs : 31 < s.toNat) (p : Params) (w : Word) : decryptCode p w c s = .error .seedRange := by
  obtain ⟨m, hm, hreads⟩ := exists_readsTable hc hne
  rw [decryptCode_of_readsTable hm hreads, seeded_of_gt hs]

theorem exists_decryptCode_ok {c s : Byte} (hc : c.toNat ≤ 7) (hs : s.toNat ≤ 31 ∨ c = 7#8 ∧ s.toNat % 2 = 0)
    (p : Params) (w : Word) : ∃ x, decryptCode p w c s = .ok x := by
  by_cases hcomplement : c = 7#8 ∧ s.toNat % 2 = 0
  · obtain ⟨rfl, heven⟩ := hcomplement
    exact ⟨_, decryptCode_seven_of_even heven p w⟩
  · obtain ⟨m, hm, hreads⟩ := exists_readsTable hc hcomplement
    exact ⟨_, by rw [decryptCode_of_readsTable hm hreads, seeded_of_le (hs.resolve_right hcomplement)]⟩

/-- Settles O28. -/
theorem decryptCodeAcceptsAndRejects : Obligations.DecryptCodeAcceptsAndRejects := by
  intro p w c s
  refine ⟨fun hc => decryptCode_of_gt hc p w s, ?_, ?_, fun hc hs => ?_, fun hc hs => ?_⟩
  · rintro rfl heven
    exact decryptCode_seven_of_even heven p w
  · rintro rfl hodd
    have seven := decryptCode_of_readsTable (c := 7#8) (m := .metaMode) rfl (fun _ => hodd) p w
    have one := decryptCode_of_readsTable (c := 1#8) (s := s) (m := .nibswapXor) rfl nofun p w
    exact seven.trans one.symm
  · have hne : c ≠ 7#8 := fun h => absurd hc (h ▸ by decide)
    exact decryptCode_of_seed_gt (Nat.le_of_lt hc) (fun h => hne h.1) hs p w
  · exact exists_decryptCode_ok (Nat.le_of_lt hc) (.inl hs) p w

/-! ### No information is lost (R214) -/

/-- Where `decrypt_code` accepts a control byte and a table seed for one word, it is a permutation of the words. -/
theorem exists_perm_of_decryptCode_ok {p : Params} {c s : Byte} {w x : Word} (h : decryptCode p w c s = .ok x) :
    ∃ e : Equiv.Perm Word, ∀ w', decryptCode p w' c s = .ok (e w') := by
  have hc : c.toNat ≤ 7 := Nat.le_of_not_lt fun hgt => nomatch (decryptCode_of_gt hgt p w s).symm.trans h
  by_cases hcomplement : c = 7#8 ∧ s.toNat % 2 = 0
  · obtain ⟨rfl, heven⟩ := hcomplement
    exact ⟨not_involutive.toPerm, decryptCode_seven_of_even heven p⟩
  · obtain ⟨m, hm, hreads⟩ := exists_readsTable hc hcomplement
    rw [decryptCode_of_readsTable hm hreads] at h
    obtain ⟨hs, -⟩ := seeded_eq_ok.1 h
    exact ⟨lanesPerm fun k => lanePerm p (seedIndex s) k m, fun w' => by
      rw [decryptCode_of_readsTable hm hreads, seeded_of_le hs]⟩

/-- Mode 0 XORs each lane with the same entry again (R197). -/
theorem lanesPerm_xor_involutive (p : Params) (i : Fin 32) :
    Function.Involutive (lanesPerm fun k => lanePerm p i k .xor) := fun w =>
  eq_of_laneOf fun k => by
    rw [laneOf_lanesPerm, laneOf_lanesPerm]
    exact xor_involutive _ _

/-- Mode 0, and mode 7 with an even table seed, undo themselves. -/
theorem decryptCode_involutive {p : Params} {c s : Byte} (hc : c = 0#8 ∨ c = 7#8 ∧ s.toNat % 2 = 0) {w x : Word}
    (h : decryptCode p w c s = .ok x) : decryptCode p x c s = .ok w := by
  rcases hc with rfl | ⟨rfl, heven⟩
  · have mode : ∀ w, decryptCode p w 0#8 s = seeded s fun i => lanesPerm (fun k => lanePerm p i k .xor) w :=
      decryptCode_of_readsTable rfl (m := .xor) nofun p
    rw [mode] at h ⊢
    obtain ⟨hs, rfl⟩ := seeded_eq_ok.1 h
    rw [seeded_of_le hs, lanesPerm_xor_involutive]
  · cases (decryptCode_seven_of_even heven p w).symm.trans h
    exact (decryptCode_seven_of_even heven p _).trans (congrArg _ (not_involutive w))

/-- Settles O36. -/
theorem decryptCodeIsABijection : Obligations.DecryptCodeIsABijection := by
  rintro p c s ⟨w₀, x₀, h₀⟩
  obtain ⟨e, he⟩ := exists_perm_of_decryptCode_ok h₀
  refine ⟨fun x => ⟨e.symm x, ?_, fun w hw => ?_⟩, fun hc _ _ => decryptCode_involutive hc⟩
  · rw [he, e.apply_symm_apply]
  · rw [he] at hw
    exact e.eq_symm_apply.2 (Except.ok.inj hw)

end Sys2Proof.Machine
end

section
/-! PROOFS. The AR2 commands on one word and on the seed state: AR2_SEED_DEFAULT and AR2_SEED_KEY (R191, R210, R211),
AR2_CODE (R212), and the control values as instructions (assumption 3). -/

namespace Sys2Proof.Machine

/-! ### The seed state (R107, R191) -/

/-- AR2SEED shows the key that the seed state was regenerated from. -/
@[simp] theorem seedWord_regenerate (k : Word) : seedWord (regenerate k) = k :=
  eq_of_laneOf fun j => by
    refine (laneOf_append4 (laneOf k 3) (laneOf k 2) (laneOf k 1) (laneOf k 0) j).trans ?_
    fin_cases j <;> rfl

/-- Settles O27. -/
theorem seedCommandsLoadTheKey : Obligations.SeedCommandsLoadTheKey := by
  refine ⟨fun _ hop => decodeCmd_of_encode (cmdWord_of_opcodeOf hop),
    fun _ hop => decodeCmd_of_encode (cmdWord_of_opcodeOf hop), fun ig s => ⟨?_, ?_⟩⟩
  · exact ⟨regenerate s.params.ar2DefaultKey, rfl, rfl, seedWord_regenerate _⟩
  · exact ⟨regenerate s.opa, rfl, rfl, seedWord_regenerate _⟩

/-! ### AR2_CODE and the control values (R194, R212) -/

theorem exec_ar2Code (ig : BitVec 24) (s : State) :
    exec (.ar2Code ig) s = s.concludeRes0 (decryptCode s.params s.opa s.opc s.opd) := rfl

theorem exec_toInstr (m : Ar2Mode) (s : State) :
    exec m.toInstr s = s.concludeRes0 (Ar2Mode.decrypt m s.params s.opa s.opd) := by
  cases m <;> rfl

@[simp] theorem State.concludeRes0_ok (s : State) (w : Word) :
    s.concludeRes0 (.ok w) = .next { s with res0 := w, err := .ok } := rfl

@[simp] theorem State.concludeRes0_error (s : State) (e : ErrCode) :
    s.concludeRes0 (.error e) = .next { s with err := e, sticky := true } := rfl

/-- Settles O29. -/
theorem ar2CodeDecryptsOneWord : Obligations.Ar2CodeDecryptsOneWord := by
  refine ⟨fun _ hop => decodeCmd_of_encode (cmdWord_of_opcodeOf hop),
    fun ig s => ⟨fun hc hs => ?_, fun hc => ?_, fun hc hs hne => ?_⟩⟩
  · obtain ⟨w, hw⟩ := exists_decryptCode_ok hc hs s.params s.opa
    exact ⟨w, hw, by rw [exec_ar2Code, hw, State.concludeRes0_ok]⟩
  · rw [exec_ar2Code, decryptCode_of_gt hc, State.concludeRes0_error]
  · rw [exec_ar2Code, decryptCode_of_seed_gt hc hne hs, State.concludeRes0_error]

/-- A control value that reads a table takes no table seed above 31 (R194). -/
theorem exec_toInstr_of_seed_gt {m : Ar2Mode} {s : State} (hm : readsTable m s.opd) (hs : 31 < s.opd.toNat) :
    exec m.toInstr s = .next { s with err := .seedRange, sticky := true } := by
  rw [exec_toInstr, decrypt_of_readsTable hm, seeded_of_gt hs, State.concludeRes0_error]

/-- Settles O35. -/
theorem tableSeedAboveRangeFaults : Obligations.TableSeedAboveRangeFaults := by
  rintro s i hs (hi | ⟨rfl, hodd⟩)
  · simp only [List.mem_cons, List.not_mem_nil, or_false] at hi
    rcases hi with rfl | rfl | rfl | rfl | rfl | rfl | rfl
    · exact exec_toInstr_of_seed_gt (m := .xor) nofun hs
    · exact exec_toInstr_of_seed_gt (m := .nibswapXor) nofun hs
    · exact exec_toInstr_of_seed_gt (m := .add) nofun hs
    · exact exec_toInstr_of_seed_gt (m := .subReversed) nofun hs
    · exact exec_toInstr_of_seed_gt (m := .xorAdd) nofun hs
    · exact exec_toInstr_of_seed_gt (m := .subXor) nofun hs
    · exact exec_toInstr_of_seed_gt (m := .mixedOffset) nofun hs
  · exact exec_toInstr_of_seed_gt (m := .metaMode) (fun _ => hodd) hs

end Sys2Proof.Machine
end

section
/-! PROOFS. The AR2 stream (R205 to R209, R213): how `decrypt_cheat` takes a pair, what AR2_STREAM does after its checks,
the loop over WBUF as `decrypt_cheat` of the words, and what it emits. -/

namespace Sys2Proof.Machine

/-! ### Pairs of words (R206, R207) -/

theorem raising_map {α β : Type} (r : Except ErrCode α) (f : α → β) : raising (r.map f) = (raising r).map f := by
  cases r <;> rfl

section
variable {p : Params} {x y a v : Word} {rest : List Word} {sd : Seed}

/-- A sentinel pair is dropped, and its value is the next key (R207). -/
theorem decryptCheat_of_sentinel (hx : decryptCode p x sd.addrControl sd.addrSeed = .ok sentinel)
    (hy : decryptCode p y sd.valControl sd.valSeed = .ok v) :
    decryptCheat p (x :: y :: rest) sd = decryptCheat p rest (regenerate v) := by
  simp only [decryptCheat, hx, hy, bind, Except.bind, if_true]

/-- Every other pair is emitted, and the seed state kept. -/
theorem decryptCheat_of_ne_sentinel (hx : decryptCode p x sd.addrControl sd.addrSeed = .ok a)
    (hy : decryptCode p y sd.valControl sd.valSeed = .ok v) (ha : a ≠ sentinel) :
    decryptCheat p (x :: y :: rest) sd = (decryptCheat p rest sd).map (Prod.map (a :: v :: ·) id) := by
  simp only [decryptCheat, hx, hy, bind, Except.bind, if_neg ha]
  cases decryptCheat p rest sd <;> rfl

/-- A first pair that does not stop the decoder decrypts. -/
theorem exists_decryptCode_of_decryptCheat_ok {out : List Word} {final : Seed}
    (h : decryptCheat p (x :: y :: rest) sd = .ok (out, final)) :
    ∃ a v, decryptCode p x sd.addrControl sd.addrSeed = .ok a ∧ decryptCode p y sd.valControl sd.valSeed = .ok v := by
  simp only [decryptCheat, Except.bind_eq_ok] at h
  obtain ⟨a, ha, v, hv, -⟩ := h
  exact ⟨a, v, ha, hv⟩

end

/-- `decrypt_cheat` goes through an even number of words and on with the rest, under the seed state it has reached. -/
theorem decryptCheat_append {p : Params} {rest : List Word} {mid : Seed} :
    ∀ {before : List Word} {sd : Seed} {out : List Word}, before.length % 2 = 0 →
      decryptCheat p before sd = .ok (out, mid) →
      decryptCheat p (before ++ rest) sd = (decryptCheat p rest mid).map (Prod.map (out ++ ·) id)
  | [], _, _, _, h => by
    cases h
    rw [List.nil_append]
    cases decryptCheat p rest mid <;> rfl
  | [_], _, _, hlen, _ => nomatch hlen
  | x :: y :: before, sd, out, hlen, h => by
    have hlen : before.length % 2 = 0 := (Nat.add_mod_right before.length 2).symm.trans hlen
    obtain ⟨a, v, hx, hy⟩ := exists_decryptCode_of_decryptCheat_ok h
    simp only [List.cons_append]
    by_cases ha : a = sentinel
    · subst ha
      rw [decryptCheat_of_sentinel hx hy] at h ⊢
      exact decryptCheat_append hlen h
    · rw [decryptCheat_of_ne_sentinel hx hy ha] at h ⊢
      obtain ⟨⟨o, f⟩, ho, h⟩ := Except.map_eq_ok.1 h
      obtain ⟨rfl, rfl⟩ := Prod.mk.inj h
      rw [decryptCheat_append hlen ho, id]
      cases decryptCheat p rest f <;> rfl

/-- Settles O40. -/
theorem sentinelPairRekeysTheRest : Obligations.SentinelPairRekeysTheRest := by
  intro p before after out x y v sd mid hlen hbefore hx hy
  rw [decryptCheat_append hlen hbefore, decryptCheat_of_sentinel hx hy]
  rfl

/-! ### AR2_STREAM and its checks (R213, R308) -/

/-- Settles O38. -/
theorem streamChecksInOrder : Obligations.StreamChecksInOrder := by
  refine ⟨fun _ hop => decodeCmd_of_encode (cmdWord_of_opcodeOf hop), fun ig s => ⟨fun hdepth => ?_, fun hdepth hodd => ?_⟩⟩
  · exact State.checked_of_fail (by rw [State.wcountAboveDepth, decide_eq_true hdepth, firstError])
  · refine State.checked_of_fail ?_
    rw [State.wcountAboveDepth, decide_eq_false (Nat.not_lt.2 hdepth), State.wcountOdd, decide_eq_true hodd]
    rfl

section
variable {s : State} (ig : BitVec 24) (hdepth : s.wcount.toNat ≤ s.params.wbufDepth) (heven : s.wcount.toNat % 2 = 0)
include hdepth heven

/-- Once its checks pass, AR2_STREAM ends as its lines do. -/
theorem exec_ar2Stream_of_pass :
    exec (.ar2Stream ig) s = s.conclude [.obuf, .ocount, .seed] (ar2Stream s 0 s.wcount.toNat 0) :=
  State.checked_of_pass (by simp [State.wcountAboveDepth, State.wcountOdd, hdepth, heven])

/-- What AR2_STREAM emits goes to OBUF from index 0 on, and no other word of OBUF changes (R208, R209). -/
theorem exec_ar2Stream_of_ok {out : List Word} {sd : Seed}
    (h : ar2Pairs s.params s.wbuf (s.wcount.toNat / 2) 0 s.seed = .ok (out, sd)) :
    ∃ m : Memory,
      exec (.ar2Stream ig) s = .next { s with obuf := m, ocount := BitVec.ofNat 11 out.length, seed := sd, err := .ok }
        ∧ (∀ k < out.length, m.read k = out[k]?) ∧ ∀ k, out.length ≤ k → m.read k = s.obuf.read k := by
  refine ⟨s.obuf.writeWords 0 out, ?_, fun k hk => ?_, fun k hk => ?_⟩
  · rw [exec_ar2Stream_of_pass ig hdepth heven, ar2Stream, h, ← Nat.zero_add out.length]
    rfl
  · rw [Memory.read_writeWords, if_pos (by omega), Nat.sub_zero]
  · rw [Memory.read_writeWords, if_neg (by omega)]

/-- An error of the stream is a data fault (R307). -/
theorem exec_ar2Stream_of_raised {e : ErrCode}
    (h : ar2Pairs s.params s.wbuf (s.wcount.toNat / 2) 0 s.seed = .error (.raised e)) :
    exec (.ar2Stream ig) s = .next (s.takeFault e [.obuf, .ocount, .seed]) := by
  rw [exec_ar2Stream_of_pass ig hdepth heven, ar2Stream, h]
  rfl

end

/-! ### The loop over WBUF (R205, R206) -/

section
variable {p : Params} {m : Memory} {n i : Nat} {x y a v : Word} {sd : Seed}
variable (hi : m.read i = some x) (hx : decryptCode p x sd.addrControl sd.addrSeed = .ok a)
variable (hi₁ : m.read (i + 1) = some y) (hy : decryptCode p y sd.valControl sd.valSeed = .ok v)
include hi hx hi₁ hy

/-- A turn of the loop at a sentinel pair (R207). -/
theorem ar2Pairs_of_sentinel (ha : a = sentinel) :
    ar2Pairs p m (n + 1) i sd = ar2Pairs p m n (i + 2) (regenerate v) := by
  simp only [ar2Pairs, Memory.fetch_eq_ok.2 hi, hx, Memory.fetch_eq_ok.2 hi₁, hy, raising_ok, bind, Except.bind, if_pos ha]

/-- A turn of the loop at any other pair (R206). -/
theorem ar2Pairs_of_ne_sentinel (ha : a ≠ sentinel) :
    ar2Pairs p m (n + 1) i sd = (ar2Pairs p m n (i + 2) sd).map (Prod.map (a :: v :: ·) id) := by
  simp only [ar2Pairs, Memory.fetch_eq_ok.2 hi, hx, Memory.fetch_eq_ok.2 hi₁, hy, raising_ok, bind, Except.bind, if_neg ha]
  cases ar2Pairs p m n (i + 2) sd <;> rfl

end

/-- The loop over words that hold values is `decrypt_cheat` of these words. -/
theorem ar2Pairs_eq_decryptCheat {p : Params} {m : Memory} {n i : Nat} {ws : List Word} {sd : Seed}
    (hlen : ws.length = 2 * n) (hws : ∀ k < ws.length, m.read (i + k) = ws[k]?) :
    ar2Pairs p m n i sd = raising (decryptCheat p ws sd) := by
  induction n generalizing i ws sd with
  | zero =>
    obtain rfl := List.length_eq_zero_iff.1 hlen
    rfl
  | succ n ih =>
    match ws with
    | x :: y :: rest =>
      have hi : m.read i = some x := hws 0 (Nat.succ_pos _)
      have hi₁ : m.read (i + 1) = some y := hws 1 (Nat.succ_lt_succ (Nat.succ_pos _))
      have hrest : ∀ sd, ar2Pairs p m n (i + 2) sd = raising (decryptCheat p rest sd) := fun sd => by
        refine ih (by rw [List.length_cons, List.length_cons] at hlen; omega) fun k hk => ?_
        rw [Nat.add_assoc, Nat.add_comm 2 k]
        exact hws (k + 2) (Nat.succ_lt_succ (Nat.succ_lt_succ hk))
      cases hx : decryptCode p x sd.addrControl sd.addrSeed with
      | error e => simp [ar2Pairs, decryptCheat, Memory.fetch_eq_ok.2 hi, hx, bind, Except.bind]
      | ok a =>
        cases hy : decryptCode p y sd.valControl sd.valSeed with
        | error e =>
          simp [ar2Pairs, decryptCheat, Memory.fetch_eq_ok.2 hi, Memory.fetch_eq_ok.2 hi₁, hx, hy, bind, Except.bind]
        | ok v =>
          by_cases ha : a = sentinel
          · rw [ar2Pairs_of_sentinel hi hx hi₁ hy ha, decryptCheat_of_sentinel (ha ▸ hx) hy, hrest]
          · rw [ar2Pairs_of_ne_sentinel hi hx hi₁ hy ha, decryptCheat_of_ne_sentinel hx hy ha, hrest, raising_map]

/-- Settles O37. -/
theorem ar2StreamRefinesDecryptCheat : Obligations.Ar2StreamRefinesDecryptCheat := by
  intro ig s ws hdepth heven hlen hws
  have hpairs : ar2Pairs s.params s.wbuf (s.wcount.toNat / 2) 0 s.seed = raising (decryptCheat s.params ws s.seed) :=
    ar2Pairs_eq_decryptCheat (by omega) (by simpa using hws)
  constructor
  · intro out sd h
    rw [h, raising_ok] at hpairs
    obtain ⟨m, hexec, hemitted, hframe⟩ := exec_ar2Stream_of_ok ig hdepth heven hpairs
    obtain ⟨-, hout, -⟩ := ar2Pairs_ok hpairs
    exact ⟨m, hexec, by omega, hemitted, hframe⟩
  · intro e h
    rw [h, raising_error] at hpairs
    refine ⟨_, exec_ar2Stream_of_raised ig hdepth heven hpairs, ?_⟩
    rw [State.takeFault_stream]

/-- Without a sentinel address the loop emits every pair in its place and keeps the seed state. -/
theorem ar2Pairs_of_no_sentinel {p : Params} {m : Memory} {n i : Nat} {sd : Seed} {a v : Nat → Word}
    (h : ∀ k < n, ∃ x y,
      m.read (i + 2 * k) = some x ∧ decryptCode p x sd.addrControl sd.addrSeed = .ok (a k)
        ∧ m.read (i + 2 * k + 1) = some y ∧ decryptCode p y sd.valControl sd.valSeed = .ok (v k) ∧ a k ≠ sentinel) :
    ∃ out, ar2Pairs p m n i sd = .ok (out, sd) ∧ out.length = 2 * n
      ∧ ∀ k < n, out[2 * k]? = some (a k) ∧ out[2 * k + 1]? = some (v k) := by
  induction n generalizing i a v with
  | zero => exact ⟨[], rfl, rfl, nofun⟩
  | succ n ih =>
    obtain ⟨x, y, hi, hx, hi₁, hy, ha⟩ := h 0 (Nat.succ_pos n)
    obtain ⟨out, hout, hlen, hplace⟩ := ih (i := i + 2) (a := fun k => a (k + 1)) (v := fun k => v (k + 1)) fun k hk => by
      rw [Nat.add_assoc i 2, Nat.add_comm 2, ← Nat.mul_succ]
      exact h (k + 1) (Nat.succ_lt_succ hk)
    refine ⟨a 0 :: v 0 :: out, ?_, by rw [List.length_cons, List.length_cons, hlen]; rfl, fun k hk => ?_⟩
    · rw [ar2Pairs_of_ne_sentinel (i := i) hi hx hi₁ hy ha, hout]
      rfl
    · cases k with
      | zero => exact ⟨rfl, rfl⟩
      | succ k => exact hplace k (Nat.lt_of_succ_lt_succ hk)

/-- Settles O39. -/
theorem ar2StreamWithoutRekey : Obligations.Ar2StreamWithoutRekey := by
  intro ig s a v hdepth heven h
  have hcount : 2 * (s.wcount.toNat / 2) = s.wcount.toNat := by omega
  obtain ⟨out, hpairs, hlen, hplace⟩ := ar2Pairs_of_no_sentinel (p := s.params) (m := s.wbuf) (i := 0) (sd := s.seed)
    (n := s.wcount.toNat / 2) (a := a) (v := v) fun k hk => by simpa using h k (by omega)
  obtain ⟨m, hexec, hemitted, hframe⟩ := exec_ar2Stream_of_ok ig hdepth heven hpairs
  rw [hcount] at hlen
  rw [hlen] at hexec hemitted hframe
  refine ⟨m, ?_, fun k hk => ?_, hframe⟩
  · rw [hexec, BitVec.ofNat_toNat, BitVec.setWidth_eq]
  · obtain ⟨haddr, hval⟩ := hplace k (by omega)
    exact ⟨(hemitted _ hk).trans haddr, (hemitted _ (by omega)).trans hval⟩

/-! ### What a stream leaves in OBUF (R208, R214) -/

/-- Settles O41. -/
theorem streamOutputIsPaired : Obligations.StreamOutputIsPaired := by
  intro ig s t h hok
  rcases execAr2Stream_next h with ⟨out, sd, hdepth, heven, hpairs, rfl⟩ | ⟨e, he, rfl⟩ | ⟨e, he, -, rfl⟩
  · obtain ⟨hparity, hlen, haddr⟩ := ar2Pairs_ok hpairs
    have hcount : (BitVec.ofNat 11 out.length).toNat = out.length := by
      have := s.wcount.isLt
      rw [BitVec.toNat_ofNat, Nat.mod_eq_of_lt (by omega)]
    simp only [hcount]
    refine ⟨hparity, by omega, fun k hk => ?_⟩
    rw [Memory.read_writeWords, if_pos (by omega), Nat.sub_zero]
    exact haddr k
  · exact absurd hok he
  · exact absurd hok he

end Sys2Proof.Machine
end

section
/-! PROOFS. CUR_READ and the reads it makes (R231 to R238): its checks and faults, the bits of a read in the words, the
window at its position, and two reads in a row. -/

namespace Sys2Proof.Machine

/-! ### The checks of CUR_READ (R235, R237, R306) -/

/-- Past its two checks CUR_READ is the read. -/
theorem exec_curRead_of_pass (ig : BitVec 24) {s : State} (hdepth : s.cur.cnt.toNat ≤ s.params.wbufDepth)
    (hwidth : s.opc.toNat ≤ 32) :
    exec (.curRead ig) s =
      s.conclude [] ((readBits s.wbuf s.opc.toNat s.cur).map fun (r, c) => { s with res0 := r, cur := c }) :=
  State.checked_of_pass (by simpa [State.curCntAboveDepth] using ⟨hdepth, hwidth⟩)

/-- Each of the two checks takes ILLEGAL_OPERAND. -/
theorem exec_curRead_of_fail (ig : BitVec 24) {s : State}
    (h : s.params.wbufDepth < s.cur.cnt.toNat ∨ 32 < s.opc.toNat) :
    exec (.curRead ig) s = .next { s with err := .illegalOperand, sticky := true } := by
  refine State.checked_of_fail ?_
  unfold State.curCntAboveDepth State.readWidth
  by_cases hdepth : s.params.wbufDepth < s.cur.cnt.toNat
  · rw [decide_eq_true hdepth, firstError]
  · rw [decide_eq_false hdepth, firstError, decide_eq_true (h.resolve_left hdepth), firstError]

/-- Settles O43. -/
theorem curReadFaultsKeepTheCursor : Obligations.CurReadFaultsKeepTheCursor := by
  refine fun ig s => ⟨exec_curRead_of_fail ig, fun hdepth hwidth hpos hend => ?_⟩
  rw [exec_curRead_of_pass ig hdepth hwidth, readBits_past_end hpos hend]
  rfl

/-! ### The bits of a read (R231, R232) -/

/-- In words that hold values, the bit of a read at place `n - 1 - j` is the `j`-th from its position on. -/
theorem Memory.HoldsBits.bitAt_eq_bitsFrom {m : Memory} {g n j : Nat} (hv : m.HoldsBits g (g + n)) (hn : n ≤ 32)
    (hj : j < n) : m.bitAt (g + j) = some ((bitsFrom m n g 0).getLsbD (n - 1 - j)) := by
  obtain ⟨w, hw⟩ := Option.isSome_iff_exists.1 (hv (g + j) (by omega) (by omega))
  rw [bitsFrom_getLsbD m n g 0 _ hn (by omega), if_pos (by omega), show n - 1 - (n - 1 - j) = j by omega, Memory.bitAt,
    hw]
  rfl

/-- Above its `n` bits a read gives zeros. -/
theorem bitsFrom_getLsbD_of_ge (m : Memory) {n : Nat} (g : Nat) {j : Nat} (hn : n ≤ 32) (hj : n ≤ j) :
    (bitsFrom m n g 0).getLsbD j = false := by
  by_cases hlt : j < 32
  · rw [bitsFrom_getLsbD m n g 0 j hn hlt, if_neg (by omega)]; exact BitVec.getLsbD_zero
  · exact BitVec.getLsbD_of_ge _ j (by omega)

/-- Settles O42. -/
theorem curReadReturnsTheNextBits : Obligations.CurReadReturnsTheNextBits := by
  intro ig s hdepth hwidth hend hv
  obtain ⟨d, hread, hpos, hcnt⟩ := readBits_ok hend hv
  refine ⟨_, d, ?_, hpos, hcnt, fun j hj => Memory.HoldsBits.bitAt_eq_bitsFrom hv hwidth hj,
    fun j hj => bitsFrom_getLsbD_of_ge s.wbuf s.cur.position hwidth hj⟩
  rw [exec_curRead_of_pass ig hdepth hwidth, hread]
  rfl

/-! ### The window at the position of a read (R236) -/

/-- The window's upper bits are the word's low bits, and its `o` lowest the next word's high bits. -/
theorem windowOf_getLsbD (w next : Word) {o i : Nat} (ho : o < 32) (hi : i < 32) :
    (windowOf w next o).getLsbD i = if o ≤ i then w.getLsbD (i - o) else next.getLsbD (32 - o + i) := by
  unfold windowOf
  split
  · simp [*]
  · rw [BitVec.getLsbD_or, BitVec.getLsbD_shiftLeft, BitVec.getLsbD_ushiftRight]
    split
    · simp [show ¬ i < o by omega, hi, BitVec.getLsbD_of_ge next (32 - o + i) (by omega)]
    · simp [show i < o by omega]

/-- The bit `k` further than the cursor is bit `31 - k` of the window at the cursor (R231, R236). -/
theorem Cursor.bitAt_add_eq_windowOf {c : Cursor} {m : Memory} {w next : Word} {k : Nat} (hk : k < 32)
    (hw : m.read c.idx.toNat = some w) (hnext : m.read (c.idx.toNat + 1) = some next ∨ c.off.toNat + k < 32) :
    m.bitAt (c.position + k) = some ((windowOf w next c.off.toNat).getLsbD (31 - k)) := by
  have hoff := c.off_lt
  rw [windowOf_getLsbD w next hoff (by omega), Memory.bitAt, Cursor.position]
  by_cases hword : c.off.toNat + k < 32
  · rw [if_pos (by omega), show (32 * c.idx.toNat + c.off.toNat + k) / 32 = c.idx.toNat by omega, hw, Option.map_some]
    congr 2
    omega
  · rw [if_neg (by omega), show (32 * c.idx.toNat + c.off.toNat + k) / 32 = c.idx.toNat + 1 by omega,
      hnext.resolve_right hword, Option.map_some]
    congr 2
    omega

/-- A read is the high bits of the word whose bits, highest first, are those from its position on. -/
theorem bitsFrom_eq_ushiftRight {m : Memory} {n g : Nat} {v : Word} (hn : n ≤ 32)
    (h : ∀ k < n, m.bitAt (g + k) = some (v.getLsbD (31 - k))) : bitsFrom m n g 0 = v >>> (32 - n) := by
  refine BitVec.eq_of_getLsbD_eq fun i hi => ?_
  rw [BitVec.getLsbD_ushiftRight]
  by_cases hin : i < n
  · rw [bitsFrom_getLsbD m n g 0 i hn hi, if_pos hin, h (n - 1 - i) (by omega), Option.getD_some]
    congr 1
    omega
  · rw [bitsFrom_getLsbD_of_ge m g hn (by omega), BitVec.getLsbD_of_ge v (32 - n + i) (by omega)]

/-- Settles O44. -/
theorem readEqualsWindow : Obligations.ReadEqualsWindow := by
  intro m n c w next _ hn hend hw hnext
  have hbit : ∀ k < n, m.bitAt (c.position + k) = some ((windowOf w next c.off.toNat).getLsbD (31 - k)) :=
    fun k hk => c.bitAt_add_eq_windowOf (by omega) hw (hnext.imp_right (by omega))
  have hv : m.HoldsBits c.position (c.position + n) := fun g hlo hhi => by
    have hg := hbit (g - c.position) (by omega)
    rw [show c.position + (g - c.position) = g by omega, Memory.bitAt, Option.map_eq_some_iff] at hg
    obtain ⟨_, hg, _⟩ := hg
    rw [hg]
    rfl
  obtain ⟨d, hread, _, _⟩ := readBits_ok (.inr hend) hv
  exact ⟨d, by rw [hread, bitsFrom_eq_ushiftRight hn hbit]⟩

/-! ### Two reads in a row (R238) -/

theorem readLoop_add (m : Memory) (a b : Nat) (c : Cursor) (r : Word) :
    readLoop m (a + b) c r = readLoop m a c r >>= fun (x, d) => readLoop m b d x := by
  induction a generalizing c r with
  | zero => rw [Nat.zero_add]; rfl
  | succ a ih =>
    rw [Nat.add_right_comm, readLoop, readLoop]
    cases m.fetch c.idx.toNat with
    | error e => rfl
    | ok w => exact ih _ _

/-- What a bit is shifted into lies above it (R232). -/
theorem shiftIn_shiftLeft_or (r x : Word) (b : Bool) (n : Nat) :
    shiftIn r b <<< n ||| x = r <<< (n + 1) ||| (shiftIn 0 b <<< n ||| x) := by
  have hzero : shiftIn 0 b = if b then 1#32 else 0#32 := by cases b <;> rfl
  rw [hzero, shiftIn, BitVec.shiftLeft_or_distrib, ← BitVec.shiftLeft_add, BitVec.or_assoc, Nat.add_comm 1]

/-- What the loop starts from ends above the bits it reads. -/
theorem readLoop_accumulator (m : Memory) (n : Nat) (c : Cursor) (r : Word) :
    readLoop m n c r = (readLoop m n c 0).map fun (x, d) => (r <<< n ||| x, d) := by
  induction n generalizing c r with
  | zero => simp [readLoop, Except.map]
  | succ n ih =>
    rw [readLoop, readLoop]
    cases m.fetch c.idx.toNat with
    | error e => rfl
    | ok w =>
      simp only
      rw [ih c.advance (shiftIn r _), ih c.advance (shiftIn 0 _)]
      cases readLoop m n c.advance 0 with
      | error e => rfl
      | ok p =>
        simp only [Except.map]
        rw [shiftIn_shiftLeft_or]

/-- A read that returns fits and is its loop (R232, R233). -/
theorem readBits_eq_ok {m : Memory} {n : Nat} {c : Cursor} {p : Word × Cursor} :
    readBits m n c = .ok p ↔ (n = 0 ∨ c.position + n ≤ 32 * c.cnt.toNat) ∧ readLoop m n c 0 = .ok p := by
  unfold readBits
  split
  · exact ⟨nofun, fun ⟨hend, _⟩ => by omega⟩
  · exact ⟨fun h => ⟨by omega, h⟩, And.right⟩

theorem readLoop_position {m : Memory} {n : Nat} {c d : Cursor} {r x : Word} (hp : c.position + n ≤ 65535)
    (h : readLoop m n c r = .ok (x, d)) : d.position = c.position + n := by
  induction n generalizing c r with
  | zero => cases h; rfl
  | succ n ih =>
    have hadvance := c.advance_position (by omega)
    unfold readLoop at h
    split at h
    · cases h
    · rw [ih (by omega) h, hadvance]
      omega

/-- A read moves the cursor by its number of bits (R234). -/
theorem readBits_position {m : Memory} {n : Nat} {c d : Cursor} {x : Word} (h : readBits m n c = .ok (x, d)) :
    d.position = c.position + n := by
  obtain ⟨hend, hloop⟩ := readBits_eq_ok.1 h
  have hidx := c.idx.isLt
  have hoff := c.off_lt
  have hcnt := c.cnt.isLt
  exact readLoop_position (by unfold Cursor.position at *; omega) hloop

/-- Settles O45. -/
theorem splitReadsCompose : Obligations.SplitReadsCompose := by
  intro m n₁ n₂ c c₁ c₂ r₁ r₂ _ h₁ h₂
  have hpos := readBits_position h₁
  have hcnt := readBits_cnt h₁
  obtain ⟨hend₁, hloop₁⟩ := readBits_eq_ok.1 h₁
  obtain ⟨hend₂, hloop₂⟩ := readBits_eq_ok.1 h₂
  rw [hpos, hcnt] at hend₂
  refine readBits_eq_ok.2 ⟨by omega, ?_⟩
  calc readLoop m (n₁ + n₂) c 0
      = readLoop m n₂ c₁ r₁ := by rw [readLoop_add, hloop₁]; rfl
    _ = .ok (r₁ <<< n₂ ||| r₂, c₂) := by rw [readLoop_accumulator, hloop₂]; rfl

end Sys2Proof.Machine
end

section
/-! PROOFS. The verifier line count (R257), the faults of META and VERIFY_LEN (R253, R259, R305), and the scan of a region
without a stop bit (R260). -/

namespace Sys2Proof.Machine

/-! ### The line count (R257) -/

theorem verifierLines_of_le {used : Nat} (h : used ≤ 24) (r : Rounding) : verifierLines r used = 1 := if_pos h

theorem verifierLines_floor {e : Nat} (h : 0 < e) : verifierLines .floor (24 + e) = 2 + e / 64 := by
  rw [verifierLines, if_neg (by omega), Nat.add_sub_cancel_left]

theorem verifierLines_ceil {e : Nat} (h : 0 < e) : verifierLines .ceil (24 + e) = 1 + (e + 63) / 64 := by
  rw [verifierLines, if_neg (by omega), Nat.add_sub_cancel_left]

theorem verifierLines_pos (r : Rounding) (used : Nat) : 1 ≤ verifierLines r used := by
  rcases Nat.le_total used 24 with h | h
  · exact (verifierLines_of_le h r).ge
  · obtain ⟨e, rfl⟩ := Nat.exists_eq_add_of_le h
    rcases Nat.eq_zero_or_pos e with rfl | he
    · exact (verifierLines_of_le (Nat.le_refl 24) r).ge
    · cases r with
      | floor => rw [verifierLines_floor he]; omega
      | ceil => rw [verifierLines_ceil he]; omega

/-- Settles O48. -/
theorem lineCountOfBothRoundings : Obligations.LineCountOfBothRoundings := by
  refine fun used => ⟨verifierLines_of_le, ?_, fun r => verifierLines_pos r used⟩
  rintro e rfl he
  rw [verifierLines_floor he, verifierLines_ceil he]
  refine ⟨rfl, by omega, by omega, ?_⟩
  split <;> omega

/-! ### The check fault and the data fault of META and VERIFY_LEN (R253, R259, R307) -/

section
variable (ig : BitVec 24) {s : State}

theorem State.checked_wcount_of_gt (h : s.params.wbufDepth < s.wcount.toNat) (k : Host.Outcome State Fault Refusal) :
    s.checked [(s.wcountAboveDepth, .illegalOperand)] k = .next { s with err := .illegalOperand, sticky := true } :=
  State.checked_of_fail (by rw [State.wcountAboveDepth, decide_eq_true h, firstError])

theorem exec_metadata_of_malformed (hdepth : s.wcount.toNat ≤ s.params.wbufDepth)
    (hf : metaFields s.wbuf s.metaStart = .error (.raised .malformedInput)) :
    exec (.metadata ig) s = .next (s.takeFault .malformedInput [.md, .cursor]) := by
  rw [exec, execMetadata, State.checked_wcount_of_le hdepth, metaStage, hf]
  rfl

theorem exec_verifyLen_of_malformed (hdepth : s.wcount.toNat ≤ s.params.wbufDepth)
    (hs : scan s.wbuf s.verifierStart = .error (.raised .malformedInput)) :
    exec (.verifyLen ig) s = .next (s.takeFault .malformedInput [.verLines, .cursor]) := by
  rw [exec, execVerifyLen, State.checked_wcount_of_le hdepth, verifyStage, hs]
  rfl

end

/-! ### A region without a stop bit (R260) -/

/-- The bits from `lo` up to `hi` hold the value 0 (R231). -/
def Memory.ZeroBits (m : Memory) (lo hi : Nat) : Prop := ∀ g, lo ≤ g → g < hi → m.bitAt g = some false

theorem Memory.ZeroBits.mono {m : Memory} {lo lo' hi hi' : Nat} (h : m.ZeroBits lo hi) (hlo : lo ≤ lo')
    (hhi : hi' ≤ hi) : m.ZeroBits lo' hi' :=
  fun g h1 h2 => h g (by omega) (by omega)

theorem Memory.ZeroBits.holdsBits {m : Memory} {lo hi : Nat} (h : m.ZeroBits lo hi) : m.HoldsBits lo hi := by
  intro g hlo hhi
  rw [← Option.isSome_map, ← Memory.bitAt, h g hlo hhi]
  rfl

theorem bitsFrom_of_zeroBits {m : Memory} {n g : Nat} (h : m.ZeroBits g (g + n)) : bitsFrom m n g 0 = 0 := by
  induction n generalizing g with
  | zero => rfl
  | succ n ih =>
    have hrest : m.ZeroBits (g + 1) (g + 1 + n) := h.mono (by omega) (by omega)
    rw [bitsFrom, h g (Nat.le_refl g) (by omega)]
    exact ih hrest

section
variable {m : Memory} {n fuel used : Nat} {c : Cursor}

/-- Over zero bits up to the end of the sequence a read passes the end, or gives 0 with zero bits again after it. -/
theorem readBits_of_zeroBits (h : m.ZeroBits c.position (32 * c.cnt.toNat)) :
    readBits m n c = .error (.raised .malformedInput) ∨
      ∃ d, readBits m n c = .ok (0, d) ∧ m.ZeroBits d.position (32 * d.cnt.toNat) := by
  by_cases hend : 0 < n ∧ 32 * c.cnt.toNat < c.position + n
  · exact .inl (readBits_past_end hend.1 hend.2)
  · have hzero : m.ZeroBits c.position (c.position + n) := fun g hlo hhi => h g hlo (by omega)
    obtain ⟨d, hread, hpos, hcnt⟩ := readBits_ok (by omega) hzero.holdsBits
    rw [bitsFrom_of_zeroBits hzero] at hread
    refine .inr ⟨d, hread, ?_⟩
    rw [hpos, hcnt]
    exact h.mono (by omega) (Nat.le_refl _)

/-- No terminator bit is 1, so the scan goes on, record by record, until a read passes the end. -/
theorem scanLoop_of_zeroBits (h : m.ZeroBits c.position (32 * c.cnt.toNat)) :
    scanLoop m fuel used c = .error (.raised .malformedInput) := by
  induction fuel generalizing used c with
  | zero => rfl
  | succ fuel ih =>
    simp only [scanLoop, bind, Except.bind]
    rcases readBits_of_zeroBits (n := 1) h with h₁ | ⟨c₁, h₁, z₁⟩
    · rw [h₁]
    simp only [h₁, if_true]
    rcases readBits_of_zeroBits (n := 3) z₁ with h₂ | ⟨c₂, h₂, z₂⟩
    · rw [h₂]
    simp only [h₂]
    generalize verWidth _ = width
    rcases readBits_of_zeroBits (n := width) z₂ with h₃ | ⟨c₃, h₃, z₃⟩
    · rw [h₃]
    simp only [h₃]
    exact ih z₃

end

/-- The verifier region starts at bit 40 (R254). -/
theorem exec_verifyLen_of_zeroBits (ig : BitVec 24) {s : State} (hdepth : s.wcount.toNat ≤ s.params.wbufDepth)
    (h : s.wbuf.ZeroBits 40 (32 * s.wcount.toNat)) :
    exec (.verifyLen ig) s = .next (s.takeFault .malformedInput [.verLines, .cursor]) :=
  exec_verifyLen_of_malformed ig hdepth (scanLoop_of_zeroBits (c := s.verifierStart) h)

/-- Settles O50. -/
theorem zeroVerifierNeverTerminates : Obligations.ZeroVerifierNeverTerminates := fun ig _ hdepth hzero =>
  ⟨_, exec_verifyLen_of_zeroBits ig hdepth hzero, by rw [State.takeFault_verify]⟩

/-! ### Fewer than two words (R253, R259, R305) -/

/-- META reads 36 bits from bit 4 on, which one word does not hold (R250, R251). -/
theorem metaFields_of_short {s : State} (hshort : s.wcount.toNat < 2) (hv : s.wbuf.Holds 0 s.wcount.toNat) :
    metaFields s.wbuf s.metaStart = .error (.raised .malformedInput) := by
  rcases metaFields_of_holds (c := s.metaStart) hv with ⟨_, _, -, -, -, hend⟩ | h
  · rw [s.metaStart_position, s.metaStart_cnt] at hend
    omega
  · exact h

/-- The first terminator bit, bit 40, already lies past the end of one word (R254). -/
theorem scan_of_short {s : State} (hshort : s.wcount.toNat < 2) :
    scan s.wbuf s.verifierStart = .error (.raised .malformedInput) := by
  have hend : 32 * s.verifierStart.cnt.toNat < s.verifierStart.position + 1 := by
    rw [s.verifierStart_position, s.verifierStart_cnt]
    omega
  rw [scan, scanBound, scanLoop, readBits_past_end Nat.one_pos hend]
  rfl

/-- Settles O47. -/
theorem shortCheatFaults : Obligations.ShortCheatFaults := by
  refine fun ig s => ⟨fun hdepth => ⟨State.checked_wcount_of_gt hdepth _, State.checked_wcount_of_gt hdepth _⟩,
    fun hdepth hshort hv => ⟨⟨_, exec_metadata_of_malformed ig hdepth (metaFields_of_short hshort hv), ?_⟩,
      ⟨_, exec_verifyLen_of_malformed ig hdepth (scan_of_short hshort), ?_⟩⟩⟩
  · rw [State.takeFault_meta]
  · rw [State.takeFault_verify]

end Sys2Proof.Machine
end

section
/-! PROOFS. NOP (R280), and DECODE_CHEAT as its stages in turn (R281): what a stage's command has found when it ends
with a fault and when it completes, what the stages then give, the output stage, and the cheat of one line. -/

namespace Sys2Proof.Machine

/-! ### NOP (R280) -/

/-- Settles O17. -/
theorem nopOnlyClearsErr : Obligations.NopOnlyClearsErr :=
  ⟨fun _ hop => decodeCmd_of_encode (cmdWord_of_opcodeOf hop), fun _ _ => rfl⟩

/-! ### What the command of a stage has found (R253, R259, R307) -/

section
variable {ig : BitVec 24} {s t : State}

/-- A command that ends with an error code has raised it, because a result sets ERR to 0 (R35). -/
theorem State.eq_raised_of_conclude {ds : List Dest} {r : Except Stop State} (h : s.conclude ds r = .next t)
    (herr : t.err ≠ .ok) : r = .error (.raised t.err) := by
  rcases State.conclude_next h with ⟨u, -, rfl⟩ | ⟨e, hr, rfl⟩
  · exact absurd rfl herr
  · exact hr

theorem metaFields_of_exec_fault (h : exec (.metadata ig) s = .next t)
    (hdepth : s.wcount.toNat ≤ s.params.wbufDepth) (herr : t.err ≠ .ok) :
    metaFields s.wbuf s.metaStart = .error (.raised t.err) := by
  rw [exec, execMetadata, State.checked_wcount_of_le hdepth] at h
  exact Except.map_eq_error.1 (State.eq_raised_of_conclude h herr)

theorem scan_of_exec_fault (h : exec (.verifyLen ig) s = .next t)
    (hdepth : s.wcount.toNat ≤ s.params.wbufDepth) (herr : t.err ≠ .ok) :
    scan s.wbuf s.verifierStart = .error (.raised t.err) := by
  rw [exec, execVerifyLen, State.checked_wcount_of_le hdepth] at h
  exact Except.map_eq_error.1 (State.eq_raised_of_conclude h herr)

theorem decryptLines_of_exec_ok (h : exec (.armaxBuf ig) s = .next t) (hok : t.err = .ok) :
    ∃ m, (∀ c ∈ s.armaxChecks, c.1 = false) ∧ decryptLines s.sched (s.wcount.toNat / 2) 0 s.wbuf = .ok m
      ∧ t = { s with wbuf := m, err := .ok } := by
  rcases execArmaxBuf_next h with ⟨m, hdepth, hvalid, heven, hm, ht⟩ | ⟨e, he, rfl⟩
  · exact ⟨m, State.armaxChecks_pass.2 ⟨hdepth, hvalid, heven⟩, hm, ht⟩
  · exact absurd hok he

theorem metaFields_of_exec_ok (h : exec (.metadata ig) s = .next t) (hok : t.err = .ok) :
    ∃ f c, metaFields s.wbuf s.metaStart = .ok (f, c)
      ∧ t = { s with
          cur := c, mdGame := f.game, mdCheat := f.cheat, mdEnable := f.enable, mdRegion := f.region, err := .ok } := by
  rcases execMetadata_next h with ⟨f, c, -, hf, ht⟩ | ⟨e, he, rfl⟩ | rfl
  · exact ⟨f, c, hf, ht⟩
  · exact absurd hok he
  · exact absurd hok (by simp)

theorem scan_of_exec_ok (h : exec (.verifyLen ig) s = .next t) (hok : t.err = .ok) :
    ∃ used d, scan s.wbuf s.verifierStart = .ok (used, d)
      ∧ t = { s with
          cur := d, verLines := BitVec.ofNat 32 (verifierLines s.params.rounding used), err := .ok } := by
  rcases execVerifyLen_next h with ⟨used, d, -, hs, ht⟩ | ⟨e, he, rfl⟩ | rfl
  · exact ⟨used, d, hs, ht⟩
  · exact absurd hok he
  · exact absurd hok (by simp)

end

/-! ### The stages in turn (R281) -/

/-- The state in which DECODE_CHEAT enters its output stage (R281). -/
def State.scanned (s : State) (m : Memory) (f : MetaFields) (used : Nat) (d : Cursor) : State :=
  { s with
    wbuf := m, mdGame := f.game, mdCheat := f.cheat, mdEnable := f.enable, mdRegion := f.region, cur := d
    verLines := BitVec.ofNat 32 (verifierLines s.params.rounding used) }

section
variable {s : State} {m : Memory} (hm : decryptLines s.sched (s.wcount.toNat / 2) 0 s.wbuf = .ok m)
include hm

theorem decodeStages_of_metaFields_error {x : Stop} (hf : metaFields m s.metaStart = .error x) :
    decodeStages s = .error x := by
  have hf' : metaFields ({ s with wbuf := m } : State).wbuf ({ s with wbuf := m } : State).metaStart = .error x := hf
  simp only [decodeStages, armaxStage, metaStage, hm, hf', Except.map, bind, Except.bind]

variable {f : MetaFields} {c : Cursor} (hf : metaFields m s.metaStart = .ok (f, c))
include hf

/-- After the ARMAX and metadata stages, DECODE_CHEAT goes on as its scan and its output stage do. -/
theorem decodeStages_of_metaFields :
    decodeStages s = (scan m s.verifierStart).bind fun (used, d) => outputStage (s.scanned m f used d) := by
  have hf' : metaFields ({ s with wbuf := m } : State).wbuf ({ s with wbuf := m } : State).metaStart = .ok (f, c) := hf
  simp only [decodeStages, armaxStage, metaStage, hm, hf', Except.map, bind, Except.bind]
  show Except.bind (Except.map _ (scan m s.verifierStart)) _ = _
  cases scan m s.verifierStart <;> rfl

theorem decodeStages_of_scan_error {x : Stop} (hs : scan m s.verifierStart = .error x) : decodeStages s = .error x := by
  rw [decodeStages_of_metaFields hm hf, hs]
  rfl

theorem decodeStages_of_scan {used : Nat} {d : Cursor} (hs : scan m s.verifierStart = .ok (used, d)) :
    decodeStages s = outputStage (s.scanned m f used d) := by
  rw [decodeStages_of_metaFields hm hf, hs]
  rfl

end

section
variable (ig : BitVec 24) {s : State} (hpass : ∀ c ∈ s.armaxChecks, c.1 = false)
include hpass

/-- Once its checks pass, DECODE_CHEAT ends as its stages do (R281, R308). -/
theorem exec_decodeCheat_of_pass : exec (.decodeCheat ig) s = s.conclude decodeDests (decodeStages s) :=
  State.checked_of_pass hpass

theorem exec_decodeCheat_of_ok {u : State} (h : decodeStages s = .ok u) :
    exec (.decodeCheat ig) s = .next u.succeed := by
  rw [exec_decodeCheat_of_pass ig hpass, h, State.conclude_ok]

/-- The first error of a stage ends DECODE_CHEAT (R281, R307). -/
theorem exec_decodeCheat_of_raised {e : ErrCode} (h : decodeStages s = .error (.raised e)) :
    ∃ t, exec (.decodeCheat ig) s = .next t ∧ t.err = e ∧ t.sticky = true :=
  ⟨s.takeFault e decodeDests, by rw [exec_decodeCheat_of_pass ig hpass, h, State.conclude_raised], rfl, rfl⟩

end

/-- ARMAX_BUF has check faults only, and DECODE_CHEAT makes the same checks (R147, R281). -/
theorem exec_decodeCheat_of_armaxBuf_fault {ig : BitVec 24} {s t : State} (h : exec (.armaxBuf ig) s = .next t)
    (herr : t.err ≠ .ok) : exec (.decodeCheat ig) s = .next t := by
  cases hc : firstError s.armaxChecks with
  | some e => rw [← h, exec_of_armaxChecks_fail (.inl rfl) hc, exec_of_armaxChecks_fail (.inr rfl) hc]
  | none =>
    obtain ⟨hdepth, hvalid, heven⟩ := State.armaxChecks_pass.1 (firstError_eq_none.1 hc)
    rw [exec_armaxBuf_of_ready ig hdepth hvalid heven] at h
    obtain ⟨_, hj, -⟩ := decryptLines_error (Except.map_eq_error.1 (State.eq_raised_of_conclude h herr))
    cases hj

/-- A ready core with no words loaded passes the checks, and META then has nothing to read (R253, R281). -/
theorem exec_decodeCheat_of_empty (ig : BitVec 24) {s : State} (hvalid : s.schedValid = true) (hzero : s.wcount = 0) :
    ∃ t, exec (.decodeCheat ig) s = .next t ∧ t.err = .malformedInput ∧ t.sticky = true := by
  have hcount : s.wcount.toNat = 0 := by rw [hzero]; rfl
  have hpass := State.armaxChecks_pass.2 ⟨by omega, hvalid, by omega⟩
  have hm : decryptLines s.sched (s.wcount.toNat / 2) 0 s.wbuf = .ok s.wbuf := by rw [hcount]; rfl
  have hf := metaFields_of_short (s := s) (by omega) fun k _ hk => absurd hk (by omega)
  exact exec_decodeCheat_of_raised ig hpass (decodeStages_of_metaFields_error hm hf)

/-! ### The output stage (R206, R281) -/

theorem Memory.writeWords_append (m : Memory) (i : Nat) (xs ys : List Word) :
    m.writeWords i (xs ++ ys) = (m.writeWords i xs).writeWords (i + xs.length) ys := by
  induction xs generalizing m i with
  | nil => rfl
  | cons x xs ih =>
    rw [List.cons_append, Memory.writeWords, Memory.writeWords, ih, List.length_cons, Nat.add_assoc, Nat.add_comm 1]

/-- Words stored from index 0 on are what the buffer reads as there, and the words after them stay. -/
theorem Memory.read_writeWords_zero (m : Memory) (ws : List Word) :
    (∀ k < ws.length, (m.writeWords 0 ws).read k = ws[k]?)
      ∧ ∀ k, ws.length ≤ k → (m.writeWords 0 ws).read k = m.read k := by
  refine ⟨fun k hk => ?_, fun k hk => ?_⟩
  · rw [Memory.read_writeWords, if_pos (by omega), Nat.sub_zero]
  · rw [Memory.read_writeWords, if_neg (by omega)]

section
variable {s : State} {ws : List Word} (hlen : ws.length = s.wcount.toNat)
variable (hws : ∀ k < ws.length, s.wbuf.read k = ws[k]?)
include hlen hws

/-- A verifier region that takes all the words is copied, and nothing is left to stream. -/
theorem outputStage_of_copy (hle : s.wcount.toNat ≤ s.ar2Start) :
    outputStage s = .ok { s with obuf := s.obuf.writeWords 0 ws, ocount := s.wcount } := by
  have hcopy : s.wbuf.words s.wcount.toNat 0 = .ok ws :=
    Memory.words_eq_ok.2 ⟨hlen, fun k hk => by rw [Nat.zero_add]; exact hws k (by omega)⟩
  simp only [outputStage, Nat.min_eq_right hle, hcopy, bind, Except.bind, if_neg (Nat.not_lt.2 hle)]
  rfl

variable (hlt : s.ar2Start < s.wcount.toNat)
include hlt

/-- Words that remain after the verifier region are streamed behind its copy. -/
theorem outputStage_eq_ar2Stream :
    outputStage s =
      ar2Stream { s with obuf := s.obuf.writeWords 0 (ws.take s.ar2Start) } s.ar2Start (s.wcount.toNat - s.ar2Start)
        s.ar2Start := by
  have hcopy : s.wbuf.words s.ar2Start 0 = .ok (ws.take s.ar2Start) := by
    refine Memory.words_eq_ok.2 ⟨by rw [List.length_take]; omega, fun k hk => ?_⟩
    rw [Nat.zero_add, List.getElem?_take_of_lt hk]
    exact hws k (by omega)
  simp only [outputStage, Nat.min_eq_left (Nat.le_of_lt hlt), hcopy, bind, Except.bind, if_pos hlt]

/-- The stream starts on a line, so the words left for it are pairs as WCOUNT is even. -/
theorem ar2Pairs_eq_decryptCheat_drop (heven : s.wcount.toNat % 2 = 0) :
    ar2Pairs s.params s.wbuf ((s.wcount.toNat - s.ar2Start) / 2) s.ar2Start s.seed =
      raising (decryptCheat s.params (ws.drop s.ar2Start) s.seed) := by
  have hstart : s.ar2Start = 2 * s.verLines.toNat := rfl
  refine ar2Pairs_eq_decryptCheat (by rw [List.length_drop]; omega) fun k hk => ?_
  rw [List.length_drop] at hk
  rw [List.getElem?_drop]
  exact hws _ (by omega)

variable (heven : s.wcount.toNat % 2 = 0)
include heven

theorem outputStage_of_decryptCheat_ok {out : List Word} {sd : Seed}
    (h : decryptCheat s.params (ws.drop s.ar2Start) s.seed = .ok (out, sd)) :
    outputStage s = .ok
      { s with
        obuf := s.obuf.writeWords 0 (ws.take s.ar2Start ++ out)
        ocount := BitVec.ofNat 11 (s.ar2Start + out.length)
        seed := sd } := by
  have htake : (ws.take s.ar2Start).length = s.ar2Start := by rw [List.length_take]; omega
  rw [outputStage_eq_ar2Stream hlen hws hlt, ar2Stream, ar2Pairs_eq_decryptCheat_drop hlen hws hlt heven, h,
    Memory.writeWords_append, htake, Nat.zero_add]
  rfl

theorem outputStage_of_decryptCheat_error {e : ErrCode}
    (h : decryptCheat s.params (ws.drop s.ar2Start) s.seed = .error e) : outputStage s = .error (.raised e) := by
  rw [outputStage_eq_ar2Stream hlen hws hlt, ar2Stream, ar2Pairs_eq_decryptCheat_drop hlen hws hlt heven, h]
  rfl

end

/-! ### DECODE_CHEAT (R281) -/

section
variable (ig : BitVec 24) {s u : State} {ws : List Word} (hpass : ∀ c ∈ s.armaxChecks, c.1 = false)
variable (hstages : decodeStages s = outputStage u)
variable (hlen : ws.length = u.wcount.toNat) (hws : ∀ k < ws.length, u.wbuf.read k = ws[k]?)
include hpass hstages hlen hws

theorem exec_decodeCheat_of_copy (hle : u.wcount.toNat ≤ u.ar2Start) :
    ∃ m : Memory, exec (.decodeCheat ig) s = .next { u.succeed with obuf := m, ocount := u.wcount }
      ∧ (∀ k < ws.length, m.read k = ws[k]?) ∧ ∀ k, ws.length ≤ k → m.read k = u.obuf.read k :=
  ⟨_, exec_decodeCheat_of_ok ig hpass (hstages.trans (outputStage_of_copy hlen hws hle)),
    u.obuf.read_writeWords_zero ws⟩

variable (heven : u.wcount.toNat % 2 = 0) (hlt : u.ar2Start < u.wcount.toNat)
include heven hlt

theorem exec_decodeCheat_of_stream_ok {out : List Word} {sd : Seed}
    (h : decryptCheat u.params (ws.drop u.ar2Start) u.seed = .ok (out, sd)) :
    ∃ m : Memory,
      exec (.decodeCheat ig) s = .next
          { u.succeed with obuf := m, ocount := BitVec.ofNat 11 (u.ar2Start + out.length), seed := sd }
        ∧ (∀ k < u.ar2Start + out.length, m.read k = (ws.take u.ar2Start ++ out)[k]?)
        ∧ ∀ k, u.ar2Start + out.length ≤ k → m.read k = u.obuf.read k := by
  have hcount : (ws.take u.ar2Start ++ out).length = u.ar2Start + out.length := by
    rw [List.length_append, List.length_take, Nat.min_eq_left (by omega)]
  have hread := u.obuf.read_writeWords_zero (ws.take u.ar2Start ++ out)
  rw [hcount] at hread
  exact ⟨_, exec_decodeCheat_of_ok ig hpass
    (hstages.trans (outputStage_of_decryptCheat_ok hlen hws hlt heven h)), hread⟩

theorem exec_decodeCheat_of_stream_error {e : ErrCode}
    (h : decryptCheat u.params (ws.drop u.ar2Start) u.seed = .error e) :
    ∃ t, exec (.decodeCheat ig) s = .next t ∧ t.err = e ∧ t.sticky = true :=
  exec_decodeCheat_of_raised ig hpass (hstages.trans (outputStage_of_decryptCheat_error hlen hws hlt heven h))

end

/-- Settles O51: what ARMAX_BUF, META and VERIFY_LEN have found is what the stages find, because no stage reads ERR, and
ERR is all that a command which completes writes besides its stage's results. -/
theorem decodeCheatComposesTheStages : Obligations.DecodeCheatComposesTheStages := by
  refine ⟨fun ig s => exec_decodeCheat_of_empty ig,
    fun ig s t₁ h₁ => ⟨exec_decodeCheat_of_armaxBuf_fault h₁, fun t₂ hok₁ h₂ => ?_⟩⟩
  obtain ⟨m, hpass, hm, rfl⟩ := decryptLines_of_exec_ok h₁ hok₁
  obtain ⟨hdepth, -, heven⟩ := State.armaxChecks_pass.1 hpass
  refine ⟨fun herr => exec_decodeCheat_of_raised ig hpass
    (decodeStages_of_metaFields_error hm (metaFields_of_exec_fault h₂ hdepth herr)), fun t₃ hok₂ h₃ => ?_⟩
  obtain ⟨f, c, hf, rfl⟩ := metaFields_of_exec_ok h₂ hok₂
  refine ⟨fun herr => exec_decodeCheat_of_raised ig hpass
    (decodeStages_of_scan_error hm hf (scan_of_exec_fault h₃ hdepth herr)), fun ws hok₃ hlen hws => ?_⟩
  obtain ⟨used, d, hs, rfl⟩ := scan_of_exec_ok h₃ hok₃
  have hstages : decodeStages s = outputStage (s.scanned m f used d) := decodeStages_of_scan hm hf hs
  exact ⟨exec_decodeCheat_of_copy ig hpass hstages hlen hws,
    fun hlt _ _ => exec_decodeCheat_of_stream_ok ig hpass hstages hlen hws heven hlt,
    fun hlt _ => exec_decodeCheat_of_stream_error ig hpass hstages hlen hws heven hlt⟩

/-! ### The cheat of one line (R253, R259, R281) -/

/-- The ARMAX loop on one line whose words hold values: it decrypts the line and leaves the words after it (R147). -/
theorem exists_decryptLines_one {sched : Vector Word 32} {m : Memory} {a v : Word} (ha : m.read 0 = some a)
    (hv : m.read 1 = some v) :
    ∃ m', decryptLines sched 1 0 m = .ok m' ∧ m'.read 0 = some (decryptPair sched a v).1
      ∧ m'.read 1 = some (decryptPair sched a v).2 ∧ ∀ k, 2 ≤ k → m'.read k = m.read k := by
  refine ⟨(m.write 0 (decryptPair sched a v).1).write 1 (decryptPair sched a v).2, ?_, ?_, ?_, fun k hk => ?_⟩
  · simp only [decryptLines, Memory.fetch_eq_ok.2 ha, Memory.fetch_eq_ok.2 hv, bind, Except.bind]
  · rw [Memory.read_write_other _ _ (by decide), Memory.read_write_same]
  · exact Memory.read_write_same _ _ _
  · rw [Memory.read_write_other _ _ (by omega), Memory.read_write_other _ _ (by omega)]

/-- The first terminator bit of the verifier is bit 23 of the value word; where it is 1, the scan reads no other bit
(R254). -/
theorem scan_of_stop_first {s : State} {m : Memory} {w₁ : Word} (htwo : 2 ≤ s.wcount.toNat)
    (hw₁ : m.read 1 = some w₁) (hstop : w₁.getLsbD 23 = true) :
    scan m s.verifierStart = .ok (1, { idx := 1, off := 9, cnt := s.wcount }) := by
  have hbit : m.bitAt 40 = some true := by
    rw [Memory.bitAt, hw₁]
    exact congrArg some hstop
  have hv : m.HoldsBits 40 41 := by
    intro g hlo hhi
    rw [show g / 32 = 1 by omega, hw₁]
    rfl
  obtain ⟨d, hs, hpos, hcnt⟩ := scanLoop_of_stop (fuel := 32 * s.wcount.toNat) (used := 0) s.verifierStart_position
    s.verifierStart_cnt hbit hv (by omega)
  have hd : d = { idx := 1, off := 9, cnt := s.wcount } := Cursor.ext_position hpos hcnt
  rw [← hd]
  exact hs

/-- Settles O52: with the stop bit first the header is one bit long, so the one line is all verifier, and the output
stage copies it. -/
theorem decodeCheatOfOneVerifierLine : Obligations.DecodeCheatOfOneVerifierLine := by
  intro ig s a v w₀ w₁ hdepth hvalid htwo ha hv hpair hstop
  have hcount : s.wcount.toNat = 2 := by rw [htwo]; rfl
  have hpass := State.armaxChecks_pass.2 ⟨hcount.trans_le hdepth, hvalid, by rw [hcount]⟩
  obtain ⟨m, hm, hw₀, hw₁, habove⟩ := exists_decryptLines_one (sched := s.sched) ha hv
  rw [hpair] at hw₀ hw₁
  have hm : decryptLines s.sched (s.wcount.toNat / 2) 0 s.wbuf = .ok m := by rw [hcount]; exact hm
  obtain ⟨c, hf, -, -⟩ := metaFields_of_words s.metaStart_position hcount.ge hw₀ hw₁
  have hs := scan_of_stop_first hcount.ge hw₁ hstop
  have hws : ∀ k < [w₀, w₁].length, m.read k = [w₀, w₁][k]?
    | 0, _ => hw₀
    | 1, _ => hw₁
  obtain ⟨m', hexec, hcopied, hkept⟩ := exec_decodeCheat_of_copy ig (ws := [w₀, w₁]) hpass
    (decodeStages_of_scan hm hf hs) hcount.symm hws
    (by simp [State.ar2Start, State.scanned, verifierLines_of_le, hcount])
  refine ⟨m, m', ?_, hw₀, hw₁, habove, hcopied 0 Nat.two_pos, hcopied 1 Nat.one_lt_two, hkept⟩
  rw [hexec, State.scanned, verifierLines_of_le (by decide), htwo]
  rfl

end Sys2Proof.Machine
end

section
/-! PROOFS. The rules about faults that hold of every command (R307, R310, R311): from a loaded buffer none stops the
machine, a data fault spares what is no destination of its command, and nothing but the reset input clears STICKY or
SCHED_VALID. -/

namespace Sys2Proof.Machine

/-! ### Every instruction has a next state (R43, R310) -/

/-- Settles O59. -/
theorem loadedBufferNeverStops : Obligations.LoadedBufferNeverStops := by
  intro i s hs
  obtain ⟨t, ht⟩ := exists_exec_of_bufferLoaded i hs
  exact ⟨t, ht, (exec_next ht).bufferLoaded hs⟩

/-! ### What a data fault spares (R101, R307) -/

/-- Settles O53: a command that ends with an error has taken a check fault, which spoils nothing, or the data fault of its
row. -/
theorem dataFaultSparesOtherState : Obligations.DataFaultSparesOtherState := by
  intro ig s t
  refine ⟨fun h herr => ⟨?_, fun _ => (exec_next h).wbuf_above⟩, fun h herr => ?_⟩
  · rcases execDecodeCheat_next h with ⟨u, -, -, -, -, rfl⟩ | ⟨e, -, rfl⟩ | ⟨e, -, -, rfl⟩
    · exact absurd u.succeed_err herr
    · rfl
    · rw [State.takeFault_decode]
  · rcases execAr2Stream_next h with ⟨out, sd, -, -, -, rfl⟩ | ⟨e, -, rfl⟩ | ⟨e, -, -, rfl⟩
    · exact absurd rfl herr
    · rfl
    · rw [State.takeFault_stream]

/-! ### STICKY and SCHED_VALID under an instruction (R38, R311) -/

/-- Every fault sets STICKY, and every success leaves it (R35, R311). -/
theorem Executes.sticky {s t : State} {i : Instr} (h : Executes s i t) :
    t.sticky = (s.sticky || decide (t.err ≠ .ok)) := by
  cases h with
  | checkFault _ e he => simp [he]
  | streamFault ig e he | decodeFault ig e he => simp [he]
  | metaFault | verifyFault => simp
  | decode ig u hd he hu =>
    rw [(decodeStages_frame hu).1]
    simp
  | _ => simp

/-- What is set stays set: STICKY, SCHED_VALID, and with it the schedule that ARMAX_GEN has generated. -/
def State.KeepsLatches (s t : State) : Prop :=
  (s.sticky = true → t.sticky = true)
    ∧ (s.schedValid = true → t.schedValid = true ∧ (s.sched = generate → t.sched = generate))

theorem State.KeepsLatches.of_eq {s t : State} (hsticky : t.sticky = s.sticky) (hvalid : t.schedValid = s.schedValid)
    (hsched : t.sched = s.sched) : s.KeepsLatches t :=
  ⟨hsticky.trans, fun hv => ⟨hvalid.trans hv, hsched.trans⟩⟩

/-- ARMAX_GEN alone writes SCHED and SCHED_VALID, and what it writes is the generated schedule (R145). -/
theorem Executes.keepsLatches {s t : State} {i : Instr} (h : Executes s i t) : s.KeepsLatches t := by
  refine ⟨fun hs => by rw [h.sticky, hs, Bool.true_or], fun hv => ?_⟩
  cases i with
  | armaxGen ig =>
    cases h with
    | checkFault => exact ⟨hv, id⟩
    | gen => exact ⟨rfl, fun _ => rfl⟩
    | code _ w hi => cases hi
  | _ =>
    obtain ⟨hsched, hvalid⟩ := h.sched rfl
    exact ⟨hvalid.trans hv, hsched.trans⟩

/-! ### STICKY and SCHED_VALID under the other host events (R38, R73, R311) -/

/-- No register that the host can write holds STICKY, SCHED_VALID or SCHED (R73). -/
theorem State.keepsLatches_hostWrite (s : State) (offset : Nat) (v : Word) : s.KeepsLatches (s.hostWrite offset v) := by
  unfold State.hostWrite
  cases s.target offset with
  | reg r => cases r <;> exact .of_eq rfl rfl rfl
  | _ => exact .of_eq rfl rfl rfl

/-- A write to CMD: its command, or ILLEGAL_COMMAND, which sets STICKY (R100, R301). -/
theorem keepsLatches_of_issue {s t : State} {w : Word} (h : issue s w = .next t) : s.KeepsLatches t := by
  rcases issue_cases s w with ⟨i, -, hi⟩ | ⟨e, -, he⟩
  · exact (exec_next (hi ▸ h)).keepsLatches
  · cases he.symm.trans h
    exact ⟨fun _ => rfl, fun hv => ⟨hv, id⟩⟩

/-- A step takes its event from the queue first, which holds no latch. -/
theorem keepsLatches_of_step {s t : State} (h : step s = .next t) (hreset : ∀ rest, s.bus ≠ .reset :: rest) :
    s.KeepsLatches t := by
  rcases step_cases h with ⟨-, rfl⟩ | ⟨rest, hb, -⟩ | ⟨o, n, rest, -, -, rfl⟩ |
    ⟨o, n, v, rest, -, -, ⟨-, rfl⟩ | ⟨-, hissue⟩⟩
  · exact .of_eq rfl rfl rfl
  · exact absurd hb (hreset rest)
  · exact .of_eq rfl rfl rfl
  · exact State.keepsLatches_hostWrite { s with bus := rest } o v
  · exact keepsLatches_of_issue (s := { s with bus := rest }) hissue

/-- Settles O55. -/
theorem onlyResetClearsStickyAndSchedValid : Obligations.OnlyResetClearsStickyAndSchedValid :=
  ⟨fun _ _ _ h => (exec_next h).sticky, fun _ _ => keepsLatches_of_step⟩

end Sys2Proof.Machine
end

section
/-! PROOFS. What the control values do as instructions (R197 to R204, assumption 3): each mode lane by lane, mode 7 by the
parity of its table seed; and the step that runs an instruction placed for it (assumption 4). -/

namespace Sys2Proof.Machine

/-! ### A placed instruction (assumption 4) -/

theorem decodeTableWord_eq_some {nbits w : Nat} {i : Instr} :
    decodeTableWord nbits w = some i ↔ decode (codeOfTableWord nbits w) = .ok i := by
  unfold decodeTableWord
  cases decode (codeOfTableWord nbits w) <;> simp

/-- A placed command runs on the state itself, a placed control byte on the state with that byte in OPC (R100, R105). -/
theorem exists_step_withFetchCode {c : Code} {i : Instr} (h : decode c = .ok i) (s : State) :
    ∃ b : Byte, step (s.withFetchCode c) = exec i { s with opc := b } ∧ ((∃ x, c = .cmd x) → b = s.opc) := by
  cases c with
  | cmd w => exact ⟨s.opc, stepRunsDecodedCommand (s.withFetchCode (.cmd w)) w s.bus i rfl h, fun _ => rfl⟩
  | control b => exact ⟨b, stepRunsDecodedControl (s.withFetchCode (.control b)) 0x12 s.bus i rfl rfl h, nofun⟩

/-- Settles O7. -/
theorem stepRunsPlacedInstruction : Obligations.StepRunsPlacedInstruction := fun s _ _ _ h =>
  exists_step_withFetchCode (decodeTableWord_eq_some.1 h) s

/-! ### What a mode does to a lane (R196 to R203) -/

/-- The nibble swap is the rotation by half a byte (R196, R198). -/
theorem nib_eq_rotateLeft (b : Byte) : nib b = b.rotateLeft 4 := by
  ext i hi
  rw [nib, BitVec.getElem_append, BitVec.getElem_rotateLeft]
  split
  · rw [BitVec.getElem_extractLsb', BitVec.getLsbD_eq_getElem]
  · rw [BitVec.getElem_extractLsb', Nat.zero_add, BitVec.getLsbD_eq_getElem]

theorem seedIndex_of_lt {s : Byte} (h : s.toNat < 32) : seedIndex s = ⟨s.toNat, h⟩ :=
  Fin.ext (Nat.mod_eq_of_lt h)

/-- Mode 3 reads, on lane `k`, the table that mode 2 gives the mirror lane (R200). -/
theorem lanePerm_subReversed_mirror (p : Params) (i : Fin 32) {k j : Fin 4} (h : k.val + j.val = 3) (x : Byte) :
    lanePerm p i k .subReversed x = x - tableEntry p (p.laneMap.t2.get j) i := by
  obtain rfl : j = 3 - k := by omega
  rfl

/-- Mode 6 on a lane whose sign is plus (R203). -/
theorem lanePerm_mixedOffset_add {p : Params} {k : Fin 4} (h : p.laneMap.sg6.get k = .add) (i : Fin 32) (x : Byte) :
    lanePerm p i k .mixedOffset x =
      x + tableEntry p (p.laneMap.t6.get k) (offsetIndex i (p.laneMap.d6.get k)) := by
  rw [lanePerm, h]
  rfl

/-- Mode 6 on a lane whose sign is minus (R203). -/
theorem lanePerm_mixedOffset_sub {p : Params} {k : Fin 4} (h : p.laneMap.sg6.get k = .sub) (i : Fin 32) (x : Byte) :
    lanePerm p i k .mixedOffset x =
      x - tableEntry p (p.laneMap.t6.get k) (offsetIndex i (p.laneMap.d6.get k)) := by
  rw [lanePerm, h]
  rfl

/-! ### The control values as instructions (R197 to R204, assumption 3) -/

/-- Under a table seed in range, a control value that reads a table completes with what `decrypt_code` gives for it, which
is the mode's permutation on every lane. -/
theorem exec_toInstr_of_seed_lt {c : Byte} {m : Ar2Mode} {s : State} (hc : decodeControl c = .ok m)
    (hm : readsTable m s.opd) (h : s.opd.toNat < 32) :
    ∃ w, exec m.toInstr s = .next { s with res0 := w, err := .ok }
      ∧ decryptCode s.params s.opa c s.opd = .ok w
      ∧ ∀ k, laneOf w k = lanePerm s.params ⟨s.opd.toNat, h⟩ k m (laneOf s.opa k) := by
  have hok : Ar2Mode.decrypt m s.params s.opa s.opd =
      .ok (lanesPerm (fun k => lanePerm s.params ⟨s.opd.toNat, h⟩ k m) s.opa) := by
    rw [decrypt_of_readsTable hm, seeded_of_le (Nat.le_of_lt_succ h), seedIndex_of_lt h]
  refine ⟨_, ?_, (decryptCode_of_decodeControl hc ..).trans hok, laneOf_lanesPerm _ _⟩
  rw [exec_toInstr, hok, State.concludeRes0_ok]

/-- Settles O30: mode 0's lane formula is that of `lanePerm`, mode 1's with the nibble swap as a rotation. -/
theorem xorModesActOnEachLane : Obligations.XorModesActOnEachLane := by
  refine ⟨rfl, rfl, fun s h => ⟨exec_toInstr_of_seed_lt (m := .xor) rfl nofun h, ?_⟩⟩
  obtain ⟨w, hexec, hcode, hlane⟩ := exec_toInstr_of_seed_lt (c := 1#8) (m := .nibswapXor) rfl nofun h
  exact ⟨w, hexec, hcode, fun k => by rw [← nib_eq_rotateLeft]; exact hlane k⟩

/-- Settles O31. -/
theorem addAndSubModesActOnEachLane : Obligations.AddAndSubModesActOnEachLane := by
  refine ⟨rfl, rfl, fun s h => ⟨exec_toInstr_of_seed_lt (m := .add) rfl nofun h, ?_⟩⟩
  obtain ⟨w, hexec, hcode, hlane⟩ := exec_toInstr_of_seed_lt (c := 3#8) (m := .subReversed) rfl nofun h
  exact ⟨w, hexec, hcode, fun k j hkj => (hlane k).trans (lanePerm_subReversed_mirror s.params _ hkj _)⟩

/-- Settles O32: both lane formulas are those of `lanePerm`. -/
theorem combinedModesActOnEachLane : Obligations.CombinedModesActOnEachLane :=
  ⟨rfl, rfl, fun _ h => ⟨exec_toInstr_of_seed_lt (m := .xorAdd) rfl nofun h,
    exec_toInstr_of_seed_lt (m := .subXor) rfl nofun h⟩⟩

/-- Settles O33. -/
theorem offsetModeActsOnEachLane : Obligations.OffsetModeActsOnEachLane := by
  refine ⟨rfl, fun s h => ?_⟩
  obtain ⟨w, hexec, hcode, hlane⟩ := exec_toInstr_of_seed_lt (c := 6#8) (m := .mixedOffset) rfl nofun h
  refine ⟨w, hexec, hcode, fun k i hi => ?_⟩
  obtain rfl : i = offsetIndex ⟨s.opd.toNat, h⟩ (s.params.laneMap.d6.get k) := Fin.ext hi
  exact ⟨fun hadd => (hlane k).trans (lanePerm_mixedOffset_add hadd _ _),
    fun hsub => (hlane k).trans (lanePerm_mixedOffset_sub hsub _ _)⟩

/-- Settles O34. -/
theorem metaModeComplementsOrIsModeOne : Obligations.MetaModeComplementsOrIsModeOne := by
  refine ⟨rfl, fun s => ⟨fun heven => ⟨?_, decryptCode_seven_of_even heven s.params s.opa⟩, fun hodd => ?_⟩⟩
  · exact (exec_toInstr .metaMode s).trans (by rw [decrypt_metaMode_of_even heven, State.concludeRes0_ok])
  · have seven := decrypt_of_readsTable (m := .metaMode) (fun _ => hodd) s.params s.opa
    have one := decrypt_of_readsTable (m := .nibswapXor) (s := s.opd) nofun s.params s.opa
    calc exec .ar2Mode7Meta s
      _ = s.concludeRes0 (Ar2Mode.decrypt .metaMode s.params s.opa s.opd) := exec_toInstr .metaMode s
      _ = s.concludeRes0 (Ar2Mode.decrypt .nibswapXor s.params s.opa s.opd) := congrArg _ (seven.trans one.symm)
      _ = exec .ar2Mode1NibswapXor s := (exec_toInstr .nibswapXor s).symm

end Sys2Proof.Machine
end
